-- ==== Sys2Proof/Word.lean ====
section
/-! DEFINITION. The widths of SMC-CORE: a byte, the 16-bit command word, the 64-bit generator word. Every value is
unsigned and bit 0 is the least significant bit (00_scope.md rule R14). -/

namespace Sys2Proof

/-- A byte: every memory access and every element of the output queue is one byte wide (20_memory.md rule R64). -/
abbrev Byte := BitVec 8

/-- A command word, CMDW = 16 bits (00_scope.md rule R7, 30_encoding.md rule R90). EINFO has the same width. -/
abbrev Word := BitVec 16

/-- The width of the generator state X and of the staging register S, XW = 64 bits (00_scope.md rule R6). -/
abbrev Word64 := BitVec 64

end Sys2Proof
end

