-- ==== Sys2Proof/Syntax.lean ====
section
/-! DEFINITION. The seventeen commands of SMC-CMD v1 (30_encoding.md rule R94), one constructor each, the
pseudo-instructions that stand for sequences of them (rule R103), and their assembler names (rule R102). -/

namespace Sys2Proof

/-- A command. The argument of a format B command is its only operand, `imm8`, an unsigned byte used as it stands
(30_encoding.md rule R93); a format N command has none (rule R91). -/
inductive Instr where
  /-- RST, 0x0100: reset the block (45_control.md rule R221). -/
  | rst
  /-- END, 0x0200: end the pass or message (45_control.md rule R222). -/
  | endMsg
  /-- PWCLR, 0x1000: empty the password buffer (41_keyderiv.md rule R160). -/
  | pwclr
  /-- PWPUSH, 0x11ii: append a password byte (41_keyderiv.md rule R161). -/
  | pwpush (imm8 : Byte)
  /-- NCLR, 0x1200: empty the nonce buffer (44_nonce_message.md rule R200). -/
  | nclr
  /-- NPUSH, 0x13ii: append a nonce byte (44_nonce_message.md rule R201). -/
  | npush (imm8 : Byte)
  /-- NGEN, 0x1400: take a nonce from the randomness source (44_nonce_message.md rule R202). -/
  | ngen
  /-- LDS, 0x20ii: shift a byte into S (40_prg.md rule R140). -/
  | lds (imm8 : Byte)
  /-- SEED, 0x2100: seed the generator from S (40_prg.md rule R141). -/
  | seed
  /-- NEXTB, 0x2200: draw one byte (40_prg.md rule R142). -/
  | nextb
  /-- NEXTP, 0x2300: build one permutation and put it out (40_prg.md rule R143). -/
  | nextp
  /-- SPE, 0x3000: start a single encrypt pass (43_cipher.md rule R190). -/
  | spe
  /-- SPD, 0x3100: start a single decrypt pass (43_cipher.md rule R191). -/
  | spd
  /-- ENCM, 0x3200: start message encryption (44_nonce_message.md rule R204). -/
  | encm
  /-- DECM, 0x3300: start message decryption (44_nonce_message.md rule R206). -/
  | decm
  /-- ENCB, 0x40ii: encipher one byte (43_cipher.md rule R192). -/
  | encb (imm8 : Byte)
  /-- DECB, 0x41ii: decipher one byte (43_cipher.md rule R193, 44_nonce_message.md rule R207). -/
  | decb (imm8 : Byte)
  deriving DecidableEq, Repr

/-- The operand of a format B command (30_encoding.md rule R92), none for format N (rule R91). -/
def Instr.operand : Instr → Option Byte
  | .pwpush b => some b
  | .npush b => some b
  | .lds b => some b
  | .encb b => some b
  | .decb b => some b
  | .rst => none
  | .endMsg => none
  | .pwclr => none
  | .nclr => none
  | .ngen => none
  | .seed => none
  | .nextb => none
  | .nextp => none
  | .spe => none
  | .spd => none
  | .encm => none
  | .decm => none

/-- The mnemonic of 30_encoding.md rule R94. -/
def Instr.mnemonic : Instr → String
  | .rst => "RST"
  | .endMsg => "END"
  | .pwclr => "PWCLR"
  | .pwpush _ => "PWPUSH"
  | .nclr => "NCLR"
  | .npush _ => "NPUSH"
  | .ngen => "NGEN"
  | .lds _ => "LDS"
  | .seed => "SEED"
  | .nextb => "NEXTB"
  | .nextp => "NEXTP"
  | .spe => "SPE"
  | .spd => "SPD"
  | .encm => "ENCM"
  | .decm => "DECM"
  | .encb _ => "ENCB"
  | .decb _ => "DECB"

/-- The assembler line of a command: `MNEMONIC`, or `MNEMONIC #value` with a decimal value (30_encoding.md rule R102). -/
def Instr.asmLine (i : Instr) : String :=
  match i.operand with
  | none => i.mnemonic
  | some b => i.mnemonic ++ " #" ++ toString b.toNat

/-- The pseudo-instructions of 30_encoding.md rule R103. -/
inductive Pseudo where
  | pw (bytes : List Byte)
  | nonce (bytes : List Byte)
  | seed64 (v : Word64)
  | encrypt (bytes : List Byte)
  | decrypt (bytes : List Byte)
  | spenc (bytes : List Byte)
  | spdec (bytes : List Byte)
  deriving DecidableEq, Repr

end Sys2Proof
end

