-- ==== Sys2Proof/WellFormed.lean ====
section
/-! DEFINITION. Well-formedness. The only operand is a byte and all 256 values are legal (30_encoding.md rule R92), so every
term of `Instr` is a command: the check on instructions refuses nothing. What can be ill formed is a WORD: an opcode that
is not assigned, or a format N word whose immediate is not 0 (rules R91, R96). -/

namespace Sys2Proof

/-- The twelve opcodes of format N (30_encoding.md rule R94). -/
def opcodesN : List Byte := [0x01, 0x02, 0x10, 0x12, 0x14, 0x21, 0x22, 0x23, 0x30, 0x31, 0x32, 0x33]

/-- The five opcodes of format B (30_encoding.md rule R94). -/
def opcodesB : List Byte := [0x11, 0x13, 0x20, 0x40, 0x41]

/-- Check 1 on a word: its opcode is one of the seventeen (30_encoding.md rule R96). -/
def opcodeAssigned (op : Byte) : Bool := opcodesN.contains op || opcodesB.contains op

/-- Check 2 on a word: in format N the immediate field is 0 (30_encoding.md rule R91). -/
def immediateAllowed (op imm : Byte) : Bool := !opcodesN.contains op || imm == 0

/-- A word with these two fields is a command exactly when both checks hold (30_encoding.md rule R96). -/
def wordWellFormed (op imm : Byte) : Bool := opcodeAssigned op && immediateAllowed op imm

/-- Every instruction is well formed: a format B operand is any byte, a format N command has none (30_encoding.md rules
R91, R92). -/
def Instr.wellFormed : Instr → Bool
  | .rst => true
  | .endMsg => true
  | .pwclr => true
  | .pwpush _ => true
  | .nclr => true
  | .npush _ => true
  | .ngen => true
  | .lds _ => true
  | .seed => true
  | .nextb => true
  | .nextp => true
  | .spe => true
  | .spd => true
  | .encm => true
  | .decm => true
  | .encb _ => true
  | .decb _ => true

end Sys2Proof
end

