-- ==== Sys2Proof/Decode.lean ====
section
/-! DEFINITION. Decoding of a command word as a total function (30_encoding.md rule R98), the encoder written from the same
map (rule R94), the expansion of the pseudo-instructions (rule R103), and the host's entry `decodeTableWord`. -/

namespace Sys2Proof

/-- The opcode field W[15:8] (30_encoding.md rule R90). -/
def opField (w : Word) : Byte := w.extractLsb' 8 8

/-- The immediate field W[7:0] (30_encoding.md rule R90). -/
def immField (w : Word) : Byte := w.extractLsb' 0 8

/-- Why a word is no command (30_encoding.md rule R96). -/
inductive Reject where
  /-- The opcode is not one of the seventeen. -/
  | unassignedOpcode (op : Byte)
  /-- A format N opcode with an immediate that is not 0. -/
  | immediateNotZero (op imm : Byte)
  deriving DecidableEq, Repr

/-- Format N rows of the opcode map (30_encoding.md rule R94). -/
def formatN : List (Byte × Instr) :=
  [(0x01, .rst), (0x02, .endMsg), (0x10, .pwclr), (0x12, .nclr), (0x14, .ngen), (0x21, .seed), (0x22, .nextb),
   (0x23, .nextp), (0x30, .spe), (0x31, .spd), (0x32, .encm), (0x33, .decm)]

/-- Format B rows of the opcode map (30_encoding.md rule R94). -/
def formatB : List (Byte × (Byte → Instr)) :=
  [(0x11, .pwpush), (0x13, .npush), (0x20, .lds), (0x40, .encb), (0x41, .decb)]

/-- The row of a table whose opcode is `op`. -/
def rowOf {α : Type} (op : Byte) : List (Byte × α) → Option α
  | [] => none
  | (k, v) :: rows => if op = k then some v else rowOf op rows

/-- `decode(W)` of 30_encoding.md rule R98: it depends on the word alone (rule R97). -/
def decode (w : Word) : Except Reject Instr :=
  match rowOf (opField w) formatN with
  | some i => if immField w = 0 then .ok i else .error (.immediateNotZero (opField w) (immField w))
  | none =>
    match rowOf (opField w) formatB with
    | some mk => .ok (mk (immField w))
    | none => .error (.unassignedOpcode (opField w))

/-- The opcode of a command (30_encoding.md rule R94). -/
def Instr.opcode : Instr → Byte
  | .rst => 0x01
  | .endMsg => 0x02
  | .pwclr => 0x10
  | .pwpush _ => 0x11
  | .nclr => 0x12
  | .npush _ => 0x13
  | .ngen => 0x14
  | .lds _ => 0x20
  | .seed => 0x21
  | .nextb => 0x22
  | .nextp => 0x23
  | .spe => 0x30
  | .spd => 0x31
  | .encm => 0x32
  | .decm => 0x33
  | .encb _ => 0x40
  | .decb _ => 0x41

/-- A word from its two fields: the opcode is the high byte (30_encoding.md rule R90, 20_memory.md rule R69). -/
def mkWord (op imm : Byte) : Word := op ++ imm

/-- The word of a command (30_encoding.md rules R91, R92): format N has immediate 0. -/
def encode (i : Instr) : Word := mkWord i.opcode (i.operand.getD 0)

/-- The immediates of `SEED64 v`, most significant byte first (30_encoding.md rule R103). -/
def seedBytes (v : Word64) : List Byte :=
  [v.extractLsb' 56 8, v.extractLsb' 48 8, v.extractLsb' 40 8, v.extractLsb' 32 8,
   v.extractLsb' 24 8, v.extractLsb' 16 8, v.extractLsb' 8 8, v.extractLsb' 0 8]

/-- The sequence a pseudo-instruction stands for (30_encoding.md rule R103). -/
def Pseudo.expand : Pseudo → List Instr
  | .pw bs => .pwclr :: bs.map .pwpush
  | .nonce bs => .nclr :: bs.map .npush
  | .seed64 v => (seedBytes v).map .lds ++ [.seed]
  | .encrypt bs => .encm :: bs.map .encb ++ [.endMsg]
  | .decrypt bs => .decm :: bs.map .decb ++ [.endMsg]
  | .spenc bs => .spe :: bs.map .encb ++ [.endMsg]
  | .spdec bs => .spd :: bs.map .decb ++ [.endMsg]

/-- The words of a pseudo-instruction, in the order given to the command port. -/
def Pseudo.words (p : Pseudo) : List Word := p.expand.map encode

/-- The host's entry: the instruction read from the word `w` of `nbits` bits, numbered as spec/opcode_table.json numbers
them. A command is one 16-bit word and crosses the command port whole (20_memory.md rule R69), so there is no byte order
to lay out; bits above `nbits` are 0. -/
def decodeTableWord (nbits w : Nat) : Option Instr :=
  match decode (BitVec.ofNat 16 (w % 2 ^ nbits)) with
  | .ok i => some i
  | .error _ => none

end Sys2Proof
end

