-- ==== Sys2Proof/Config.lean ====
section
/-! DEFINITION. What an implementation fixes, and the free values. The constants of 00_scope.md rules R6 and R7, the open
parameters of rule R9, and the opaque constants that stand for the hash function, for the bytes of the randomness
source and for the bytes no rule has written. -/

namespace Sys2Proof

/-- The four architectural byte spaces of 20_memory.md rule R60. DG, POOL and PERM of that rule are scratch
(10_state.md rule R33) and are local values of the operations that use them (log 10). -/
inductive MemSpace where
  | grid
  | pat
  | nonce
  | pw
  deriving DecidableEq, Repr

namespace Config

/-- C, the output multiplier (00_scope.md rule R6, 40_prg.md rule R122). -/
abbrev multiplier : Word64 := 0x2545F4914F6CDD1D#64

/-- NTAB: permutation tables in the grid (00_scope.md rule R6). -/
abbrev numTables : Nat := 256

/-- TLEN: entries of one permutation table (00_scope.md rule R6). -/
abbrev tableLen : Nat := 256

/-- NONCE_LEN: bytes in a nonce (00_scope.md rule R6). -/
abbrev nonceLen : Nat := 128

/-- PATOFF: the pattern starts at this digest offset (00_scope.md rule R6). -/
abbrev patOff : Nat := 4

/-- TBASE: the addend of the truncate length (00_scope.md rule R6). -/
abbrev truncBase : Nat := 256

/-- The open parameters of 00_scope.md rules R8 and R9 that a command's result depends on. A digest shorter than five
bytes cannot be configured (93_implementation_defined.md U7). OUT_DEPTH is not here: the model's queue is unbounded
(log 7). -/
structure Params where
  /-- HLEN, bytes in a digest (rule R8). -/
  hlen : Nat
  /-- Every rule is written for 5 <= HLEN, so that the pattern is never empty (rule R8). -/
  hlen_ge : 5 ≤ hlen
  /-- H: total, of its input alone, the same function at every call (41_keyderiv.md rule R150). -/
  hash : List Byte → Vector Byte hlen
  /-- PW_MAX: `none` is unbounded, the faithful value (rule R9). -/
  pwMax : Option Nat

/-- H of this hardware: 64 digest bytes of any message and nothing more known of it (41_keyderiv.md rule R150, log 5).
A claim about it holds for every such function. -/
opaque hash : List Byte → Vector Byte 64

/-- The parameters of this hardware: HLEN = 64 (rule R8), H as above, PW_MAX unbounded (rule R9, log 6). -/
def params : Params := { hlen := 64, hlen_ge := by decide, hash := hash, pwMax := none }

/-- FREE VALUE: the `n`-th byte the randomness source ever delivers, under no law (00_scope.md rule R12, log 3). -/
opaque rngByte : Nat → Byte

/-- FREE VALUE: the byte at an address of a space that nothing has written since reset (20_memory.md rule R62,
93_implementation_defined.md U10, log 4). -/
opaque unwritten : MemSpace → Nat → Byte

end Config
end Sys2Proof
end

