-- ==== Sys2Proof/Machine/State.lean ====
section
/-! DEFINITION. The state of SMC-CORE as plain data (10_state.md), its reset value (rule R49), and the reasons a step can
stop. PHASE and ERR are enumerations: the values the spec says are never held do not exist here (93 U16, log 11). The four
architectural byte spaces (20_memory.md rule R60) are lists of cells in one canonical form, one list each, so that no
space aliases another (rule R62). -/

namespace Sys2Proof.Machine

/-- A byte space: the cells that have been written, at strictly rising addresses. An unlisted address has no byte here:
what reading it gives is the free value `Config.unwritten`, so no entry can equal it and a write never removes one
(20_memory.md rule R62, log 4). -/
abbrev Memory := List Host.Cell

/-- The one canonical form of a space: addresses strictly rise from `lo` on. -/
def Memory.wfFrom : Nat → Memory → Bool
  | _, [] => true
  | lo, (a, _) :: m => decide (lo ≤ a) && Memory.wfFrom (a + 1) m

/-- The canonical form: addresses strictly rise, so that equal spaces are equal lists. -/
def Memory.wf (m : Memory) : Bool := Memory.wfFrom 0 m

/-- PHASE, the phase of the sequencer (10_state.md rule R29). The values 4, 5 and 6 are never held. -/
inductive Phase where
  /-- 0: no message in progress. -/
  | idle
  /-- 1: a key schedule is live and bytes are being enciphered. -/
  | enc
  /-- 2: message decryption, first pass: the enciphered nonce is being received. -/
  | decn
  /-- 3: a key schedule is live and bytes are being deciphered. -/
  | dec
  /-- 7: an error was raised, and only RST is performed. -/
  | fault
  deriving DecidableEq, Repr

/-- ERR, the error code (10_state.md rule R30, 60_exceptions.md rule R231). The values 6 and 7 are never held. -/
inductive Err where
  /-- 0: no error. -/
  | none
  /-- 1: ENCM with NLEN other than 128. -/
  | invalidNonceLength
  /-- 2: END in phase DECN. -/
  | truncatedCiphertext
  /-- 3: the inverse lookup found no entry. -/
  | decodeError
  /-- 4: an illegal word, or a command out of its legal phases. -/
  | illegalCommand
  /-- 5: PWPUSH into a full password buffer. -/
  | passwordOverflow
  deriving DecidableEq, Repr

/-- The state. The fields from `cmdIn` on are the model's own: they stand for the host's pending words and for the
randomness source, agents outside the block (00_scope.md rule R10). -/
@[ext]
structure State where
  /-- X, the generator state (10_state.md rule R22). -/
  regX : Word64
  /-- S, the seed staging register (rule R23). -/
  regS : Word64
  /-- PW, the password bytes (rule R24). -/
  pw : Memory
  /-- PWLEN, a natural number of no fixed width (rule R24). -/
  pwlen : Nat
  /-- NONCE (rule R25). -/
  nonce : Memory
  /-- NLEN (rule R25). -/
  nlen : Byte
  /-- PAT, the pattern (rule R26). -/
  pat : Memory
  /-- PLEN (rule R26). -/
  plen : Byte
  /-- GRID, entry `n` of table `k` at address `256*k + n` (rule R27, 20_memory.md rule R61). -/
  grid : Memory
  /-- PP, the pattern pointer (rule R28). -/
  pp : Byte
  /-- PHASE (rule R29). -/
  phase : Phase
  /-- ERR (rule R30). -/
  err : Err
  /-- EINFO (rule R31). -/
  einfo : Word
  /-- OUT, the output queue, oldest byte first (rule R46). -/
  out : List Byte
  /-- The words the host has issued and the core has not taken, oldest first (rule R21, log 1). -/
  cmdIn : List Word
  /-- An NGEN has been taken and waits for the randomness source (rule R47, log 2). -/
  ngenWait : Bool
  /-- The randomness source is delivering (rule R47, log 2). -/
  rngOn : Bool
  /-- How many bytes have been drawn from the randomness source: the index of its next free byte (log 3). -/
  rngDraws : Nat
  deriving DecidableEq, Repr

/-- The state after reset (10_state.md rule R49): every register 0, PHASE idle, ERR none, OUT empty, and no byte of a space
written. The model's own fields: no word waiting, no held NGEN, the source delivering, no byte drawn yet (logs 1 to 3). -/
def State.reset : State where
  regX := 0
  regS := 0
  pw := []
  pwlen := 0
  nonce := []
  nlen := 0
  pat := []
  plen := 0
  grid := []
  pp := 0
  phase := .idle
  err := .none
  einfo := 0
  out := []
  cmdIn := []
  ngenWait := false
  rngOn := true
  rngDraws := 0

/-- The reasons the machine stops with a fault: none. Every error of the spec is a next state with PHASE = FAULT
(60_exceptions.md rule R240), every other case succeeds (rule R245), and a byte nothing has written reads as a free
value (log 4), so no step stops. Safe: there is nothing the model refuses to go on from. -/
inductive Fault where
  deriving DecidableEq, Repr

/-- The reasons the machine refuses a step. -/
inductive Refusal where
  /-- Raised by an arm of `exec` that has no meaning yet. Safe: nothing can be proved of such a step. No arm raises it. -/
  | notModelled (mnemonic : String)
  deriving DecidableEq, Repr

end Sys2Proof.Machine
end

