-- ==== Sys2Proof/Machine/Ops.lean ====
section
/-! DEFINITION. The named operations over the byte spaces, the output queue and the registers; raising an error (the
block's one exception entry), the reset that is the only way out of it, and the acceptance of a command. -/

namespace Sys2Proof.Machine

/-! ### Byte spaces (20_memory.md rules R60 to R66) -/

/-- The byte listed at an address, none where nothing has been written (20_memory.md rule R62). -/
def Memory.read? : Memory → Nat → Option Byte
  | [], _ => none
  | (k, v) :: m, a => if k = a then some v else Memory.read? m a

/-- The cells of a run of bytes at rising addresses. -/
def cellsFrom : Nat → List Byte → Memory
  | _, [] => []
  | a, b :: bs => (a, b) :: cellsFrom (a + 1) bs

/-- Write a run of bytes at `a, a+1, ...`, one byte wide each (20_memory.md rule R64); every other address keeps its byte.
All writes to a space go through here. -/
def Memory.writeBytes (m : Memory) (a : Nat) (bs : List Byte) : Memory :=
  m.filter (fun c => decide (c.1 < a)) ++ cellsFrom a bs ++ m.filter (fun c => decide (a + bs.length ≤ c.1))

/-- `MemWrite(SPACE, a, 1, v)` (00_scope.md rule R16). -/
def Memory.write (m : Memory) (a : Nat) (v : Byte) : Memory := m.writeBytes a [v]

/-- The cells of a space of the state. -/
def State.space (s : State) : MemSpace → Memory
  | .grid => s.grid
  | .pat => s.pat
  | .nonce => s.nonce
  | .pw => s.pw

/-- `MemRead(SPACE, a, 1)`: the byte last written there; a free value where nothing was (20_memory.md rule R62, log 4). A
read has no side effect. -/
def State.readByte (s : State) (sp : MemSpace) (a : Nat) : Byte :=
  ((s.space sp).read? a).getD (Config.unwritten sp a)

/-- The bytes at addresses `0 .. n-1` of a space, in order (00_scope.md rule R17). -/
def State.readRun (s : State) (sp : MemSpace) (n : Nat) : List Byte :=
  (List.range n).map (s.readByte sp)

/-- `PW` as a value: the sequence `PW[0 : PWLEN]` (00_scope.md rule R17). -/
def State.pwSeq (s : State) : List Byte := s.readRun .pw s.pwlen

/-- `NONCE` as a value: the sequence `NONCE[0 : 128]` (00_scope.md rule R17). -/
def State.nonceSeq (s : State) : List Byte := s.readRun .nonce Config.nonceLen

/-! ### Register and space updates

Every update of the state goes through one of these, so that no later proof unfolds a record update around a computed value
(Laws/State.lean has one lemma per field for each). -/

/-- `X <- x`. -/
def State.setX (s : State) (x : Word64) : State := { s with regX := x }

/-- `S <- v`. -/
def State.setS (s : State) (v : Word64) : State := { s with regS := v }

/-- PW and PWLEN together. -/
def State.setPw (s : State) (m : Memory) (n : Nat) : State := { s with pw := m, pwlen := n }

/-- NONCE and NLEN together. -/
def State.setNonce (s : State) (m : Memory) (n : Byte) : State := { s with nonce := m, nlen := n }

/-- `NLEN <- n`. -/
def State.setNlen (s : State) (n : Byte) : State := { s with nlen := n }

/-- PAT and PLEN together. -/
def State.setPattern (s : State) (m : Memory) (n : Byte) : State := { s with pat := m, plen := n }

/-- GRID and X together. -/
def State.setGrid (s : State) (m : Memory) (x : Word64) : State := { s with grid := m, regX := x }

/-- `PP <- p`. -/
def State.setPp (s : State) (p : Byte) : State := { s with pp := p }

/-- `PHASE <- p`. -/
def State.setPhase (s : State) (p : Phase) : State := { s with phase := p }

/-- How many bytes have been drawn from the randomness source, and whether an NGEN is held (logs 2, 3). -/
def State.setRng (s : State) (draws : Nat) (wait : Bool) : State := { s with rngDraws := draws, ngenWait := wait }

/-- The words waiting on the command port (log 1). -/
def State.setCmdIn (s : State) (ws : List Word) : State := { s with cmdIn := ws }

/-! ### The output queue (10_state.md rule R46) -/

/-- `OUT.push(b)`: append at the tail; the queue is unbounded (00_scope.md rule R17, log 7). -/
def State.push (s : State) (b : Byte) : State := { s with out := s.out ++ [b] }

/-- Push a run of bytes, first byte first. -/
def State.pushAll (s : State) (bs : List Byte) : State := { s with out := s.out ++ bs }

/-! ### Errors and reset (60_exceptions.md, 70_reset_and_hazards.md) -/

/-- Fault entry, `raise E(info)` (60_exceptions.md rule R240): the key schedule and the nonce count are discarded, PW, S and
OUT are kept, and there is no handler to go to. -/
def raise (e : Err) (info : Word) (s : State) : State :=
  { s with err := e, einfo := info, regX := 0, plen := 0, pp := 0, nlen := 0, phase := .fault }

/-- Every piece of the block's state to its reset value (70_reset_and_hazards.md rule R270, 10_state.md rule R49). What
stands for the host and for the randomness source is no state of the block and is kept; a held NGEN is abandoned (log 9). -/
def resetBlock (s : State) : State :=
  { State.reset with cmdIn := s.cmdIn, rngOn := s.rngOn, rngDraws := s.rngDraws }

/-! ### Acceptance of a command (30_encoding.md rule R100) -/

/-- The "legal in" column of 30_encoding.md rule R94. -/
def legalIn : Instr → Phase → Bool
  | .rst, _ => true
  | .endMsg, p => p == .enc || p == .decn || p == .dec
  | .pwclr, p => p == .idle
  | .pwpush _, p => p == .idle
  | .nclr, p => p == .idle
  | .npush _, p => p == .idle
  | .ngen, p => p == .idle
  | .lds _, p => p == .idle
  | .seed, p => p == .idle
  | .nextb, p => p == .idle
  | .nextp, p => p == .idle
  | .spe, p => p == .idle
  | .spd, p => p == .idle
  | .encm, p => p == .idle
  | .decm, p => p == .idle
  | .encb _, p => p == .enc
  | .decb _, p => p == .decn || p == .dec

/-- Lines 1, 3 and 4 of `accept(W)` for a word that decodes to `i`, not RST (30_encoding.md rule R100): in FAULT the word is
discarded; out of its legal phases it raises IllegalCommand with the word (60_exceptions.md rule R238), which is
`encode i` (log 12); else `body` performs it. -/
def accept (i : Instr) (body : State → State) (s : State) : Host.Outcome State Fault Refusal :=
  .next (if s.phase = .fault then s
    else if legalIn i s.phase = true then body s
    else raise .illegalCommand (encode i) s)

/-- Lines 1 and 2 of `accept(W)` for a word that is no command (30_encoding.md rules R96, R100). -/
def illegalWord (w : Word) (s : State) : State :=
  if s.phase = .fault then s else raise .illegalCommand w s

end Sys2Proof.Machine
end

