-- ==== Sys2Proof/Machine/Operands.lean ====
section
/-! DEFINITION. The one operand form, the byte immediate (30_encoding.md rule R93), and the five access forms of the
micro-operations (20_memory.md rule R71). -/

namespace Sys2Proof.Machine

/-- The immediate as it enters 64-bit arithmetic: not sign-extended, not scaled (30_encoding.md rule R93). -/
def immTo64 (imm8 : Byte) : Word64 := imm8.setWidth 64

/-- A byte or an 8-bit register as it is recorded in EINFO: zero-extended (60_exceptions.md rule R238). -/
def byteToInfo (b : Byte) : Word := b.setWidth 16

/-- A length as it is recorded in EINFO: `PWLEN & 0xFFFF` (60_exceptions.md rule R238). -/
def natToInfo (n : Nat) : Word := BitVec.ofNat 16 n

/-- The 256 byte values in ascending order: the first pool of 40_prg.md rule R130, and the search order of 43_cipher.md
rule R183. -/
def allBytes : List Byte := (List.range 256).map (BitVec.ofNat 8)

/-- The GRID address of entry `n` of table `k` (20_memory.md rule R61). -/
def gridAddr (k n : Nat) : Nat := 256 * k + n

/-- Direct table lookup: entry `b` of table `t` (20_memory.md rule R71). -/
def gridAt (t b : Byte) (s : State) : Byte := s.readByte .grid (gridAddr t.toNat b.toNat)

/-- Inverse table lookup: the first `j` of 0, 1, ..., 255 whose entry in table `t` is `b`, if any (20_memory.md rule R71,
43_cipher.md rule R183). -/
def gridIndexOf (t b : Byte) (s : State) : Option Byte := allBytes.find? (fun j => gridAt t j s == b)

/-- `(PP + 1) mod PLEN` as the comparison of 43_cipher.md rule R181. The sum is exact (00_scope.md rule R15) and the
register keeps its low 8 bits (log 14). -/
def ppNext (pp plen : Byte) : Byte := if pp.toNat + 1 = plen.toNat then 0 else pp + 1

/-- Pattern read with post-increment: PAT[PP], then PP moves on (20_memory.md rule R71). -/
def patNext (s : State) : Byte × State :=
  (s.readByte .pat s.pp.toNat, s.setPp (ppNext s.pp s.plen))

/-- Append to NONCE at NLEN, then NLEN + 1 (20_memory.md rule R71). -/
def nonceAppend (b : Byte) (s : State) : State :=
  s.setNonce (s.nonce.write s.nlen.toNat b) (s.nlen + 1)

/-- Append to PW at PWLEN, then PWLEN + 1 (20_memory.md rule R71). -/
def pwAppend (b : Byte) (s : State) : State :=
  s.setPw (s.pw.write s.pwlen b) (s.pwlen + 1)

/-- Remove at index: the entries above move down by one, in order (20_memory.md rule R71, 40_prg.md rule R131). -/
def removeAt (pool : List Byte) (p : Nat) : List Byte := pool.eraseIdx p

end Sys2Proof.Machine
end

