-- ==== Sys2Proof/Machine/Control.lean ====
section
/-! DEFINITION. The control commands RST and END (45_control.md). -/

namespace Sys2Proof.Machine

/-- RST (45_control.md rule R221): performed in every phase, FAULT included, with the effect of the reset input
(70_reset_and_hazards.md rule R270). It cannot fault. -/
def execRst (s : State) : Host.Outcome State Fault Refusal := .next (resetBlock s)

/-- END's effect: TruncatedCiphertext in phase DECN, else the key schedule and the nonce count are discarded (45_control.md
rule R222, 10_state.md rule R35). -/
def endPass (s : State) : State :=
  if s.phase = .decn then raise .truncatedCiphertext (byteToInfo s.nlen) s
  else { s with regX := 0, plen := 0, pp := 0, nlen := 0, phase := .idle }

/-- END (45_control.md rule R222). -/
def execEndMsg (s : State) : Host.Outcome State Fault Refusal :=
  accept .endMsg endPass s

end Sys2Proof.Machine
end

