-- ==== Sys2Proof/Machine/Prg.lean ====
section
/-! DEFINITION. The pseudo-random generator engine (40_prg.md): the micro-operations `prg_seed`, `prg_next` and
`next_perm`, and the commands LDS, SEED, NEXTB and NEXTP. -/

namespace Sys2Proof.Machine

/-! ### The micro-operations -/

/-- `prg_seed(s)`: X <- s & MASK64; nothing is drawn (40_prg.md rule R121). -/
def prgSeed (n : Nat) (s : State) : State := s.setX (BitVec.ofNat 64 n)

/-- The new state of one draw: three xor-shift steps, each on the value before it (40_prg.md rule R122). Left shifts lose the
bits past bit 63, the right shift is logical (rule R123). -/
def prgStep (x : Word64) : Word64 :=
  let a := x ^^^ (x <<< 12)
  let b := a ^^^ (a >>> 25)
  b ^^^ (b <<< 27)

/-- The byte of one draw, from the NEW state: bits 39..32 of the product modulo 2^64 (40_prg.md rules R122, R123). -/
def prgByte (x : Word64) : Byte := (x * Config.multiplier).extractLsb' 32 8

/-- `prg_next()`: one draw (40_prg.md rule R122). -/
def draw (s : State) : Byte × State :=
  (prgByte (prgStep s.regX), s.setX (prgStep s.regX))

/-- The loop of `next_perm` (40_prg.md rule R130) on the generator state alone: while the pool is not empty, one draw, the
entry at position `r mod PN` is appended to the output and removed. The first argument bounds the number of draws and is
the pool's length; an empty pool ends the loop, so the modulus is never 0 (rule R133). -/
def permLoop : Nat → List Byte → Word64 → List Byte × Word64
  | 0, _, x => ([], x)
  | n + 1, pool, x =>
    let x' := prgStep x
    let p := (prgByte x').toNat % pool.length
    match pool[p]? with
    | none => ([], x)
    | some v =>
      let rest := permLoop n (removeAt pool p) x'
      (v :: rest.1, rest.2)

/-- `next_perm()` from generator state `x`: PERM and the new X, 256 draws (40_prg.md rules R130, R132). -/
def nextPerm (x : Word64) : List Byte × Word64 := permLoop Config.tableLen allBytes x

/-! ### The commands -/

/-- `S <- ((S << 8) & MASK64) + imm8` (40_prg.md rule R140). -/
def loadSeedByte (imm8 : Byte) (s : State) : State := s.setS ((s.regS <<< 8) + immTo64 imm8)

/-- LDS (40_prg.md rule R140). -/
def execLds (imm8 : Byte) (s : State) : Host.Outcome State Fault Refusal :=
  accept (.lds imm8) (loadSeedByte imm8) s

/-- SEED (40_prg.md rule R141): `prg_seed(S)`, S unchanged. -/
def execSeed (s : State) : Host.Outcome State Fault Refusal :=
  accept .seed (fun s => prgSeed s.regS.toNat s) s

/-- Draw a byte and put it out. -/
def putDraw (s : State) : State :=
  let r := draw s
  r.2.push r.1

/-- NEXTB (40_prg.md rule R142). -/
def execNextb (s : State) : Host.Outcome State Fault Refusal :=
  accept .nextb putDraw s

/-- Build one permutation and put it out, entry 0 first; GRID is not written. -/
def putPerm (s : State) : State :=
  let r := nextPerm s.regX
  (s.setX r.2).pushAll r.1

/-- NEXTP (40_prg.md rule R143). -/
def execNextp (s : State) : Host.Outcome State Fault Refusal :=
  accept .nextp putPerm s

end Sys2Proof.Machine
end

