-- ==== Sys2Proof/Machine/KeyDeriv.lean ====
section
/-! DEFINITION. The hash-to-seed-and-pattern extractor (41_keyderiv.md): the micro-operation `kdf`, and the commands PWCLR
and PWPUSH. -/

namespace Sys2Proof.Machine

/-- The seed: the first four digest bytes as a big-endian 32-bit number (41_keyderiv.md rule R153, 20_memory.md rule R68). -/
def seedOf (dg : List Byte) : Nat :=
  (dg.getD 0 0).toNat * 2 ^ 24 + (dg.getD 1 0).toNat * 2 ^ 16 + (dg.getD 2 0).toNat * 2 ^ 8 + (dg.getD 3 0).toNat

/-- `truncate_length`: the addition before the shift, 128..255 (41_keyderiv.md rule R154). -/
def truncateLength (r : Byte) : Nat := (Config.truncBase + r.toNat) >>> 1

/-- `min(T, HLEN)`: the digest offset at which the pattern ends (41_keyderiv.md rule R155). -/
def patternEnd (hlen : Nat) (r : Byte) : Nat := min (truncateLength r) hlen

/-- The pattern: the digest bytes from offset 4 up to `min(T, HLEN)`, that one left out (41_keyderiv.md rule R155). -/
def patternOf (dg : List Byte) (e : Nat) : List Byte := (dg.take e).drop Config.patOff

/-- `kdf(msg)` (41_keyderiv.md rule R152): X seeded and one draw on, PAT and PLEN set; GRID, PP, PHASE, NONCE and PW are
not touched. -/
def kdf (P : Config.Params) (msg : List Byte) (s : State) : State :=
  let dg := (P.hash msg).toList
  let r := draw (prgSeed (seedOf dg) s)
  let e := patternEnd P.hlen r.1
  r.2.setPattern (r.2.pat.writeBytes 0 (patternOf dg e)) (BitVec.ofNat 8 (e - Config.patOff))

/-- PWCLR (41_keyderiv.md rule R160): the old bytes are not erased, and cannot be read. -/
def execPwclr (s : State) : Host.Outcome State Fault Refusal :=
  accept .pwclr (fun s => s.setPw s.pw 0) s

/-- Append a password byte, or raise PasswordOverflow when the buffer is full (41_keyderiv.md rule R161). -/
def pwPush (P : Config.Params) (imm8 : Byte) (s : State) : State :=
  if P.pwMax = some s.pwlen then raise .passwordOverflow (natToInfo s.pwlen) s else pwAppend imm8 s

/-- PWPUSH of a block with the parameters `P` (41_keyderiv.md rule R161). -/
def execPwpushWith (P : Config.Params) (imm8 : Byte) (s : State) : Host.Outcome State Fault Refusal :=
  accept (.pwpush imm8) (pwPush P imm8) s

/-- PWPUSH (41_keyderiv.md rule R161). -/
def execPwpush (imm8 : Byte) (s : State) : Host.Outcome State Fault Refusal := execPwpushWith Config.params imm8 s

end Sys2Proof.Machine
end

