-- ==== Sys2Proof/Machine/GridBuilder.lean ====
section
/-! DEFINITION. The permutation-table builder (42_gridbuilder.md): the micro-operations `grid_build` and `derive`. The file
has no command: a grid is built only inside a start command or the re-derivation. -/

namespace Sys2Proof.Machine

/-- One table: `next_perm()` from the generator state, written as table `k` of GRID (42_gridbuilder.md rule R171). The pair is
GRID and X. -/
def addTable (k : Nat) (gx : Memory × Word64) : Memory × Word64 :=
  (gx.1.writeBytes (gridAddr k 0) (nextPerm gx.2).1, (nextPerm gx.2).2)

/-- The loop of `grid_build` (42_gridbuilder.md rule R171): `n` tables from table `k` on, in ascending order, each drawn from
the state the one before left. -/
def gridLoop : Nat → Nat → Memory × Word64 → Memory × Word64
  | 0, _, gx => gx
  | n + 1, k, gx => gridLoop n (k + 1) (addTable k gx)

/-- `grid_build()`: 256 tables from the generator as it stands (42_gridbuilder.md rules R170, R171, R176). -/
def gridBuild (s : State) : State :=
  let r := gridLoop Config.numTables 0 (s.grid, s.regX)
  s.setGrid r.1 r.2

/-- `derive(msg)`: a whole key schedule (42_gridbuilder.md rule R172). -/
def derive (P : Config.Params) (msg : List Byte) (s : State) : State :=
  (gridBuild (kdf P msg s)).setPp 0

end Sys2Proof.Machine
end

