-- ==== Sys2Proof/Machine/Cipher.lean ====
section
/-! DEFINITION. The byte-substitution cipher (43_cipher.md): the micro-operations `table_select`, `enc_byte` and
`dec_byte`, and the commands SPE, SPD and ENCB. DECB, whose effect in phase DECN is of 44_nonce_message.md, is in
Machine/Message.lean. -/

namespace Sys2Proof.Machine

/-- `table_select()`: one fresh draw, the next pattern byte added modulo 256, PP moved on (43_cipher.md rules R181, R187). -/
def tableSelect (s : State) : Byte × State :=
  let r := draw s
  let p := patNext r.2
  (p.1 + r.1, p.2)

/-- `enc_byte(b)`: direct lookup (43_cipher.md rule R182). -/
def encByte (b : Byte) (s : State) : Byte × State :=
  let t := tableSelect s
  (gridAt t.1 b t.2, t.2)

/-- `dec_byte(b)`: inverse lookup; none where no entry of the table is `b`, the case that raises DecodeError (43_cipher.md
rule R183). The draw and the step of PP have happened in either case. -/
def decByte (b : Byte) (s : State) : Option Byte × State :=
  let t := tableSelect s
  (gridIndexOf t.1 b t.2, t.2)

/-- A derivation from the password alone, then a phase (43_cipher.md rules R190, R191). -/
def startPass (P : Config.Params) (p : Phase) (s : State) : State :=
  (derive P s.pwSeq s).setPhase p

/-- SPE of a block with the parameters `P` (43_cipher.md rule R190). -/
def execSpeWith (P : Config.Params) (s : State) : Host.Outcome State Fault Refusal :=
  accept .spe (startPass P .enc) s

/-- SPE (43_cipher.md rule R190). -/
def execSpe (s : State) : Host.Outcome State Fault Refusal := execSpeWith Config.params s

/-- SPD of a block with the parameters `P` (43_cipher.md rule R191). -/
def execSpdWith (P : Config.Params) (s : State) : Host.Outcome State Fault Refusal :=
  accept .spd (startPass P .dec) s

/-- SPD (43_cipher.md rule R191). -/
def execSpd (s : State) : Host.Outcome State Fault Refusal := execSpdWith Config.params s

/-- Encipher one byte and put it out. -/
def putEnc (b : Byte) (s : State) : State :=
  let c := encByte b s
  c.2.push c.1

/-- ENCB (43_cipher.md rule R192). -/
def execEncb (imm8 : Byte) (s : State) : Host.Outcome State Fault Refusal :=
  accept (.encb imm8) (putEnc imm8) s

/-- Decipher one byte and put it out, or raise DecodeError with the byte (43_cipher.md rule R193). -/
def putDec (b : Byte) (s : State) : State :=
  let d := decByte b s
  match d.1 with
  | some j => d.2.push j
  | none => raise .decodeError (byteToInfo b) d.2

end Sys2Proof.Machine
end

