-- ==== Sys2Proof/Machine/Message.lean ====
section
/-! DEFINITION. The nonce encryptor and the per-message re-derivation (44_nonce_message.md): the commands NCLR, NPUSH, NGEN,
ENCM, DECM, and DECB, which in phase DEC puts a plaintext byte out (43_cipher.md rule R193) and in phase DECN collects the
nonce (rule R207). -/

namespace Sys2Proof.Machine

/-! ### Loading the nonce -/

/-- NCLR (44_nonce_message.md rule R200). -/
def execNclr (s : State) : Host.Outcome State Fault Refusal :=
  accept .nclr (fun s => s.setNlen 0) s

/-- Append a nonce byte; past 128 the byte is dropped and NLEN saturates at 129 (44_nonce_message.md rule R201). -/
def noncePush (imm8 : Byte) (s : State) : State :=
  if s.nlen.toNat < Config.nonceLen then nonceAppend imm8 s else s.setNlen 129

/-- NPUSH (44_nonce_message.md rule R201). -/
def execNpush (imm8 : Byte) (s : State) : Host.Outcome State Fault Refusal :=
  accept (.npush imm8) (noncePush imm8) s

/-- `draw_bytes(128)`: the next 128 free bytes of the randomness source (00_scope.md rule R12, log 3). -/
def drawBytes (s : State) : List Byte :=
  (List.range Config.nonceLen).map (fun i => Config.rngByte (s.rngDraws + i))

/-- Fill NONCE with given bytes and set NLEN to 128, whatever it was (44_nonce_message.md rule R202). -/
def nonceFill (rnd : List Byte) (s : State) : State :=
  s.setNonce (s.nonce.writeBytes 0 rnd) 128

/-- NGEN's effect: the drawn bytes fill NONCE; while the source does not deliver, NGEN is held and nothing of the block
changes (44_nonce_message.md rule R202, 10_state.md rule R47, log 2). -/
def nonceDraw (s : State) : State :=
  if s.rngOn then
    (nonceFill (drawBytes s) s).setRng (s.rngDraws + Config.nonceLen) false
  else s.setRng s.rngDraws true

/-- NGEN (44_nonce_message.md rule R202). -/
def execNgen (s : State) : Host.Outcome State Fault Refusal :=
  accept .ngen nonceDraw s

/-! ### Messages -/

/-- The re-derivation from `PW ‖ NONCE`, password first (41_keyderiv.md rule R159, 20_memory.md rule R70), then a phase. -/
def rederive (P : Config.Params) (p : Phase) (s : State) : State :=
  (derive P (s.pwSeq ++ s.nonceSeq) s).setPhase p

/-- Encipher a run of bytes in order, each put out. -/
def putEncAll : List Byte → State → State
  | [], s => s
  | b :: bs, s => putEncAll bs (putEnc b s)

/-- ENCM's effect: the nonce length first, then the nonce pass, then the re-derivation (44_nonce_message.md rules R204,
R205). -/
def encMessage (P : Config.Params) (s : State) : State :=
  if s.nlen.toNat = Config.nonceLen then
    let s1 := derive P s.pwSeq s
    rederive P .enc (putEncAll s1.nonceSeq s1)
  else raise .invalidNonceLength (byteToInfo s.nlen) s

/-- ENCM of a block with the parameters `P` (44_nonce_message.md rule R204). -/
def execEncmWith (P : Config.Params) (s : State) : Host.Outcome State Fault Refusal :=
  accept .encm (encMessage P) s

/-- ENCM (44_nonce_message.md rule R204). -/
def execEncm (s : State) : Host.Outcome State Fault Refusal := execEncmWith Config.params s

/-- DECM's effect: a loaded nonce is dropped (44_nonce_message.md rule R206). -/
def decMessage (P : Config.Params) (s : State) : State := (startPass P .decn s).setNlen 0

/-- DECM of a block with the parameters `P` (44_nonce_message.md rule R206). -/
def execDecmWith (P : Config.Params) (s : State) : Host.Outcome State Fault Refusal :=
  accept .decm (decMessage P) s

/-- DECM (44_nonce_message.md rule R206). -/
def execDecm (s : State) : Host.Outcome State Fault Refusal := execDecmWith Config.params s

/-- DECB in phase DECN (44_nonce_message.md rule R207): the deciphered byte is kept in NONCE, and the 128th one triggers the
re-derivation at once (rule R208). -/
def nonceDec (P : Config.Params) (b : Byte) (s : State) : State :=
  let d := decByte b s
  match d.1 with
  | some j =>
    let s' := nonceAppend j d.2
    if s'.nlen.toNat = Config.nonceLen then rederive P .dec s' else s'
  | none => raise .decodeError (byteToInfo b) d.2

/-- DECB's effect: PHASE selects the behaviour (43_cipher.md rule R193, 44_nonce_message.md rule R207). -/
def decipher (P : Config.Params) (b : Byte) (s : State) : State :=
  if s.phase = .decn then nonceDec P b s else putDec b s

/-- DECB of a block with the parameters `P` (43_cipher.md rule R193, 44_nonce_message.md rule R207). -/
def execDecbWith (P : Config.Params) (imm8 : Byte) (s : State) : Host.Outcome State Fault Refusal :=
  accept (.decb imm8) (decipher P imm8) s

/-- DECB (43_cipher.md rule R193, 44_nonce_message.md rule R207). -/
def execDecb (imm8 : Byte) (s : State) : Host.Outcome State Fault Refusal := execDecbWith Config.params imm8 s

end Sys2Proof.Machine
end

