-- ==== Sys2Proof/Machine/Dispatch.lean ====
section
/-! DEFINITION. One arm per command: each calls its own meaning. -/

namespace Sys2Proof.Machine

def exec (i : Instr) (s : State) : Host.Outcome State Fault Refusal :=
  match i with
  | .rst => Sys2Proof.Machine.execRst s
  | .endMsg => Sys2Proof.Machine.execEndMsg s
  | .pwclr => Sys2Proof.Machine.execPwclr s
  | .pwpush imm8 => Sys2Proof.Machine.execPwpush imm8 s
  | .nclr => Sys2Proof.Machine.execNclr s
  | .npush imm8 => Sys2Proof.Machine.execNpush imm8 s
  | .ngen => Sys2Proof.Machine.execNgen s
  | .lds imm8 => Sys2Proof.Machine.execLds imm8 s
  | .seed => Sys2Proof.Machine.execSeed s
  | .nextb => Sys2Proof.Machine.execNextb s
  | .nextp => Sys2Proof.Machine.execNextp s
  | .spe => Sys2Proof.Machine.execSpe s
  | .spd => Sys2Proof.Machine.execSpd s
  | .encm => Sys2Proof.Machine.execEncm s
  | .decm => Sys2Proof.Machine.execDecm s
  | .encb imm8 => Sys2Proof.Machine.execEncb imm8 s
  | .decb imm8 => Sys2Proof.Machine.execDecb imm8 s

end Sys2Proof.Machine
end

