-- ==== Sys2Proof/Machine/Flags.lean ====
section
/-! DEFINITION. SMC-CORE has no condition codes and no command sets or tests a flag (10_state.md rule R32). What stands in
their place is the status port: the codes of PHASE and ERR, EINFO, and the two predicates a host computes from them. -/

namespace Sys2Proof.Machine

/-- `stat_phase[2:0]`: the value of PHASE (10_state.md rule R29). -/
def Phase.code : Phase → BitVec 3
  | .idle => 0
  | .enc => 1
  | .decn => 2
  | .dec => 3
  | .fault => 7

/-- `stat_err[2:0]`: the code of ERR (60_exceptions.md rule R231). -/
def Err.code : Err → BitVec 3
  | .none => 0
  | .invalidNonceLength => 1
  | .truncatedCiphertext => 2
  | .decodeError => 3
  | .illegalCommand => 4
  | .passwordOverflow => 5

/-- What the status port shows (10_state.md rule R32). -/
structure Status where
  statPhase : BitVec 3
  statErr : BitVec 3
  statEinfo : Word
  deriving DecidableEq, Repr

/-- The status port of a state (10_state.md rule R32). -/
def State.status (s : State) : Status :=
  { statPhase := s.phase.code, statErr := s.err.code, statEinfo := s.einfo }

/-- *faulted*: `stat_phase = 7` (10_state.md rule R32). -/
def Status.faulted (t : Status) : Bool := t.statPhase == 7

/-- *idle*: `stat_phase = 0` (10_state.md rule R32). -/
def Status.idle (t : Status) : Bool := t.statPhase == 0

end Sys2Proof.Machine
end

