-- ==== Sys2Proof/Machine/Ports.lean ====
section
/-! DEFINITION. The ports: what the command port gives the core, and the actions of the two agents outside the block
(00_scope.md rule R10, 20_memory.md rules R63, R67). Each action stands between two steps of the core (00_scope.md rule
R11, log 9). -/

namespace Sys2Proof.Machine

/-- The state with the oldest waiting word taken from the command port (10_state.md rule R21). -/
def takeWord (s : State) : State := s.setCmdIn s.cmdIn.tail

/-- What stands on the command port for the next step. -/
inductive Fetched where
  /-- A held NGEN goes on first (10_state.md rule R47, log 2). -/
  | resume
  /-- No word is waiting (70_reset_and_hazards.md rule R271, log 1). -/
  | wait
  /-- The oldest word is a command. -/
  | command (i : Instr)
  /-- The oldest word is no command (30_encoding.md rule R96). -/
  | illegal (w : Word)
  deriving DecidableEq, Repr

/-- Read the command port: words are taken one at a time in the order issued, and none while an NGEN is held (10_state.md
rules R21, R47). -/
def fetch (s : State) : Fetched :=
  if s.ngenWait then .resume
  else
    match s.cmdIn with
    | [] => .wait
    | w :: _ =>
      match decode w with
      | .ok i => .command i
      | .error _ => .illegal w

/-- One step of the core sequencer, given how a command is performed: a held NGEN goes on; with no word waiting the block
waits; otherwise the oldest word is taken and performed, or raises IllegalCommand (00_scope.md rule R11, 30_encoding.md rule
R100). -/
def stepVia (ex : Instr → State → Host.Outcome State Fault Refusal) (s : State) : Host.Outcome State Fault Refusal :=
  match fetch s with
  | .resume => .next (nonceDraw s)
  | .wait => .next s
  | .command i => ex i (takeWord s)
  | .illegal w => .next (illegalWord w (takeWord s))

/-- A word put in front of the command port, so that the core takes it next: no NGEN is held (log 1). -/
def placeWord (w : Word) (s : State) : State := (s.setCmdIn (w :: s.cmdIn)).setRng s.rngDraws false

/-- What the host, or the randomness source, does to the block. -/
inductive HostAction where
  /-- The host puts a word on the command port, after those it has put there before. -/
  | issue (w : Word)
  /-- The host takes a byte from the output port. -/
  | take
  /-- The host reads the status port. -/
  | readStatus
  /-- The host asserts the reset input (70_reset_and_hazards.md rule R270). -/
  | assertReset
  /-- The randomness source begins or ceases to deliver (10_state.md rule R47). -/
  | setRng (on : Bool)
  deriving DecidableEq, Repr

/-- What the action gives back. -/
inductive HostReply where
  | nothing
  /-- The head of OUT; none when the queue is empty (93_implementation_defined.md U19). -/
  | byte (b : Option Byte)
  | status (t : Status)
  deriving DecidableEq, Repr

/-- One action. Taking a byte removes the head of OUT; reading the status port changes nothing (20_memory.md rule R67); the
reset input has RST's effect (70_reset_and_hazards.md rule R270). -/
def hostAct (a : HostAction) (s : State) : HostReply × State :=
  match a with
  | .issue w => (.nothing, s.setCmdIn (s.cmdIn ++ [w]))
  | .take => (.byte s.out.head?, { s with out := s.out.tail })
  | .readStatus => (.status s.status, s)
  | .assertReset => (.nothing, resetBlock s)
  | .setRng on => (.nothing, { s with rngOn := on })

end Sys2Proof.Machine
end

