-- ==== Sys2Proof/Machine/Step.lean ====
section
/-! DEFINITION. One step of the core sequencer: the whole execution of one command word (00_scope.md rule R11). -/

namespace Sys2Proof.Machine

/-- One step of this hardware: `stepVia` with its commands (30_encoding.md rule R100). -/
def step (s : State) : Host.Outcome State Fault Refusal := stepVia exec s

/-- The host's entry: the word of `nbits` bits stored where `step` takes its next command, the front of the command port
(log 1). -/
def State.withFetchWord (s : State) (nbits w : Nat) : State :=
  placeWord (BitVec.ofNat 16 (w % 2 ^ nbits)) s

end Sys2Proof.Machine
end

