-- ==== Sys2Proof/Machine/Parametric.lean ====
section
/-! DEFINITION. The whole machine with the open parameters of 00_scope.md rules R8 and R9 as an argument: H, any HLEN from 5
on, and PW_MAX, finite or not. Each arm is the meaning that `exec` has at this hardware's `Config.params`. -/

namespace Sys2Proof.Machine

/-- `exec` of a block with the parameters `P`: the commands that depend on no parameter are those of `exec` itself. -/
def execWith (P : Config.Params) (i : Instr) (s : State) : Host.Outcome State Fault Refusal :=
  match i with
  | .rst => execRst s
  | .endMsg => execEndMsg s
  | .pwclr => execPwclr s
  | .pwpush imm8 => execPwpushWith P imm8 s
  | .nclr => execNclr s
  | .npush imm8 => execNpush imm8 s
  | .ngen => execNgen s
  | .lds imm8 => execLds imm8 s
  | .seed => execSeed s
  | .nextb => execNextb s
  | .nextp => execNextp s
  | .spe => execSpeWith P s
  | .spd => execSpdWith P s
  | .encm => execEncmWith P s
  | .decm => execDecmWith P s
  | .encb imm8 => execEncb imm8 s
  | .decb imm8 => execDecbWith P imm8 s

/-- One step of a block with the parameters `P`. -/
def stepWith (P : Config.Params) (s : State) : Host.Outcome State Fault Refusal := stepVia (execWith P) s

end Sys2Proof.Machine
end

