-- ==== Sys2Proof/Machine/Runs.lean ====
section
/-! DEFINITION. Sequences of commands, each performed to its end, with the host and the randomness source acting between them
(00_scope.md rules R10, R11, log 17), and the result of a message (rule R13). -/

namespace Sys2Proof.Machine

/-- What happens next to a block: the core performs a command, or the host or the randomness source acts. -/
inductive Event where
  | command (i : Instr)
  | host (a : HostAction)
  deriving DecidableEq, Repr

/-- The end of the command in progress. A held NGEN is completed when the source delivers, and has no end while it does not:
the core is held and performs nothing more (10_state.md rule R47, log 2). -/
def finish (s : State) : Option State :=
  if s.ngenWait then (if s.rngOn then some (nonceDraw s) else none) else some s

/-- The bytes one command appended to OUT: those past what stood there. RST empties OUT and appends none (10_state.md rule
R46). -/
def bytesPushed (s t : State) : List Byte := t.out.drop s.out.length

/-- A sequence of events in order: each command is performed to its end before the next is taken, and the core's bytes are
noted as it appends them, whatever the host takes meanwhile. None when a command never ends, a held NGEN without its source
(00_scope.md rule R11). -/
def perform (P : Config.Params) : List Event → State → Option (State × List Byte)
  | [], s => (finish s).map (fun t => (t, []))
  | .host a :: es, s => perform P es (hostAct a s).2
  | .command i :: es, s =>
    match finish s with
    | none => none
    | some u =>
      match execWith P i u with
      | .next t => (perform P es t).map (fun r => (r.1, bytesPushed u t ++ r.2))
      | .fault _ => none
      | .refused _ => none

/-- The commands of a sequence of events, in order. -/
def commandsOf : List Event → List Instr
  | [] => []
  | .command i :: es => i :: commandsOf es
  | .host _ :: es => commandsOf es

/-- The commands that start a message (00_scope.md rule R13). -/
def startsMessage : Instr → Bool
  | .spe => true
  | .spd => true
  | .encm => true
  | .decm => true
  | .rst => false
  | .endMsg => false
  | .pwclr => false
  | .pwpush _ => false
  | .nclr => false
  | .npush _ => false
  | .ngen => false
  | .lds _ => false
  | .seed => false
  | .nextb => false
  | .nextp => false
  | .encb _ => false
  | .decb _ => false

/-- What can stand between a start command and its END: any event but END itself and a reset. -/
def insideMessage (e : Event) : Bool := e != .command .endMsg && e != .command .rst && e != .host .assertReset

/-- The result of a message: the bytes the core appends to OUT from the start command to END, when END is performed and
leaves PHASE = IDLE and ERR = 0, and none otherwise; a message that ends in FAULT has no result, and what the host takes
from OUT meanwhile is part of the result (00_scope.md rule R13). -/
def messageResult (P : Config.Params) (start : Instr) (body : List Event) (s : State) : Option (List Byte) :=
  if startsMessage start && body.all insideMessage then
    match perform P (.command start :: body ++ [.command .endMsg]) s with
    | some (t, bytes) => if t.phase = .idle ∧ t.err = .none then some bytes else none
    | none => none
  else none

end Sys2Proof.Machine
end

