-- ==== Sys2Proof/Safety.lean ====
section
/-! DEFINITION. What counts as a safe state, in the terms the claims use: the invariant of a block with any parameters, the
whole acceptance of a command, and the key schedule of a message in closed form. -/

namespace Sys2Proof.Machine

/-- The phases in which a key schedule is live (10_state.md rule R29). -/
def Phase.live : Phase → Bool
  | .idle => false
  | .enc => true
  | .decn => true
  | .dec => true
  | .fault => false

/-- A live key schedule: PLEN is between 1 and 251 (10_state.md rule R26), PP is below it (rule R28), the pattern bytes have
been written, and every table of GRID is a bijection of the 256 byte values, all written (42_gridbuilder.md rule R174,
10_state.md rule R34). -/
structure ScheduleLive (s : State) : Prop where
  plen : 1 ≤ s.plen.toNat ∧ s.plen.toNat ≤ 251
  pp : s.pp.toNat < s.plen.toNat
  pattern : ∀ a, a < s.plen.toNat → (s.pat.read? a).isSome = true
  tables : ∀ k, k < 256 → ∃ row : List Byte, row.Perm allBytes ∧
    ∀ n, n < 256 → s.grid.read? (gridAddr k n) = row[n]?

/-- The four byte spaces are in canonical form and inside their sizes (20_memory.md rules R60, R66). -/
structure SpacesOk (s : State) : Prop where
  pwWf : s.pw.wf = true
  nonceWf : s.nonce.wf = true
  patWf : s.pat.wf = true
  gridWf : s.grid.wf = true
  nonceIn : ∀ c ∈ s.nonce, c.1 < 128
  patIn : ∀ c ∈ s.pat, c.1 < 256
  gridIn : ∀ c ∈ s.grid, c.1 < 65536

/-- The invariant of a block with the parameters `P`. Each clause is what the spec says of the field it speaks of. -/
structure State.Inv (P : Config.Params) (s : State) : Prop where
  /-- Spaces in canonical form and in range (20_memory.md rule R66). -/
  spaces : SpacesOk s
  /-- PW[0 .. PWLEN-1] have been written (10_state.md rule R24). -/
  pwWritten : ∀ a, a < s.pwlen → (s.pw.read? a).isSome = true
  /-- PWLEN is at most PW_MAX and no byte of PW stands at or above it, when PW_MAX is finite (rule R24, 20_memory.md rule
  R66). -/
  pwBound : ∀ n, P.pwMax = some n → s.pwlen ≤ n ∧ ∀ c ∈ s.pw, c.1 < n
  /-- NONCE[0 .. min(NLEN,128)-1] have been written (rule R25). -/
  nonceWritten : ∀ a, a < 128 → a < s.nlen.toNat → (s.nonce.read? a).isSome = true
  /-- NLEN is 0..129 (rule R25). -/
  nlenMax : s.nlen.toNat ≤ 129
  /-- ERR is 0 exactly when PHASE is not FAULT (rule R30). -/
  errFault : s.err = .none ↔ s.phase ≠ .fault
  /-- EINFO is written by fault entry and reset only (rule R31). -/
  einfoZero : s.phase ≠ .fault → s.einfo = 0
  /-- PLEN = 0 whenever PHASE is IDLE or FAULT (rule R26), and PP = 0 with it (rule R35). -/
  quiet : s.phase.live = false → s.plen = 0 ∧ s.pp = 0
  /-- Fault entry clears X and NLEN (60_exceptions.md rule R240). -/
  faultClear : s.phase = .fault → s.regX = 0 ∧ s.nlen = 0
  /-- The key schedule is live in ENC, DECN and DEC (10_state.md rules R26, R34). -/
  schedule : s.phase.live = true → ScheduleLive s
  /-- PLEN is then min(T, HLEN) - 4 for a T of 128..255: always 60 when HLEN = 64 (10_state.md rule R26, 41_keyderiv.md
  rules R154, R156). -/
  length : s.phase.live = true → ∃ T, 128 ≤ T ∧ T ≤ 255 ∧ s.plen.toNat = min T P.hlen - 4
  /-- Fewer than 128 nonce bytes have come in DECN (44_nonce_message.md rule R207). -/
  decnCount : s.phase = .decn → s.nlen.toNat < 128
  /-- DecodeError cannot be raised (43_cipher.md rule R185), nor PasswordOverflow with PW_MAX unbounded (60_exceptions.md
  rule R237). -/
  errReach : s.err ≠ .decodeError ∧ (P.pwMax = none → s.err ≠ .passwordOverflow)
  /-- The model's own: an NGEN is held in IDLE only (log 2). -/
  held : s.ngenWait = true → s.phase = .idle

/-- The whole acceptance, by `ex`, of a command that is legal in IDLE only and has the word `w`: in IDLE it answers the state
`t`, in FAULT it is discarded, and in the other phases it raises IllegalCommand(w) (30_encoding.md rules R94, R100). -/
def IdleCommand (ex : Instr → State → Host.Outcome State Fault Refusal) (i : Instr) (w : Word) (s t : State) : Prop :=
  encode i = w ∧
  (s.phase = .idle → ex i s = .next t) ∧
  (s.phase = .fault → ex i s = .next s) ∧
  (s.phase ≠ .idle → s.phase ≠ .fault → ex i s = .next (raise .illegalCommand w s))

/-- The generator state a derivation starts from: the first four digest bytes, big-endian, zero-extended (41_keyderiv.md
rule R153). -/
def seedState (P : Config.Params) (msg : List Byte) : Word64 :=
  let d := (P.hash msg).toList
  BitVec.ofNat 64 ((d.getD 0 0).toNat * 2 ^ 24 + (d.getD 1 0).toNat * 2 ^ 16 + (d.getD 2 0).toNat * 2 ^ 8
    + (d.getD 3 0).toNat)

/-- The pattern length of a message: `min(T, HLEN) - 4` with T = (256 + r) >> 1 for the first draw `r` (41_keyderiv.md rules
R154, R156). -/
def patternLen (P : Config.Params) (msg : List Byte) : Nat :=
  min ((256 + (prgByte (prgStep (seedState P msg))).toNat) / 2) P.hlen - 4

/-- `t` holds the key schedule of `msg` as a derivation leaves it, in closed form: X is the state 65537 draws after the seed,
PAT the digest bytes from offset 4, GRID[k] the permutation drawn from the state 1 + 256*k draws after the seed, and PP is
0 (42_gridbuilder.md rules R171 to R173, 41_keyderiv.md rules R152 to R155). -/
structure KeyScheduleOf (P : Config.Params) (msg : List Byte) (t : State) : Prop where
  regX : t.regX = prgStep^[65537] (seedState P msg)
  plen : t.plen.toNat = patternLen P msg
  pp : t.pp = 0
  pattern : ∀ j, j < patternLen P msg → t.pat.read? j = (P.hash msg).toList[4 + j]?
  tables : ∀ k n, k < 256 → n < 256 →
    t.grid.read? (256 * k + n) = (nextPerm (prgStep^[1 + 256 * k] (seedState P msg))).1[n]?

/-- From `s` to `t` nothing changed but the key schedule: the five registers and spaces of 10_state.md rule R35, and of PAT
only the entries below the new PLEN, of GRID only its 65536 entries. -/
structure OnlySchedule (s t : State) : Prop where
  fields : t = { s with regX := t.regX, pat := t.pat, plen := t.plen, grid := t.grid, pp := t.pp }
  pat : ∀ a, t.plen.toNat ≤ a → t.readByte .pat a = s.readByte .pat a
  grid : ∀ a, 65536 ≤ a → t.readByte .grid a = s.readByte .grid a

/-- From `s` to `t` nothing changed but the key schedule, derived twice, `k` holding the first one: as `OnlySchedule`, but
each derivation wrote PAT only below its own PLEN (41_keyderiv.md rule R152), so where the first pattern was the longer one its
rest still stands between the new PLEN and the old. -/
structure OnlyTwoSchedules (s k t : State) : Prop where
  fields : t = { s with regX := t.regX, pat := t.pat, plen := t.plen, grid := t.grid, pp := t.pp }
  patLeft : ∀ a, t.plen.toNat ≤ a → a < k.plen.toNat → t.readByte .pat a = k.readByte .pat a
  pat : ∀ a, max k.plen.toNat t.plen.toNat ≤ a → t.readByte .pat a = s.readByte .pat a
  grid : ∀ a, 65536 ≤ a → t.readByte .grid a = s.readByte .grid a

/-- The index of the table the next byte is substituted through: the pattern byte at PP plus the next draw, modulo 256
(43_cipher.md rule R181). -/
def nextTable (s : State) : Byte :=
  BitVec.ofNat 8 ((s.readByte .pat s.pp.toNat).toNat + (prgByte (prgStep s.regX)).toNat)

/-- PP after one byte: 0 when PP + 1 = PLEN, else PP + 1 (43_cipher.md rule R181). -/
def nextPp (s : State) : Byte := if s.pp.toNat + 1 = s.plen.toNat then 0 else s.pp + 1

end Sys2Proof.Machine
end

