-- ==== Sys2Proof/Certificates/Slice0/Obligations.lean ====
section
/-! DEFINITION. The statements about SMC-CORE, one definition each, listed in OBLIGATIONS.json. Each docstring names the rule
of spec/ it comes from. A statement that gives a command's result has as its conclusion that exec answers that next state,
and says by the state it names what the command leaves unchanged. Where a command depends on the open parameters of 00_scope.md
rules R8 and R9 (H, HLEN, PW_MAX), the statement says so of `execWith P` for every `P` as well. -/

open Sys2Proof Sys2Proof.Machine

/-! ### Encoding (30_encoding.md) -/

/-- Decoding the word of a command gives the command back, with every operand byte (rules R94, R98). -/
def Obligations.DecodeOfEncode : Prop :=
  ∀ i : Instr, i.wellFormed = true → decode (encode i) = .ok i

/-- Rule R98: what decode makes of a word depends on its two bytes as the pseudocode says. That the opcode found is the
command's is said through its own opcode, its immediate through its own operand. -/
def Obligations.DecodeFollowsTheRule : Prop :=
  ∀ w : Word,
    (w.toNat / 256 ∈ [0x01, 0x02, 0x10, 0x12, 0x14, 0x21, 0x22, 0x23, 0x30, 0x31, 0x32, 0x33] →
      (w.toNat % 256 = 0 → ∃ i, decode w = .ok i ∧ i.opcode.toNat = w.toNat / 256 ∧ i.operand = none) ∧
      (w.toNat % 256 ≠ 0 → ∃ r, decode w = .error r)) ∧
    (w.toNat / 256 ∈ [0x11, 0x13, 0x20, 0x40, 0x41] →
      ∃ i, decode w = .ok i ∧ i.opcode.toNat = w.toNat / 256 ∧ i.operand = some (BitVec.ofNat 8 w.toNat)) ∧
    (w.toNat / 256 ∉ [0x01, 0x02, 0x10, 0x12, 0x14, 0x21, 0x22, 0x23, 0x30, 0x31, 0x32, 0x33] →
      w.toNat / 256 ∉ [0x11, 0x13, 0x20, 0x40, 0x41] → ∃ r, decode w = .error r)

/-- A word that decodes to a command is that command's word: no second word has the meaning (rules R91, R92, R97). -/
def Obligations.EncodeOfDecode : Prop :=
  ∀ (w : Word) (i : Instr), decode w = .ok i → encode i = w

/-- Rule R95: the count of legal words, format N, format B and together, and of the illegal rest. -/
def Obligations.CountOfLegalWords : Prop :=
  ((List.range 256).map (fun op =>
      (List.range 256).countP (fun imm => (decodeTableWord 16 (256 * op + imm)).isSome))).sum = 1292 ∧
  ((List.range 256).map (fun op =>
      (List.range 256).countP (fun imm => ((decodeTableWord 16 (256 * op + imm)).map Instr.operand) == some none))).sum = 12 ∧
  ((List.range 256).map (fun op =>
      (List.range 256).countP (fun imm => (decodeTableWord 16 (256 * op + imm)).isNone))).sum = 64244

/-- A few words of vector V-DEC-1, each written out from the encoding. -/
def Obligations.DecodesTheVectorWords : Prop :=
  decode 0x0100 = .ok .rst ∧ decode 0x0200 = .ok .endMsg ∧ decode 0x11FF = .ok (.pwpush 0xFF) ∧
  decode 0x137F = .ok (.npush 0x7F) ∧ decode 0x20AB = .ok (.lds 0xAB) ∧ decode 0x3200 = .ok .encm ∧
  decode 0x41B7 = .ok (.decb 0xB7) ∧ decode 0x1401 = .error (.immediateNotZero 0x14 0x01) ∧
  decode 0x4200 = .error (.unassignedOpcode 0x42)

/-! ### Acceptance, errors and reset (30_encoding.md, 60_exceptions.md, 70_reset_and_hazards.md) -/

/-- When no NGEN is held and the oldest waiting word decodes to a well-formed command, a step takes the word from the port
and is exec of that command: for this hardware, and for a block with any parameters, of which this hardware is one. A command
that hashes nothing and pushes no password byte is the same in all of them (00_scope.md rules R8, R9, R11). That words wait
on the port in a queue is the model's (log 1). -/
def Obligations.StepRunsTheDecodedCommand : Prop :=
  (∀ (s : State) (w : Word) (rest : List Word) (i : Instr),
    s.ngenWait = false → s.cmdIn = w :: rest → decode w = .ok i → i.wellFormed = true →
    step s = exec i { s with cmdIn := rest } ∧
    ∀ P : Config.Params, stepWith P s = execWith P i { s with cmdIn := rest }) ∧
  (∀ (i : Instr) (s : State), exec i s = execWith Config.params i s) ∧
  (∀ s : State, step s = stepWith Config.params s) ∧
  ∀ (P : Config.Params) (b : Byte) (s : State),
    ∀ i ∈ [Instr.rst, .endMsg, .pwclr, .nclr, .npush b, .ngen, .lds b, .seed, .nextb, .nextp, .encb b],
      execWith P i s = exec i s

/-- Rule R100: the four lines of accept(W), in their order, for a block with any parameters; the first is the sticky FAULT of
rule R242. The queue of waiting words and the held NGEN are the model's (logs 1, 2). -/
def Obligations.AcceptanceFollowsTheFourLines : Prop :=
  ∀ (P : Config.Params) (s : State) (w : Word) (rest : List Word), s.ngenWait = false → s.cmdIn = w :: rest →
    (s.phase = .fault →
      (w = 0x0100 → stepWith P s = execWith P .rst { s with cmdIn := rest }) ∧
      (w ≠ 0x0100 → stepWith P s = .next { s with cmdIn := rest })) ∧
    (s.phase ≠ .fault →
      (∀ r, decode w = .error r → stepWith P s = .next (raise .illegalCommand w { s with cmdIn := rest })) ∧
      (∀ i, decode w = .ok i → legalIn i s.phase = false →
        stepWith P s = .next (raise .illegalCommand w { s with cmdIn := rest })) ∧
      (∀ i, decode w = .ok i → legalIn i s.phase = true → stepWith P s = execWith P i { s with cmdIn := rest })) ∧
    stepWith Config.params s = step s

/-- The "legal in" column of rule R94, command by command. -/
def Obligations.LegalPhasesOfTheMap : Prop :=
  ∀ (p : Phase) (b : Byte),
    legalIn .rst p = true ∧
    (legalIn .endMsg p = true ↔ p = .enc ∨ p = .decn ∨ p = .dec) ∧
    (∀ i ∈ [Instr.pwclr, .pwpush b, .nclr, .npush b, .ngen, .lds b, .seed, .nextb, .nextp, .spe, .spd, .encm, .decm],
      (legalIn i p = true ↔ p = .idle)) ∧
    (legalIn (.encb b) p = true ↔ p = .enc) ∧
    (legalIn (.decb b) p = true ↔ p = .decn ∨ p = .dec)

/-- Rule R96: a word whose opcode is none of the seventeen, or a format N word with an immediate, raises IllegalCommand with
the word in every phase but FAULT. -/
def Obligations.IllegalWordRaises : Prop :=
  ∀ (s : State) (w : Word) (rest : List Word), s.ngenWait = false → s.cmdIn = w :: rest → s.phase ≠ .fault →
    (w.toNat / 256 ∉ [0x01, 0x02, 0x10, 0x11, 0x12, 0x13, 0x14, 0x20, 0x21, 0x22, 0x23, 0x30, 0x31, 0x32, 0x33, 0x40, 0x41] ∨
      (w.toNat / 256 ∉ [0x11, 0x13, 0x20, 0x40, 0x41] ∧ w.toNat % 256 ≠ 0)) →
    step s = .next { s with
      cmdIn := rest, err := .illegalCommand, einfo := w, regX := 0, plen := 0, pp := 0, nlen := 0, phase := .fault }

/-- Rule R240: fault entry writes ERR, EINFO, X, PLEN, PP, NLEN and PHASE, and nothing else; the status port shows it. -/
def Obligations.FaultEntryWrites : Prop :=
  ∀ (e : Err) (info : Word) (s : State),
    raise e info s = { s with
      err := e, einfo := info, regX := 0, plen := 0, pp := 0, nlen := 0, phase := .fault } ∧
    (raise e info s).status = { statPhase := 7, statErr := e.code, statEinfo := info }

/-- Nothing but RST leaves FAULT (rule R243), for a block with any parameters. -/
def Obligations.OnlyResetLeavesFault : Prop :=
  ∀ (P : Config.Params) (i : Instr) (s t : State), execWith P i s = .next t ∨ exec i s = .next t →
    s.phase = .fault → t.phase ≠ .fault → i = .rst ∧ t.phase = .idle

/-- exec and step answer a next state for every command and in every state, and so they do for a block with any parameters:
nothing stops the machine (rule R245). It does not say that a command completes: an NGEN that is held answers a next state
in which it waits (log 2). That a byte nothing has written reads as a free value is the model's (log 4). -/
def Obligations.ExecAndStepAnswerANextState : Prop :=
  (∀ (i : Instr) (s : State), ∃ t, exec i s = .next t) ∧ (∀ s : State, ∃ t, step s = .next t) ∧
  ∀ P : Config.Params, (∀ (i : Instr) (s : State), ∃ t, execWith P i s = .next t) ∧
    ∀ s : State, ∃ t, stepWith P s = .next t

/-- Rule R49: the registers and the queue after reset. -/
def Obligations.ResetValues : Prop :=
  State.reset.regX = 0 ∧ State.reset.regS = 0 ∧ State.reset.pwlen = 0 ∧ State.reset.nlen = 0 ∧
  State.reset.plen = 0 ∧ State.reset.pp = 0 ∧ State.reset.phase = .idle ∧ State.reset.err = .none ∧
  State.reset.einfo = 0 ∧ State.reset.out = []

/-- RST gives every register its reset value in every phase, cannot fault, and does what the reset input does; its opcode
with an immediate is an illegal word, discarded in FAULT and raising IllegalCommand elsewhere (rule R221). That RST and the
reset input leave the whole state equal rests on the model's choices: unread bytes (log 8), waiting words and source (log 9);
the words at the port and the held NGEN in the last clause are logs 1 and 2. -/
def Obligations.RstResetsTheBlock : Prop :=
  encode .rst = 0x0100 ∧
  (∀ s : State, ∃ t, exec .rst s = .next t ∧
    t.regX = 0 ∧ t.regS = 0 ∧ t.pwlen = 0 ∧ t.nlen = 0 ∧ t.plen = 0 ∧ t.pp = 0 ∧
    t.phase = .idle ∧ t.err = .none ∧ t.einfo = 0 ∧ t.out = [] ∧
    t.pwSeq = [] ∧ (hostAct .assertReset s).2 = t) ∧
  ∀ (imm : Byte) (rest : List Word) (s : State), imm ≠ 0 → s.ngenWait = false →
    s.cmdIn = (0x0100 + imm.setWidth 16) :: rest →
    (s.phase = .fault → step s = .next { s with cmdIn := rest }) ∧
    (s.phase ≠ .fault →
      step s = .next (raise .illegalCommand (0x0100 + imm.setWidth 16) { s with cmdIn := rest }))

/-- Rule R222: END discards the key schedule and the nonce count in ENC and DEC, keeps everything else, and raises
TruncatedCiphertext(NLEN) in DECN and IllegalCommand in IDLE. -/
def Obligations.EndEndsThePass : Prop :=
  encode .endMsg = 0x0200 ∧ ∀ s : State,
    ((s.phase = .enc ∨ s.phase = .dec) →
      exec .endMsg s = .next { s with regX := 0, plen := 0, pp := 0, nlen := 0, phase := .idle }) ∧
    (s.phase = .decn → exec .endMsg s = .next (raise .truncatedCiphertext (s.nlen.setWidth 16) s)) ∧
    (s.phase = .idle → exec .endMsg s = .next (raise .illegalCommand 0x0200 s)) ∧
    (s.phase = .fault → exec .endMsg s = .next s)

/-! ### The password and nonce buffers (41_keyderiv.md, 44_nonce_message.md) -/

/-- Rule R160: PWCLR empties the password buffer. -/
def Obligations.PwclrEmptiesThePassword : Prop :=
  ∀ s : State, IdleCommand exec .pwclr 0x1000 s { s with pwlen := 0 } ∧
    (s.phase = .idle → ∃ t, exec .pwclr s = .next t ∧ t.pwSeq = [])

/-- Rule R161: PWPUSH appends its byte to the password; every other byte of PW, every other space and every other register
keeps its value. With a finite PW_MAX (rule R9) the full buffer raises PasswordOverflow (rule R237). -/
def Obligations.PwpushAppendsAByte : Prop :=
  (∀ (b : Byte) (s : State), ∃ t, IdleCommand exec (.pwpush b) (0x1100 + b.setWidth 16) s t ∧
    t = { s with pw := t.pw, pwlen := s.pwlen + 1 } ∧
    t.pwSeq = s.pwSeq ++ [b] ∧ t.readByte .pw s.pwlen = b ∧
    ∀ a, a ≠ s.pwlen → t.readByte .pw a = s.readByte .pw a) ∧
  (∀ (P : Config.Params) (b : Byte) (s : State), P.pwMax ≠ some s.pwlen →
    ∃ t, IdleCommand (execWith P) (.pwpush b) (0x1100 + b.setWidth 16) s t ∧
    t = { s with pw := t.pw, pwlen := s.pwlen + 1 } ∧
    t.pwSeq = s.pwSeq ++ [b] ∧ t.readByte .pw s.pwlen = b ∧
    ∀ a, a ≠ s.pwlen → t.readByte .pw a = s.readByte .pw a) ∧
  ∀ (P : Config.Params) (b : Byte) (s : State), P.pwMax = some s.pwlen →
    IdleCommand (execWith P) (.pwpush b) (0x1100 + b.setWidth 16) s
      (raise .passwordOverflow (BitVec.ofNat 16 (s.pwlen % 2 ^ 16)) s)

/-- Rule R200: NCLR empties the nonce buffer. -/
def Obligations.NclrEmptiesTheNonce : Prop :=
  ∀ s : State, IdleCommand exec .nclr 0x1200 s { s with nlen := 0 }

/-- Rule R201: NPUSH stores its byte at NLEN below 128 and counts; past 128 the byte is dropped and NLEN is 129. -/
def Obligations.NpushAppendsOrSaturates : Prop :=
  ∀ (b : Byte) (s : State), ∃ t, IdleCommand exec (.npush b) (0x1300 + b.setWidth 16) s t ∧
    (s.nlen.toNat < 128 →
      t = { s with nonce := t.nonce, nlen := t.nlen } ∧ t.nlen.toNat = s.nlen.toNat + 1 ∧
      t.readByte .nonce s.nlen.toNat = b ∧
      ∀ a, a ≠ s.nlen.toNat → t.readByte .nonce a = s.readByte .nonce a) ∧
    (128 ≤ s.nlen.toNat → t = { s with nlen := 129 })

/-- NGEN fills NONCE with the next 128 bytes of the randomness source and sets NLEN to 128, whatever it was (rule R202). The
drawn bytes are the free values `Config.rngByte` (log 3); the statement holds whatever they are. -/
def Obligations.NgenFillsTheNonce : Prop :=
  ∀ s : State, s.phase = .idle → s.rngOn = true → ∃ t, exec .ngen s = .next t ∧
    t = { s with nonce := t.nonce, nlen := 128, rngDraws := s.rngDraws + 128, ngenWait := false } ∧
    (∀ i, i < 128 → t.readByte .nonce i = Config.rngByte (s.rngDraws + i)) ∧
    ∀ a, 128 ≤ a → t.readByte .nonce a = s.readByte .nonce a

/-- While the source does not deliver NGEN is held and changes nothing of the block; each step then waits, and completes the
NGEN when the source delivers, exactly as NGEN does that is not held (rules R47, R202). No later command of a sequence is
performed before (rule R11). The fields that hold it are the model's, log 2, and the drawn bytes are free values, log 3. -/
def Obligations.NgenIsHeldUntilTheSourceDelivers : Prop :=
  (∀ s : State, s.phase = .idle → s.rngOn = false → exec .ngen s = .next { s with ngenWait := true }) ∧
  (∀ s : State, s.ngenWait = true → s.rngOn = false → step s = .next s) ∧
  (∀ s : State, s.ngenWait = true → s.rngOn = true → ∃ t, step s = .next t ∧
    t = { s with nonce := t.nonce, nlen := 128, rngDraws := s.rngDraws + 128, ngenWait := false } ∧
    (∀ i, i < 128 → t.readByte .nonce i = Config.rngByte (s.rngDraws + i)) ∧
    ∀ a, 128 ≤ a → t.readByte .nonce a = s.readByte .nonce a) ∧
  ∀ (P : Config.Params) (i : Instr) (es : List Event) (s : State), s.phase = .idle → s.rngOn = false →
    perform P (.command .ngen :: .command i :: es) s = none

/-! ### The generator (40_prg.md) -/

/-- Rule R122: one draw, in the arithmetic of the document on natural numbers. -/
def Obligations.DrawFollowsTheArithmetic : Prop :=
  ∀ s : State,
    let x := s.regX.toNat
    let a := (x ^^^ (x * 2 ^ 12)) % 2 ^ 64
    let b := a ^^^ (a / 2 ^ 25)
    let c := (b ^^^ (b * 2 ^ 27)) % 2 ^ 64
    let m := (c * 0x2545F4914F6CDD1D) % 2 ^ 64
    (draw s).1.toNat = m / 2 ^ 32 % 256 ∧ (draw s).2.regX.toNat = c ∧
    (draw s).2 = { s with regX := (draw s).2.regX }

/-- The new state of a draw bit by bit (rule R123). -/
def Obligations.DrawBitByBit : Prop :=
  ∀ x : Word64, ∃ a b : Word64,
    (∀ i, i < 64 → a.getLsbD i = if 12 ≤ i then (x.getLsbD i ^^ x.getLsbD (i - 12)) else x.getLsbD i) ∧
    (∀ i, i < 64 → b.getLsbD i = if i ≤ 38 then (a.getLsbD i ^^ a.getLsbD (i + 25)) else a.getLsbD i) ∧
    (∀ i, i < 64 → (prgStep x).getLsbD i =
      if 27 ≤ i then (b.getLsbD i ^^ b.getLsbD (i - 27)) else b.getLsbD i)

/-- Rule R126: each of the three steps, and the state change of a draw, is a bijection, so a state that is not zero never
becomes zero. -/
def Obligations.DrawIsABijection : Prop :=
  Function.Bijective (fun x : Word64 => x ^^^ (x <<< 12)) ∧
  Function.Bijective (fun x : Word64 => x ^^^ (x >>> 25)) ∧
  Function.Bijective (fun x : Word64 => x ^^^ (x <<< 27)) ∧
  Function.Bijective prgStep ∧ ∀ x : Word64, x ≠ 0 → prgStep x ≠ 0

/-- Rule R125: the zero state gives the byte 0 and stays, so NEXTB pushes zeros for ever. -/
def Obligations.ZeroStateGivesZeros : Prop :=
  (∀ s : State, s.regX = 0 → draw s = (0, s)) ∧
  ∀ (P : Config.Params) (n : Nat) (s : State), s.phase = .idle → s.ngenWait = false → s.regX = 0 →
    perform P (List.replicate n (.command .nextb)) s
      = some ({ s with out := s.out ++ List.replicate n 0 }, List.replicate n 0)

/-- Rule R140: LDS shifts S left by a byte, drops what passes bit 63 and adds its byte. -/
def Obligations.LdsShiftsAByteIn : Prop :=
  ∀ (b : Byte) (s : State), ∃ t, IdleCommand exec (.lds b) (0x2000 + b.setWidth 16) s t ∧
    t = { s with regS := t.regS } ∧ t.regS.toNat = (s.regS.toNat * 2 ^ 8) % 2 ^ 64 + b.toNat

/-- Eight LDS, most significant byte first, and SEED leave S and X at the value, whatever S held (rules R69, R103, R140,
R141). -/
def Obligations.Seed64LoadsTheValue : Prop :=
  ∀ (P : Config.Params) (v : Word64) (s : State), s.phase = .idle → s.ngenWait = false →
    perform P ((Pseudo.seed64 v).expand.map .command) s = some ({ s with regS := v, regX := v }, [])

/-- Rule R141: SEED copies S to X. -/
def Obligations.SeedCopiesS : Prop :=
  ∀ s : State, IdleCommand exec .seed 0x2100 s { s with regX := s.regS }

/-- Rule R142: NEXTB draws one byte and pushes it. The draw is that of rule R122, stated on its own. -/
def Obligations.NextbPushesADraw : Prop :=
  ∀ s : State, IdleCommand exec .nextb 0x2200 s { s with regX := (draw s).2.regX, out := s.out ++ [(draw s).1] }

/-- Rule R143: NEXTP pushes the 256 entries of one permutation and leaves X 256 draws on; GRID is not written. -/
def Obligations.NextpPushesAPermutation : Prop :=
  ∀ s : State,
    IdleCommand exec .nextp 0x2300 s
      { s with regX := prgStep^[256] s.regX, out := s.out ++ (nextPerm s.regX).1 } ∧
    (nextPerm s.regX).1.length = 256

/-- Entry `n` of a permutation, from draw `n + 1`: of the values not yet put out it is the one with exactly `r mod (256 - n)`
smaller ones left (rules R130, R131, R135). -/
def Obligations.PermutationEntryByRank : Prop :=
  ∀ (x : Word64) (n : Nat), n < 256 → ∃ v, (nextPerm x).1[n]? = some v ∧ v ∉ (nextPerm x).1.take n ∧
    (allBytes.filter (fun u => decide (u.toNat < v.toNat) && decide (u ∉ (nextPerm x).1.take n))).length
      = (prgByte (prgStep^[n + 1] x)).toNat % (256 - n)

/-- Every permutation holds each of the 256 values at exactly one place, for any seed (rule R134). -/
def Obligations.PermutationIsABijection : Prop :=
  ∀ (x : Word64) (v : Byte), ∃! n, n < 256 ∧ (nextPerm x).1[n]? = some v

/-- Rule R136: from X = 0 the permutation is the identity and X stays 0. -/
def Obligations.PermutationFromZero : Prop :=
  (∀ n, n < 256 → (nextPerm 0).1[n]? = some (BitVec.ofNat 8 n)) ∧ (nextPerm 0).2 = 0

/-! ### Key derivation and the grid (41_keyderiv.md, 42_gridbuilder.md) -/

/-- Rule R152: what `kdf` leaves, for any hash function and any digest length from 5 on. -/
def Obligations.KdfExtractsSeedAndPattern : Prop :=
  ∀ (P : Config.Params) (msg : List Byte) (s : State),
    let d := (P.hash msg).toList
    let seed := (d.getD 0 0).toNat * 2 ^ 24 + (d.getD 1 0).toNat * 2 ^ 16 + (d.getD 2 0).toNat * 2 ^ 8 + (d.getD 3 0).toNat
    let r := (prgByte (prgStep (BitVec.ofNat 64 seed))).toNat
    let e := min ((256 + r) / 2) P.hlen
    let t := kdf P msg s
    t = { s with regX := t.regX, pat := t.pat, plen := t.plen } ∧
    t.regX = prgStep (BitVec.ofNat 64 seed) ∧ t.plen.toNat = e - 4 ∧
    (∀ j, j < e - 4 → t.readByte .pat j = d.getD (4 + j) 0) ∧
    ∀ a, e - 4 ≤ a → t.readByte .pat a = s.readByte .pat a

/-- Rule R156: the pattern length, and its range by digest length, never empty and at most 251. -/
def Obligations.PatternLengthByDigestLength : Prop :=
  ∀ (P : Config.Params) (msg : List Byte) (s : State),
    let n := (kdf P msg s).plen.toNat
    let t := (256 + (prgByte (prgStep (seedState P msg))).toNat) / 2
    n = min t P.hlen - 4 ∧ (1 ≤ n ∧ n ≤ 251) ∧ (P.hlen = 64 → n = 60) ∧ (P.hlen ≤ 128 → n = P.hlen - 4) ∧
    (129 ≤ P.hlen → P.hlen ≤ 254 → 124 ≤ n ∧ n ≤ P.hlen - 4) ∧
    (255 ≤ P.hlen → n = t - 4 ∧ 124 ≤ n ∧ n ≤ 251)

/-- Rules R171 and R173: `grid_build` writes as table `k` the permutation drawn 256*k draws on, leaves X 65536 draws on, and
changes nothing else. -/
def Obligations.GridBuildWritesTheTables : Prop :=
  ∀ s : State,
    gridBuild s = { s with grid := (gridBuild s).grid, regX := (gridBuild s).regX } ∧
    (gridBuild s).regX = prgStep^[256 * 256] s.regX ∧
    (∀ k n, k < 256 → n < 256 →
      (gridBuild s).grid.read? (256 * k + n) = (nextPerm (prgStep^[256 * k] s.regX)).1[n]?) ∧
    ∀ a, 65536 ≤ a → (gridBuild s).readByte .grid a = s.readByte .grid a

/-- Rule R174: after `grid_build` every table holds each byte value at exactly one entry. -/
def Obligations.GridTablesAreBijections : Prop :=
  ∀ (s : State) (k : Nat), k < 256 → ∀ v : Byte,
    ∃! n, n < 256 ∧ (gridBuild s).readByte .grid (256 * k + n) = v

/-- Rules R172 and R173: a derivation leaves the key schedule of its message, whatever the state was, with a pattern that is
not empty, and changes nothing else. -/
def Obligations.DeriveMakesTheKeySchedule : Prop :=
  ∀ (P : Config.Params) (msg : List Byte) (s : State),
    derive P msg s = { gridBuild (kdf P msg s) with pp := 0 } ∧
    KeyScheduleOf P msg (derive P msg s) ∧ 1 ≤ (derive P msg s).plen.toNat ∧
    OnlySchedule s (derive P msg s)

/-- Rule R158: under a digest that starts with four zero bytes the first draw is 0 and T is 128, every table is the identity,
every later draw is 0, every table index is the pattern byte itself, X stays 0, each byte at any PP is enciphered and
deciphered to itself, and so a whole pass over any number of bytes copies its input to its output. The last clause, about the
results of whole messages (rules R11, R13) with the host acting between the commands, takes its form from the model's runs
of events, log 17, and from the host's actions, logs 1, 2 and 9. -/
def Obligations.ZeroSeedCopiesBytes : Prop :=
  ∀ (P : Config.Params) (msg : List Byte) (s : State), seedState P msg = 0 →
    prgByte (prgStep (seedState P msg)) = 0 ∧ truncateLength (prgByte (prgStep (seedState P msg))) = 128 ∧
    (derive P msg s).regX = 0 ∧
    (∀ (k : Nat) (n : Byte), k < 256 → (derive P msg s).readByte .grid (256 * k + n.toNat) = n) ∧
    (∀ (u : State) (b : Byte), u.grid = (derive P msg s).grid → u.regX = 0 →
      (draw u).1 = 0 ∧ (tableSelect u).1 = u.readByte .pat u.pp.toNat ∧
      (encByte b u).1 = b ∧ (decByte b u).1 = some b ∧ (encByte b u).2.regX = 0 ∧ (decByte b u).2.regX = 0) ∧
    (∀ bs : List Byte, (putEncAll bs (derive P msg s)).out = s.out ++ bs ∧ (putEncAll bs (derive P msg s)).regX = 0) ∧
    (s.pwSeq = msg → s.phase = .idle → s.err = .none → s.ngenWait = false → ∀ (data : List Byte) (body : List Event),
      body.all insideMessage = true →
      (commandsOf body = data.map .encb → messageResult P .spe body s = some data) ∧
      (commandsOf body = data.map .decb → messageResult P .spd body s = some data))

/-! ### The cipher (43_cipher.md) -/

/-- Rule R190: SPE derives from the password alone and enters ENC; nothing is pushed and the nonce is not touched. For every
hash function and every HLEN from 5 on, and with PLEN 60 on this hardware. -/
def Obligations.SpeStartsAnEncryptPass : Prop :=
  (∀ s : State, ∃ t, IdleCommand exec .spe 0x3000 s { t with phase := .enc } ∧
    KeyScheduleOf Config.params s.pwSeq t ∧ t.plen = 60 ∧ OnlySchedule s t) ∧
  ∀ (P : Config.Params) (s : State), ∃ t, IdleCommand (execWith P) .spe 0x3000 s { t with phase := .enc } ∧
    KeyScheduleOf P s.pwSeq t ∧ OnlySchedule s t

/-- Rule R191: SPD is SPE but for the phase it enters, for every hash function and every HLEN from 5 on. -/
def Obligations.SpdStartsADecryptPass : Prop :=
  (∀ s : State, ∃ t, IdleCommand exec .spd 0x3100 s { t with phase := .dec } ∧
    IdleCommand exec .spe 0x3000 s { t with phase := .enc } ∧
    KeyScheduleOf Config.params s.pwSeq t ∧ OnlySchedule s t) ∧
  ∀ (P : Config.Params) (s : State), ∃ t, IdleCommand (execWith P) .spd 0x3100 s { t with phase := .dec } ∧
    IdleCommand (execWith P) .spe 0x3000 s { t with phase := .enc } ∧
    KeyScheduleOf P s.pwSeq t ∧ OnlySchedule s t

/-- Rule R181: `table_select` makes one draw, adds the pattern byte modulo 256 and moves PP on, whatever the byte to come. -/
def Obligations.TableSelectDrawsAndAdds : Prop :=
  ∀ s : State,
    (tableSelect s).1.toNat = ((s.readByte .pat s.pp.toNat).toNat + (prgByte (prgStep s.regX)).toNat) % 256 ∧
    (tableSelect s).2 = { s with regX := prgStep s.regX, pp := (tableSelect s).2.pp } ∧
    (s.pp.toNat + 1 = s.plen.toNat → (tableSelect s).2.pp = 0) ∧
    (s.pp.toNat + 1 ≠ s.plen.toNat → (tableSelect s).2.pp = s.pp + 1) ∧
    (s.pp.toNat < s.plen.toNat → (tableSelect s).2.pp.toNat = (s.pp.toNat + 1) % s.plen.toNat)

/-- Rule R192: ENCB pushes the entry of the selected table at its byte. -/
def Obligations.EncbPushesTheTableEntry : Prop :=
  ∀ (b : Byte) (s : State),
    encode (.encb b) = 0x4000 + b.setWidth 16 ∧
    (s.phase = .enc → exec (.encb b) s = .next { s with
      regX := prgStep s.regX, pp := nextPp s,
      out := s.out ++ [s.readByte .grid (256 * (nextTable s).toNat + b.toNat)] }) ∧
    (s.phase = .fault → exec (.encb b) s = .next s) ∧
    (s.phase ≠ .enc → s.phase ≠ .fault → exec (.encb b) s = .next (raise .illegalCommand (0x4000 + b.setWidth 16) s))

/-- Rules R183 and R193: DECB in DEC pushes the lowest index at which the selected table holds its byte, or raises
DecodeError with the byte when there is none. -/
def Obligations.DecbPushesTheIndex : Prop :=
  ∀ (b : Byte) (s : State),
    encode (.decb b) = 0x4100 + b.setWidth 16 ∧
    (s.phase = .dec → ∀ j : Byte, s.readByte .grid (256 * (nextTable s).toNat + j.toNat) = b →
      (∀ i : Byte, i.toNat < j.toNat → s.readByte .grid (256 * (nextTable s).toNat + i.toNat) ≠ b) →
      exec (.decb b) s = .next { s with regX := prgStep s.regX, pp := nextPp s, out := s.out ++ [j] }) ∧
    (s.phase = .dec → (∀ j : Byte, s.readByte .grid (256 * (nextTable s).toNat + j.toNat) ≠ b) →
      exec (.decb b) s = .next (raise .decodeError (b.setWidth 16) s)) ∧
    (s.phase = .fault → exec (.decb b) s = .next s) ∧
    (s.phase = .idle ∨ s.phase = .enc → exec (.decb b) s = .next (raise .illegalCommand (0x4100 + b.setWidth 16) s))

/-- Two blocks in lockstep on one live key schedule: deciphering what the other enciphered gives the byte back, and they stay
in lockstep, with the schedule still live, so that this holds of the next byte again (rule R184). -/
def Obligations.LockstepInversion : Prop :=
  ∀ (s1 s2 : State) (b : Byte), ScheduleLive s1 →
    s2.regX = s1.regX → s2.pp = s1.pp → s2.plen = s1.plen → s2.pat = s1.pat → s2.grid = s1.grid →
    (decByte (encByte b s1).1 s2).1 = some b ∧
    (decByte (encByte b s1).1 s2).2.regX = (encByte b s1).2.regX ∧
    (decByte (encByte b s1).1 s2).2.pp = (encByte b s1).2.pp ∧
    (decByte (encByte b s1).1 s2).2.plen = (encByte b s1).2.plen ∧
    (decByte (encByte b s1).1 s2).2.pat = (encByte b s1).2.pat ∧
    (decByte (encByte b s1).1 s2).2.grid = (encByte b s1).2.grid ∧
    ScheduleLive (encByte b s1).2

/-- A decrypt pass over the result of an encrypt pass under the same password has the data as its result, and a pass over `n`
bytes has `n` (rules R180, R184, R188), for every hash function and every HLEN from 5 on, whatever the host does between the
commands, taking bytes from OUT included (rule R13). -/
def Obligations.PassRoundTrip : Prop :=
  ∀ (P : Config.Params) (s1 s2 : State) (data : List Byte) (body1 : List Event),
    s1.phase = .idle → s1.err = .none → s1.ngenWait = false →
    s2.phase = .idle → s2.err = .none → s2.ngenWait = false → s1.pwSeq = s2.pwSeq →
    body1.all insideMessage = true → commandsOf body1 = data.map .encb →
    ∃ ct, messageResult P .spe body1 s1 = some ct ∧ ct.length = data.length ∧
      ∀ body2 : List Event, body2.all insideMessage = true → commandsOf body2 = ct.map .decb →
        messageResult P .spd body2 s2 = some data

/-! ### Messages (44_nonce_message.md) -/

/-- Rule R204: ENCM checks the nonce length first, and with any but 128 raises InvalidNonceLength(NLEN) and does nothing else.
With a full nonce it pushes the 128 enciphered nonce bytes under the password's key schedule, then holds the key schedule of
password and nonce and is in ENC. For every hash function and every HLEN from 5 on, with a pattern of 60 on this hardware.
The two derivations each write PAT below their own PLEN (rule R152): in general the rest of a longer first pattern is left
above the second one, and on this hardware both end at 60. -/
def Obligations.EncmEnciphersTheNonceAndRederives : Prop :=
  encode .encm = 0x3200 ∧
  (∀ s : State,
    (s.phase = .idle → s.nlen.toNat ≠ 128 →
      exec .encm s = .next { s with
        err := .invalidNonceLength, einfo := s.nlen.setWidth 16, regX := 0, plen := 0, pp := 0, nlen := 0, phase := .fault }) ∧
    (s.phase = .idle → s.nlen.toNat = 128 → ∃ k t,
      KeyScheduleOf Config.params s.pwSeq k ∧
      exec .encm s = .next { t with
        out := s.out ++ (List.range 128).map (fun i =>
          k.readByte .grid (256 * ((k.readByte .pat (i % 60)).toNat + (prgByte (prgStep^[i + 1] k.regX)).toNat) % 65536
            + (s.readByte .nonce i).toNat)),
        phase := .enc } ∧
      KeyScheduleOf Config.params (s.pwSeq ++ s.nonceSeq) t ∧ OnlySchedule s t) ∧
    (s.phase = .fault → exec .encm s = .next s) ∧
    (s.phase ≠ .idle → s.phase ≠ .fault → exec .encm s = .next (raise .illegalCommand 0x3200 s))) ∧
  ∀ (P : Config.Params) (s : State),
    (s.phase = .idle → s.nlen.toNat ≠ 128 →
      execWith P .encm s = .next (raise .invalidNonceLength (s.nlen.setWidth 16) s)) ∧
    (s.phase = .idle → s.nlen.toNat = 128 → ∃ k t,
      KeyScheduleOf P s.pwSeq k ∧
      execWith P .encm s = .next { t with
        out := s.out ++ (List.range 128).map (fun i =>
          k.readByte .grid
            (256 * ((k.readByte .pat (i % k.plen.toNat)).toNat + (prgByte (prgStep^[i + 1] k.regX)).toNat) % 65536
              + (s.readByte .nonce i).toNat)),
        phase := .enc } ∧
      KeyScheduleOf P (s.pwSeq ++ s.nonceSeq) t ∧ OnlyTwoSchedules s k t) ∧
    (s.phase = .fault → execWith P .encm s = .next s) ∧
    (s.phase ≠ .idle → s.phase ≠ .fault → execWith P .encm s = .next (raise .illegalCommand 0x3200 s))

/-- Rule R206: DECM derives from the password, drops a loaded nonce and enters DECN, for every hash function and every HLEN
from 5 on. -/
def Obligations.DecmStartsTheNoncePass : Prop :=
  (∀ s : State, ∃ t, IdleCommand exec .decm 0x3300 s { t with nlen := 0, phase := .decn } ∧
    KeyScheduleOf Config.params s.pwSeq t ∧ OnlySchedule s t) ∧
  ∀ (P : Config.Params) (s : State), ∃ t,
    IdleCommand (execWith P) .decm 0x3300 s { t with nlen := 0, phase := .decn } ∧
    KeyScheduleOf P s.pwSeq t ∧ OnlySchedule s t

/-- Rule R207: DECB in DECN keeps the deciphered byte at NONCE[NLEN] and pushes nothing; the 128th one re-derives from password
and nonce at once and enters DEC. A byte that the selected table does not hold raises DecodeError. For this hardware, and for
every hash function and every HLEN from 5 on. -/
def Obligations.DecbCollectsTheNonce : Prop :=
  ∀ (b : Byte) (s : State), s.phase = .decn → s.nlen.toNat < 128 →
    (∀ j : Byte, s.readByte .grid (256 * (nextTable s).toNat + j.toNat) = b →
      (∀ i : Byte, i.toNat < j.toNat → s.readByte .grid (256 * (nextTable s).toNat + i.toNat) ≠ b) →
      ∃ u,
        u = { s with regX := prgStep s.regX, pp := nextPp s, nonce := u.nonce, nlen := s.nlen + 1 } ∧
        u.readByte .nonce s.nlen.toNat = j ∧
        (∀ a, a ≠ s.nlen.toNat → u.readByte .nonce a = s.readByte .nonce a) ∧
        (s.nlen.toNat < 127 → exec (.decb b) s = .next u ∧ ∀ P, execWith P (.decb b) s = .next u) ∧
        (s.nlen.toNat = 127 →
          (∃ t, exec (.decb b) s = .next { t with phase := .dec } ∧
            KeyScheduleOf Config.params (s.pwSeq ++ u.nonceSeq) t ∧ OnlySchedule u t) ∧
          ∀ P, ∃ t, execWith P (.decb b) s = .next { t with phase := .dec } ∧
            KeyScheduleOf P (s.pwSeq ++ u.nonceSeq) t ∧ OnlySchedule u t)) ∧
    ((∀ j : Byte, s.readByte .grid (256 * (nextTable s).toNat + j.toNat) ≠ b) →
      exec (.decb b) s = .next (raise .decodeError (b.setWidth 16) s) ∧
      ∀ P, execWith P (.decb b) s = .next (raise .decodeError (b.setWidth 16) s))

/-- Rule R210: a message enciphered under a password and any 128-byte nonce, deciphered under the same password, has the data
as its result; the ciphertext is 128 bytes longer than the data. For every hash function and every HLEN from 5 on, and
whatever the host does between the commands, taking bytes from OUT included (rule R13). -/
def Obligations.MessageRoundTrip : Prop :=
  ∀ (P : Config.Params) (s1 s2 : State) (data : List Byte) (body1 : List Event),
    s1.phase = .idle → s1.err = .none → s1.ngenWait = false → s1.nlen.toNat = 128 →
    s2.phase = .idle → s2.err = .none → s2.ngenWait = false → s1.pwSeq = s2.pwSeq →
    body1.all insideMessage = true → commandsOf body1 = data.map .encb →
    ∃ ct, messageResult P .encm body1 s1 = some ct ∧ ct.length = data.length + 128 ∧
      ∀ body2 : List Event, body2.all insideMessage = true → commandsOf body2 = ct.map .decb →
        messageResult P .decm body2 s2 = some data

/-! ### Whole-machine rules -/

/-- The invariant holds after reset, for a block with any parameters. -/
def Obligations.InvariantAfterReset : Prop := ∀ P : Config.Params, State.reset.Inv P

/-- Every step keeps the invariant, on this hardware and in a block with any parameters: the spaces stay canonical and in
range, the registers in the values the spec gives them, a live phase has a live key schedule with bijective tables and the
pattern length of rule R156, and neither DecodeError nor, with PW_MAX unbounded, PasswordOverflow ever comes (rules R24 to
R31, R34, R66, R174, R185, R186). -/
def Obligations.StepKeepsTheInvariant : Prop :=
  (∀ s t : State, s.Inv Config.params → step s = .next t → t.Inv Config.params) ∧
  ∀ (P : Config.Params) (s t : State), s.Inv P → stepWith P s = .next t → t.Inv P

/-- What the host and the randomness source do keeps the invariant too (rules R46, R67, R270). -/
def Obligations.HostActionKeepsTheInvariant : Prop :=
  ∀ (P : Config.Params) (a : HostAction) (s : State), s.Inv P → (hostAct a s).2.Inv P

/-- Rule R185: in a state of the block DECB never raises DecodeError, and in DECN and DEC it raises nothing; for this
hardware and for a block with any parameters. -/
def Obligations.DecodeErrorIsUnreachable : Prop :=
  ∀ (P : Config.Params) (b : Byte) (s t : State), s.Inv P →
    (execWith P (.decb b) s = .next t ∨ exec (.decb b) s = .next t) →
    t.err ≠ .decodeError ∧ (s.phase = .decn ∨ s.phase = .dec → t.phase ≠ .fault ∧ t.err = .none)

/-- A command that faults raises the error its rule names, for its own reason and with its own EINFO: the five errors, each
with the one command or the one cause that raises it, and PasswordOverflow with a finite PW_MAX only (rules R231, R237, R238,
R239). -/
def Obligations.ErrorsComeFromTheirCommands : Prop :=
  (∀ (P : Config.Params) (i : Instr) (s t : State), s.phase ≠ .fault → execWith P i s = .next t → t.phase = .fault →
    (t.err = .invalidNonceLength ∧ i = .encm ∧ s.phase = .idle ∧ s.nlen.toNat ≠ 128 ∧ t.einfo = s.nlen.setWidth 16) ∨
    (t.err = .truncatedCiphertext ∧ i = .endMsg ∧ s.phase = .decn ∧ t.einfo = s.nlen.setWidth 16) ∨
    (t.err = .decodeError ∧ (s.phase = .decn ∨ s.phase = .dec) ∧ ∃ b : Byte, i = .decb b ∧ t.einfo = b.setWidth 16 ∧
      ∀ j : Byte, s.readByte .grid (256 * (nextTable s).toNat + j.toNat) ≠ b) ∨
    (t.err = .illegalCommand ∧ legalIn i s.phase = false ∧ t.einfo = encode i) ∨
    (t.err = .passwordOverflow ∧ s.phase = .idle ∧ P.pwMax = some s.pwlen ∧ (∃ b : Byte, i = .pwpush b) ∧
      t.einfo = BitVec.ofNat 16 (s.pwlen % 2 ^ 16))) ∧
  ∀ (i : Instr) (s t : State), s.phase ≠ .fault → exec i s = .next t → t.phase = .fault →
    (t.err = .invalidNonceLength ∧ i = .encm ∧ s.phase = .idle ∧ s.nlen.toNat ≠ 128 ∧ t.einfo = s.nlen.setWidth 16) ∨
    (t.err = .truncatedCiphertext ∧ i = .endMsg ∧ s.phase = .decn ∧ t.einfo = s.nlen.setWidth 16) ∨
    (t.err = .decodeError ∧ (s.phase = .decn ∨ s.phase = .dec) ∧ ∃ b : Byte, i = .decb b ∧ t.einfo = b.setWidth 16 ∧
      ∀ j : Byte, s.readByte .grid (256 * (nextTable s).toNat + j.toNat) ≠ b) ∨
    (t.err = .illegalCommand ∧ legalIn i s.phase = false ∧ t.einfo = encode i)

/-- Bytes already in OUT stay there, in their order, through every command but RST (rules R46, R73). -/
def Obligations.OutputBytesAreKept : Prop :=
  ∀ (P : Config.Params) (i : Instr) (s t : State), i ≠ .rst → (execWith P i s = .next t ∨ exec i s = .next t) →
    ∃ added, t.out = s.out ++ added

/-- Outside IDLE no command but RST changes the password, and only DECB in DECN writes the nonce bytes (rule R281). -/
def Obligations.BuffersAreFixedDuringAMessage : Prop :=
  ∀ (P : Config.Params) (i : Instr) (s t : State), s.phase ≠ .idle → i ≠ .rst →
    (execWith P i s = .next t ∨ exec i s = .next t) →
    t.pw = s.pw ∧ t.pwlen = s.pwlen ∧ t.regS = s.regS ∧
    (t.nonce = s.nonce ∨ (s.phase = .decn ∧ ∃ b, i = .decb b))

/-- Rule R36: while a pass goes on, X is written by `prg_next` only: a command that leaves a live phase as it was leaves X
exactly one draw on. -/
def Obligations.OneStreamPerDerivation : Prop :=
  ∀ (P : Config.Params) (i : Instr) (s t : State), s.phase.live = true →
    (execWith P i s = .next t ∨ exec i s = .next t) → t.phase = s.phase →
    t.regX = prgStep s.regX ∧ t.plen = s.plen ∧ t.pat = s.pat ∧ t.grid = s.grid

/-! ### Ports (10_state.md, 20_memory.md) -/

/-- The status port shows the codes of PHASE and ERR and the value of EINFO, and reading it changes nothing; *faulted* and
*idle* are functions of it (rules R29, R30, R32, R231). -/
def Obligations.StatusPortShowsTheCodes : Prop :=
  ∀ s : State, hostAct .readStatus s = (.status s.status, s) ∧ s.status.statEinfo = s.einfo ∧
    s.status.statPhase.toNat = (match s.phase with | .idle => 0 | .enc => 1 | .decn => 2 | .dec => 3 | .fault => 7) ∧
    s.status.statErr.toNat = (match s.err with
      | .none => 0 | .invalidNonceLength => 1 | .truncatedCiphertext => 2 | .decodeError => 3
      | .illegalCommand => 4 | .passwordOverflow => 5) ∧
    (s.status.faulted = true ↔ s.phase = .fault) ∧ (s.status.idle = true ↔ s.phase = .idle)

/-- The host's actions: taking a byte removes the head of OUT, an issued word waits behind those before it, the reset input
leaves the reset values, and with no word waiting a step changes nothing (rules R46, R67, R70, R270, R271). The waiting
words and the setting of the source are the model's, logs 1, 2, 3 and 9, and so is that the spaces list nothing after reset,
log 8. -/
def Obligations.PortsDoWhatTheyAreFor : Prop :=
  ∀ s : State,
    (∀ b bs, s.out = b :: bs → hostAct .take s = (.byte (some b), { s with out := bs })) ∧
    (s.out = [] → hostAct .take s = (.byte none, s)) ∧
    (∀ w, hostAct (.issue w) s = (.nothing, { s with cmdIn := s.cmdIn ++ [w] })) ∧
    (∀ on, hostAct (.setRng on) s = (.nothing, { s with rngOn := on })) ∧
    (hostAct .assertReset s).2
      = { State.reset with cmdIn := s.cmdIn, rngOn := s.rngOn, rngDraws := s.rngDraws } ∧
    (s.ngenWait = false → s.cmdIn = [] → step s = .next s)
end

