-- ==== Sys2Proof/Laws/Memory.lean ====
section
/-! SUPPORT. What the byte spaces do: reading after a write, and the canonical form, which every memory operation keeps and
which the reset state has. -/

namespace Sys2Proof.Machine

theorem read?_append (m₁ m₂ : Memory) (a : Nat) :
    Memory.read? (m₁ ++ m₂) a = (Memory.read? m₁ a).or (Memory.read? m₂ a) := by
  induction m₁ with
  | nil => simp [Memory.read?]
  | cons c m ih =>
    obtain ⟨k, v⟩ := c
    by_cases h : k = a <;> simp [Memory.read?, h, ih]

theorem read?_filter (p : Nat → Bool) (m : Memory) (a : Nat) :
    Memory.read? (m.filter (fun c => p c.1)) a = if p a then Memory.read? m a else none := by
  induction m with
  | nil => simp [Memory.read?]
  | cons c m ih =>
    obtain ⟨k, v⟩ := c
    by_cases hk : p k = true
    · by_cases h : k = a
      · subst h; simp [List.filter, hk, Memory.read?]
      · simp [List.filter, hk, Memory.read?, h, ih]
    · by_cases h : k = a
      · subst h; simp [List.filter, hk, ih]
      · simp [List.filter, hk, Memory.read?, h, ih]

theorem read?_cellsFrom (bs : List Byte) (k a : Nat) :
    Memory.read? (cellsFrom k bs) a = if k ≤ a then bs[a - k]? else none := by
  induction bs generalizing k with
  | nil => simp [cellsFrom, Memory.read?]
  | cons b bs ih =>
    simp only [cellsFrom, Memory.read?, ih]
    by_cases h : k = a
    · subst h; simp
    · by_cases hle : k ≤ a
      · have h1 : k + 1 ≤ a := by omega
        have h2 : a - k = (a - (k + 1)) + 1 := by omega
        simp [h, hle, h1, h2]
      · have h1 : ¬ k + 1 ≤ a := by omega
        simp [h, hle, h1]

/-- A read after a run of writes: the byte written there, else what was there before (20_memory.md rule R62). -/
theorem read?_writeBytes (m : Memory) (k : Nat) (bs : List Byte) (a : Nat) :
    (m.writeBytes k bs).read? a
      = if k ≤ a ∧ a < k + bs.length then bs[a - k]? else m.read? a := by
  have hlo := read?_filter (fun i => decide (i < k)) m a
  have hhi := read?_filter (fun i => decide (k + bs.length ≤ i)) m a
  simp only [Memory.writeBytes, read?_append, hlo, hhi, read?_cellsFrom]
  by_cases h1 : a < k
  · have h2 : ¬ k ≤ a := by omega
    have h3 : ¬ (k + bs.length ≤ a) := by omega
    simp [h1, h2, h3]
  · have h2 : k ≤ a := by omega
    by_cases h3 : a < k + bs.length
    · have h4 : a - k < bs.length := by omega
      simp [h1, h2, h3, h4]
    · have h4 : k + bs.length ≤ a := by omega
      have h5 : bs.length ≤ a - k := by omega
      simp [h1, h2, h3, h4, h5]

/-- A read after the write of one byte. -/
theorem read?_write (m : Memory) (k : Nat) (v : Byte) (a : Nat) :
    (m.write k v).read? a = if a = k then some v else m.read? a := by
  simp only [Memory.write, read?_writeBytes, List.length_singleton]
  by_cases h : a = k
  · subst h; simp
  · have h1 : ¬ (k ≤ a ∧ a < k + 1) := by omega
    rw [if_neg h1, if_neg h]

theorem wfFrom_iff (m : Memory) (lo : Nat) :
    Memory.wfFrom lo m = true ↔ (∀ c ∈ m, lo ≤ c.1) ∧ m.Pairwise (fun c d => c.1 < d.1) := by
  induction m generalizing lo with
  | nil => simp [Memory.wfFrom]
  | cons c m ih =>
    obtain ⟨k, v⟩ := c
    simp only [Memory.wfFrom, Bool.and_eq_true, decide_eq_true_eq, ih, List.pairwise_cons, List.mem_cons,
      forall_eq_or_imp]
    constructor
    · rintro ⟨h, h1, h2⟩
      exact ⟨⟨h, fun c hc => by have := h1 c hc; omega⟩, fun c hc => by have := h1 c hc; omega, h2⟩
    · rintro ⟨⟨h, _⟩, h1, h2⟩
      exact ⟨h, fun c hc => by have := h1 c hc; omega, h2⟩

/-- The canonical form says that addresses strictly rise. -/
theorem wf_iff (m : Memory) : m.wf = true ↔ m.Pairwise (fun c d => c.1 < d.1) := by
  simp [Memory.wf, wfFrom_iff]

theorem cellsFrom_mem {bs : List Byte} {k : Nat} {c : Host.Cell} (h : c ∈ cellsFrom k bs) :
    k ≤ c.1 ∧ c.1 < k + bs.length := by
  induction bs generalizing k with
  | nil => simp [cellsFrom] at h
  | cons b bs ih =>
    simp only [cellsFrom, List.mem_cons] at h
    rcases h with rfl | h
    · simp
    · have := ih h; simp only [List.length_cons]; omega

theorem cellsFrom_pairwise (bs : List Byte) (k : Nat) :
    (cellsFrom k bs).Pairwise (fun c d => c.1 < d.1) := by
  induction bs generalizing k with
  | nil => exact List.Pairwise.nil
  | cons b bs ih =>
    exact List.pairwise_cons.2 ⟨fun c hc => by have := cellsFrom_mem hc; omega, ih (k + 1)⟩

/-- Writing keeps the canonical form. -/
theorem wf_writeBytes {m : Memory} (h : m.wf = true) (k : Nat) (bs : List Byte) : (m.writeBytes k bs).wf = true := by
  rw [wf_iff] at h ⊢
  refine List.pairwise_append.2 ⟨List.pairwise_append.2 ⟨h.filter _, cellsFrom_pairwise bs k, ?_⟩, h.filter _, ?_⟩
  · intro c hc d hd
    have h1 := (List.mem_filter.1 hc).2
    have h2 := cellsFrom_mem hd
    simp only [decide_eq_true_eq] at h1
    omega
  · intro c hc d hd
    have h2 := (List.mem_filter.1 hd).2
    simp only [decide_eq_true_eq] at h2
    rcases List.mem_append.1 hc with hc | hc
    · have h1 := (List.mem_filter.1 hc).2
      simp only [decide_eq_true_eq] at h1
      omega
    · have h1 := cellsFrom_mem hc
      omega

theorem wf_write {m : Memory} (h : m.wf = true) (k : Nat) (v : Byte) : (m.write k v).wf = true :=
  wf_writeBytes h k [v]

/-- A cell after a run of writes is a cell of before, or one of those written. -/
theorem mem_writeBytes {m : Memory} {k : Nat} {bs : List Byte} {c : Host.Cell} (h : c ∈ m.writeBytes k bs) :
    c ∈ m ∨ (k ≤ c.1 ∧ c.1 < k + bs.length) := by
  rcases List.mem_append.1 h with h | h
  · rcases List.mem_append.1 h with h | h
    · exact .inl (List.mem_filter.1 h).1
    · exact .inr (cellsFrom_mem h)
  · exact .inl (List.mem_filter.1 h).1

/-- Every space of the reset state is in canonical form. -/
theorem reset_spaces_wf (sp : MemSpace) : (State.reset.space sp).wf = true := by
  cases sp <;> rfl

/-! ### Runs of bytes -/

theorem readRun_length (s : State) (sp : MemSpace) (n : Nat) : (s.readRun sp n).length = n := by
  simp [State.readRun]

theorem readRun_getElem? (s : State) (sp : MemSpace) (n i : Nat) :
    (s.readRun sp n)[i]? = if i < n then some (s.readByte sp i) else none := by
  by_cases h : i < n <;> simp [State.readRun, h]

/-- Two states whose space reads alike at the first `n` addresses give the same run. -/
theorem readRun_congr {s t : State} {sp : MemSpace} {n : Nat}
    (h : ∀ a, a < n → s.readByte sp a = t.readByte sp a) : s.readRun sp n = t.readRun sp n := by
  simp only [State.readRun]
  exact List.map_congr_left (fun a ha => h a (List.mem_range.1 ha))

/-- A space that is the same list reads the same. -/
theorem readByte_congr {s t : State} {sp : MemSpace} (h : s.space sp = t.space sp) (a : Nat) :
    s.readByte sp a = t.readByte sp a := by
  simp [State.readByte, h]

end Sys2Proof.Machine
end

