-- ==== Sys2Proof/Laws/State.lean ====
section
/-! SUPPORT. One lemma per field per update of the state. Those of the plain updates are true by rfl on a state taken apart;
those of the operations cite them, so that no later proof unfolds a record update. Neither kind is a bare rfl, on purpose:
simp would then leave the kernel to compare whole states, and it would run the generator on an unknown state. -/

namespace Sys2Proof.Machine

/-! ## The plain updates -/

/-! ### setX -/

@[simp] theorem setX_regX (s : State) (x : Word64) : (s.setX x).regX = x := by cases s; rfl
@[simp] theorem setX_regS (s : State) (x : Word64) : (s.setX x).regS = s.regS := by cases s; rfl
@[simp] theorem setX_pw (s : State) (x : Word64) : (s.setX x).pw = s.pw := by cases s; rfl
@[simp] theorem setX_pwlen (s : State) (x : Word64) : (s.setX x).pwlen = s.pwlen := by cases s; rfl
@[simp] theorem setX_nonce (s : State) (x : Word64) : (s.setX x).nonce = s.nonce := by cases s; rfl
@[simp] theorem setX_nlen (s : State) (x : Word64) : (s.setX x).nlen = s.nlen := by cases s; rfl
@[simp] theorem setX_pat (s : State) (x : Word64) : (s.setX x).pat = s.pat := by cases s; rfl
@[simp] theorem setX_plen (s : State) (x : Word64) : (s.setX x).plen = s.plen := by cases s; rfl
@[simp] theorem setX_grid (s : State) (x : Word64) : (s.setX x).grid = s.grid := by cases s; rfl
@[simp] theorem setX_pp (s : State) (x : Word64) : (s.setX x).pp = s.pp := by cases s; rfl
@[simp] theorem setX_phase (s : State) (x : Word64) : (s.setX x).phase = s.phase := by cases s; rfl
@[simp] theorem setX_err (s : State) (x : Word64) : (s.setX x).err = s.err := by cases s; rfl
@[simp] theorem setX_einfo (s : State) (x : Word64) : (s.setX x).einfo = s.einfo := by cases s; rfl
@[simp] theorem setX_out (s : State) (x : Word64) : (s.setX x).out = s.out := by cases s; rfl
@[simp] theorem setX_cmdIn (s : State) (x : Word64) : (s.setX x).cmdIn = s.cmdIn := by cases s; rfl
@[simp] theorem setX_ngenWait (s : State) (x : Word64) : (s.setX x).ngenWait = s.ngenWait := by cases s; rfl
@[simp] theorem setX_rngOn (s : State) (x : Word64) : (s.setX x).rngOn = s.rngOn := by cases s; rfl
@[simp] theorem setX_rngDraws (s : State) (x : Word64) : (s.setX x).rngDraws = s.rngDraws := by cases s; rfl

/-! ### setS -/

@[simp] theorem setS_regX (s : State) (v : Word64) : (s.setS v).regX = s.regX := by cases s; rfl
@[simp] theorem setS_regS (s : State) (v : Word64) : (s.setS v).regS = v := by cases s; rfl
@[simp] theorem setS_pw (s : State) (v : Word64) : (s.setS v).pw = s.pw := by cases s; rfl
@[simp] theorem setS_pwlen (s : State) (v : Word64) : (s.setS v).pwlen = s.pwlen := by cases s; rfl
@[simp] theorem setS_nonce (s : State) (v : Word64) : (s.setS v).nonce = s.nonce := by cases s; rfl
@[simp] theorem setS_nlen (s : State) (v : Word64) : (s.setS v).nlen = s.nlen := by cases s; rfl
@[simp] theorem setS_pat (s : State) (v : Word64) : (s.setS v).pat = s.pat := by cases s; rfl
@[simp] theorem setS_plen (s : State) (v : Word64) : (s.setS v).plen = s.plen := by cases s; rfl
@[simp] theorem setS_grid (s : State) (v : Word64) : (s.setS v).grid = s.grid := by cases s; rfl
@[simp] theorem setS_pp (s : State) (v : Word64) : (s.setS v).pp = s.pp := by cases s; rfl
@[simp] theorem setS_phase (s : State) (v : Word64) : (s.setS v).phase = s.phase := by cases s; rfl
@[simp] theorem setS_err (s : State) (v : Word64) : (s.setS v).err = s.err := by cases s; rfl
@[simp] theorem setS_einfo (s : State) (v : Word64) : (s.setS v).einfo = s.einfo := by cases s; rfl
@[simp] theorem setS_out (s : State) (v : Word64) : (s.setS v).out = s.out := by cases s; rfl
@[simp] theorem setS_cmdIn (s : State) (v : Word64) : (s.setS v).cmdIn = s.cmdIn := by cases s; rfl
@[simp] theorem setS_ngenWait (s : State) (v : Word64) : (s.setS v).ngenWait = s.ngenWait := by cases s; rfl
@[simp] theorem setS_rngOn (s : State) (v : Word64) : (s.setS v).rngOn = s.rngOn := by cases s; rfl
@[simp] theorem setS_rngDraws (s : State) (v : Word64) : (s.setS v).rngDraws = s.rngDraws := by cases s; rfl

/-! ### setPw -/

@[simp] theorem setPw_regX (s : State) (m : Memory) (n : Nat) : (s.setPw m n).regX = s.regX := by cases s; rfl
@[simp] theorem setPw_regS (s : State) (m : Memory) (n : Nat) : (s.setPw m n).regS = s.regS := by cases s; rfl
@[simp] theorem setPw_pw (s : State) (m : Memory) (n : Nat) : (s.setPw m n).pw = m := by cases s; rfl
@[simp] theorem setPw_pwlen (s : State) (m : Memory) (n : Nat) : (s.setPw m n).pwlen = n := by cases s; rfl
@[simp] theorem setPw_nonce (s : State) (m : Memory) (n : Nat) : (s.setPw m n).nonce = s.nonce := by cases s; rfl
@[simp] theorem setPw_nlen (s : State) (m : Memory) (n : Nat) : (s.setPw m n).nlen = s.nlen := by cases s; rfl
@[simp] theorem setPw_pat (s : State) (m : Memory) (n : Nat) : (s.setPw m n).pat = s.pat := by cases s; rfl
@[simp] theorem setPw_plen (s : State) (m : Memory) (n : Nat) : (s.setPw m n).plen = s.plen := by cases s; rfl
@[simp] theorem setPw_grid (s : State) (m : Memory) (n : Nat) : (s.setPw m n).grid = s.grid := by cases s; rfl
@[simp] theorem setPw_pp (s : State) (m : Memory) (n : Nat) : (s.setPw m n).pp = s.pp := by cases s; rfl
@[simp] theorem setPw_phase (s : State) (m : Memory) (n : Nat) : (s.setPw m n).phase = s.phase := by cases s; rfl
@[simp] theorem setPw_err (s : State) (m : Memory) (n : Nat) : (s.setPw m n).err = s.err := by cases s; rfl
@[simp] theorem setPw_einfo (s : State) (m : Memory) (n : Nat) : (s.setPw m n).einfo = s.einfo := by cases s; rfl
@[simp] theorem setPw_out (s : State) (m : Memory) (n : Nat) : (s.setPw m n).out = s.out := by cases s; rfl
@[simp] theorem setPw_cmdIn (s : State) (m : Memory) (n : Nat) : (s.setPw m n).cmdIn = s.cmdIn := by cases s; rfl
@[simp] theorem setPw_ngenWait (s : State) (m : Memory) (n : Nat) : (s.setPw m n).ngenWait = s.ngenWait := by cases s; rfl
@[simp] theorem setPw_rngOn (s : State) (m : Memory) (n : Nat) : (s.setPw m n).rngOn = s.rngOn := by cases s; rfl
@[simp] theorem setPw_rngDraws (s : State) (m : Memory) (n : Nat) : (s.setPw m n).rngDraws = s.rngDraws := by cases s; rfl

/-! ### setNonce -/

@[simp] theorem setNonce_regX (s : State) (m : Memory) (n : Byte) : (s.setNonce m n).regX = s.regX := by cases s; rfl
@[simp] theorem setNonce_regS (s : State) (m : Memory) (n : Byte) : (s.setNonce m n).regS = s.regS := by cases s; rfl
@[simp] theorem setNonce_pw (s : State) (m : Memory) (n : Byte) : (s.setNonce m n).pw = s.pw := by cases s; rfl
@[simp] theorem setNonce_pwlen (s : State) (m : Memory) (n : Byte) : (s.setNonce m n).pwlen = s.pwlen := by cases s; rfl
@[simp] theorem setNonce_nonce (s : State) (m : Memory) (n : Byte) : (s.setNonce m n).nonce = m := by cases s; rfl
@[simp] theorem setNonce_nlen (s : State) (m : Memory) (n : Byte) : (s.setNonce m n).nlen = n := by cases s; rfl
@[simp] theorem setNonce_pat (s : State) (m : Memory) (n : Byte) : (s.setNonce m n).pat = s.pat := by cases s; rfl
@[simp] theorem setNonce_plen (s : State) (m : Memory) (n : Byte) : (s.setNonce m n).plen = s.plen := by cases s; rfl
@[simp] theorem setNonce_grid (s : State) (m : Memory) (n : Byte) : (s.setNonce m n).grid = s.grid := by cases s; rfl
@[simp] theorem setNonce_pp (s : State) (m : Memory) (n : Byte) : (s.setNonce m n).pp = s.pp := by cases s; rfl
@[simp] theorem setNonce_phase (s : State) (m : Memory) (n : Byte) : (s.setNonce m n).phase = s.phase := by cases s; rfl
@[simp] theorem setNonce_err (s : State) (m : Memory) (n : Byte) : (s.setNonce m n).err = s.err := by cases s; rfl
@[simp] theorem setNonce_einfo (s : State) (m : Memory) (n : Byte) : (s.setNonce m n).einfo = s.einfo := by cases s; rfl
@[simp] theorem setNonce_out (s : State) (m : Memory) (n : Byte) : (s.setNonce m n).out = s.out := by cases s; rfl
@[simp] theorem setNonce_cmdIn (s : State) (m : Memory) (n : Byte) : (s.setNonce m n).cmdIn = s.cmdIn := by cases s; rfl
@[simp] theorem setNonce_ngenWait (s : State) (m : Memory) (n : Byte) : (s.setNonce m n).ngenWait = s.ngenWait := by cases s; rfl
@[simp] theorem setNonce_rngOn (s : State) (m : Memory) (n : Byte) : (s.setNonce m n).rngOn = s.rngOn := by cases s; rfl
@[simp] theorem setNonce_rngDraws (s : State) (m : Memory) (n : Byte) : (s.setNonce m n).rngDraws = s.rngDraws := by cases s; rfl

/-! ### setNlen -/

@[simp] theorem setNlen_regX (s : State) (n : Byte) : (s.setNlen n).regX = s.regX := by cases s; rfl
@[simp] theorem setNlen_regS (s : State) (n : Byte) : (s.setNlen n).regS = s.regS := by cases s; rfl
@[simp] theorem setNlen_pw (s : State) (n : Byte) : (s.setNlen n).pw = s.pw := by cases s; rfl
@[simp] theorem setNlen_pwlen (s : State) (n : Byte) : (s.setNlen n).pwlen = s.pwlen := by cases s; rfl
@[simp] theorem setNlen_nonce (s : State) (n : Byte) : (s.setNlen n).nonce = s.nonce := by cases s; rfl
@[simp] theorem setNlen_nlen (s : State) (n : Byte) : (s.setNlen n).nlen = n := by cases s; rfl
@[simp] theorem setNlen_pat (s : State) (n : Byte) : (s.setNlen n).pat = s.pat := by cases s; rfl
@[simp] theorem setNlen_plen (s : State) (n : Byte) : (s.setNlen n).plen = s.plen := by cases s; rfl
@[simp] theorem setNlen_grid (s : State) (n : Byte) : (s.setNlen n).grid = s.grid := by cases s; rfl
@[simp] theorem setNlen_pp (s : State) (n : Byte) : (s.setNlen n).pp = s.pp := by cases s; rfl
@[simp] theorem setNlen_phase (s : State) (n : Byte) : (s.setNlen n).phase = s.phase := by cases s; rfl
@[simp] theorem setNlen_err (s : State) (n : Byte) : (s.setNlen n).err = s.err := by cases s; rfl
@[simp] theorem setNlen_einfo (s : State) (n : Byte) : (s.setNlen n).einfo = s.einfo := by cases s; rfl
@[simp] theorem setNlen_out (s : State) (n : Byte) : (s.setNlen n).out = s.out := by cases s; rfl
@[simp] theorem setNlen_cmdIn (s : State) (n : Byte) : (s.setNlen n).cmdIn = s.cmdIn := by cases s; rfl
@[simp] theorem setNlen_ngenWait (s : State) (n : Byte) : (s.setNlen n).ngenWait = s.ngenWait := by cases s; rfl
@[simp] theorem setNlen_rngOn (s : State) (n : Byte) : (s.setNlen n).rngOn = s.rngOn := by cases s; rfl
@[simp] theorem setNlen_rngDraws (s : State) (n : Byte) : (s.setNlen n).rngDraws = s.rngDraws := by cases s; rfl

/-! ### setPattern -/

@[simp] theorem setPattern_regX (s : State) (m : Memory) (n : Byte) : (s.setPattern m n).regX = s.regX := by cases s; rfl
@[simp] theorem setPattern_regS (s : State) (m : Memory) (n : Byte) : (s.setPattern m n).regS = s.regS := by cases s; rfl
@[simp] theorem setPattern_pw (s : State) (m : Memory) (n : Byte) : (s.setPattern m n).pw = s.pw := by cases s; rfl
@[simp] theorem setPattern_pwlen (s : State) (m : Memory) (n : Byte) : (s.setPattern m n).pwlen = s.pwlen := by cases s; rfl
@[simp] theorem setPattern_nonce (s : State) (m : Memory) (n : Byte) : (s.setPattern m n).nonce = s.nonce := by cases s; rfl
@[simp] theorem setPattern_nlen (s : State) (m : Memory) (n : Byte) : (s.setPattern m n).nlen = s.nlen := by cases s; rfl
@[simp] theorem setPattern_pat (s : State) (m : Memory) (n : Byte) : (s.setPattern m n).pat = m := by cases s; rfl
@[simp] theorem setPattern_plen (s : State) (m : Memory) (n : Byte) : (s.setPattern m n).plen = n := by cases s; rfl
@[simp] theorem setPattern_grid (s : State) (m : Memory) (n : Byte) : (s.setPattern m n).grid = s.grid := by cases s; rfl
@[simp] theorem setPattern_pp (s : State) (m : Memory) (n : Byte) : (s.setPattern m n).pp = s.pp := by cases s; rfl
@[simp] theorem setPattern_phase (s : State) (m : Memory) (n : Byte) : (s.setPattern m n).phase = s.phase := by cases s; rfl
@[simp] theorem setPattern_err (s : State) (m : Memory) (n : Byte) : (s.setPattern m n).err = s.err := by cases s; rfl
@[simp] theorem setPattern_einfo (s : State) (m : Memory) (n : Byte) : (s.setPattern m n).einfo = s.einfo := by cases s; rfl
@[simp] theorem setPattern_out (s : State) (m : Memory) (n : Byte) : (s.setPattern m n).out = s.out := by cases s; rfl
@[simp] theorem setPattern_cmdIn (s : State) (m : Memory) (n : Byte) : (s.setPattern m n).cmdIn = s.cmdIn := by cases s; rfl
@[simp] theorem setPattern_ngenWait (s : State) (m : Memory) (n : Byte) : (s.setPattern m n).ngenWait = s.ngenWait := by cases s; rfl
@[simp] theorem setPattern_rngOn (s : State) (m : Memory) (n : Byte) : (s.setPattern m n).rngOn = s.rngOn := by cases s; rfl
@[simp] theorem setPattern_rngDraws (s : State) (m : Memory) (n : Byte) : (s.setPattern m n).rngDraws = s.rngDraws := by cases s; rfl

/-! ### setGrid -/

@[simp] theorem setGrid_regX (s : State) (m : Memory) (x : Word64) : (s.setGrid m x).regX = x := by cases s; rfl
@[simp] theorem setGrid_regS (s : State) (m : Memory) (x : Word64) : (s.setGrid m x).regS = s.regS := by cases s; rfl
@[simp] theorem setGrid_pw (s : State) (m : Memory) (x : Word64) : (s.setGrid m x).pw = s.pw := by cases s; rfl
@[simp] theorem setGrid_pwlen (s : State) (m : Memory) (x : Word64) : (s.setGrid m x).pwlen = s.pwlen := by cases s; rfl
@[simp] theorem setGrid_nonce (s : State) (m : Memory) (x : Word64) : (s.setGrid m x).nonce = s.nonce := by cases s; rfl
@[simp] theorem setGrid_nlen (s : State) (m : Memory) (x : Word64) : (s.setGrid m x).nlen = s.nlen := by cases s; rfl
@[simp] theorem setGrid_pat (s : State) (m : Memory) (x : Word64) : (s.setGrid m x).pat = s.pat := by cases s; rfl
@[simp] theorem setGrid_plen (s : State) (m : Memory) (x : Word64) : (s.setGrid m x).plen = s.plen := by cases s; rfl
@[simp] theorem setGrid_grid (s : State) (m : Memory) (x : Word64) : (s.setGrid m x).grid = m := by cases s; rfl
@[simp] theorem setGrid_pp (s : State) (m : Memory) (x : Word64) : (s.setGrid m x).pp = s.pp := by cases s; rfl
@[simp] theorem setGrid_phase (s : State) (m : Memory) (x : Word64) : (s.setGrid m x).phase = s.phase := by cases s; rfl
@[simp] theorem setGrid_err (s : State) (m : Memory) (x : Word64) : (s.setGrid m x).err = s.err := by cases s; rfl
@[simp] theorem setGrid_einfo (s : State) (m : Memory) (x : Word64) : (s.setGrid m x).einfo = s.einfo := by cases s; rfl
@[simp] theorem setGrid_out (s : State) (m : Memory) (x : Word64) : (s.setGrid m x).out = s.out := by cases s; rfl
@[simp] theorem setGrid_cmdIn (s : State) (m : Memory) (x : Word64) : (s.setGrid m x).cmdIn = s.cmdIn := by cases s; rfl
@[simp] theorem setGrid_ngenWait (s : State) (m : Memory) (x : Word64) : (s.setGrid m x).ngenWait = s.ngenWait := by cases s; rfl
@[simp] theorem setGrid_rngOn (s : State) (m : Memory) (x : Word64) : (s.setGrid m x).rngOn = s.rngOn := by cases s; rfl
@[simp] theorem setGrid_rngDraws (s : State) (m : Memory) (x : Word64) : (s.setGrid m x).rngDraws = s.rngDraws := by cases s; rfl

/-! ### setPp -/

@[simp] theorem setPp_regX (s : State) (p : Byte) : (s.setPp p).regX = s.regX := by cases s; rfl
@[simp] theorem setPp_regS (s : State) (p : Byte) : (s.setPp p).regS = s.regS := by cases s; rfl
@[simp] theorem setPp_pw (s : State) (p : Byte) : (s.setPp p).pw = s.pw := by cases s; rfl
@[simp] theorem setPp_pwlen (s : State) (p : Byte) : (s.setPp p).pwlen = s.pwlen := by cases s; rfl
@[simp] theorem setPp_nonce (s : State) (p : Byte) : (s.setPp p).nonce = s.nonce := by cases s; rfl
@[simp] theorem setPp_nlen (s : State) (p : Byte) : (s.setPp p).nlen = s.nlen := by cases s; rfl
@[simp] theorem setPp_pat (s : State) (p : Byte) : (s.setPp p).pat = s.pat := by cases s; rfl
@[simp] theorem setPp_plen (s : State) (p : Byte) : (s.setPp p).plen = s.plen := by cases s; rfl
@[simp] theorem setPp_grid (s : State) (p : Byte) : (s.setPp p).grid = s.grid := by cases s; rfl
@[simp] theorem setPp_pp (s : State) (p : Byte) : (s.setPp p).pp = p := by cases s; rfl
@[simp] theorem setPp_phase (s : State) (p : Byte) : (s.setPp p).phase = s.phase := by cases s; rfl
@[simp] theorem setPp_err (s : State) (p : Byte) : (s.setPp p).err = s.err := by cases s; rfl
@[simp] theorem setPp_einfo (s : State) (p : Byte) : (s.setPp p).einfo = s.einfo := by cases s; rfl
@[simp] theorem setPp_out (s : State) (p : Byte) : (s.setPp p).out = s.out := by cases s; rfl
@[simp] theorem setPp_cmdIn (s : State) (p : Byte) : (s.setPp p).cmdIn = s.cmdIn := by cases s; rfl
@[simp] theorem setPp_ngenWait (s : State) (p : Byte) : (s.setPp p).ngenWait = s.ngenWait := by cases s; rfl
@[simp] theorem setPp_rngOn (s : State) (p : Byte) : (s.setPp p).rngOn = s.rngOn := by cases s; rfl
@[simp] theorem setPp_rngDraws (s : State) (p : Byte) : (s.setPp p).rngDraws = s.rngDraws := by cases s; rfl

/-! ### setPhase -/

@[simp] theorem setPhase_regX (s : State) (p : Phase) : (s.setPhase p).regX = s.regX := by cases s; rfl
@[simp] theorem setPhase_regS (s : State) (p : Phase) : (s.setPhase p).regS = s.regS := by cases s; rfl
@[simp] theorem setPhase_pw (s : State) (p : Phase) : (s.setPhase p).pw = s.pw := by cases s; rfl
@[simp] theorem setPhase_pwlen (s : State) (p : Phase) : (s.setPhase p).pwlen = s.pwlen := by cases s; rfl
@[simp] theorem setPhase_nonce (s : State) (p : Phase) : (s.setPhase p).nonce = s.nonce := by cases s; rfl
@[simp] theorem setPhase_nlen (s : State) (p : Phase) : (s.setPhase p).nlen = s.nlen := by cases s; rfl
@[simp] theorem setPhase_pat (s : State) (p : Phase) : (s.setPhase p).pat = s.pat := by cases s; rfl
@[simp] theorem setPhase_plen (s : State) (p : Phase) : (s.setPhase p).plen = s.plen := by cases s; rfl
@[simp] theorem setPhase_grid (s : State) (p : Phase) : (s.setPhase p).grid = s.grid := by cases s; rfl
@[simp] theorem setPhase_pp (s : State) (p : Phase) : (s.setPhase p).pp = s.pp := by cases s; rfl
@[simp] theorem setPhase_phase (s : State) (p : Phase) : (s.setPhase p).phase = p := by cases s; rfl
@[simp] theorem setPhase_err (s : State) (p : Phase) : (s.setPhase p).err = s.err := by cases s; rfl
@[simp] theorem setPhase_einfo (s : State) (p : Phase) : (s.setPhase p).einfo = s.einfo := by cases s; rfl
@[simp] theorem setPhase_out (s : State) (p : Phase) : (s.setPhase p).out = s.out := by cases s; rfl
@[simp] theorem setPhase_cmdIn (s : State) (p : Phase) : (s.setPhase p).cmdIn = s.cmdIn := by cases s; rfl
@[simp] theorem setPhase_ngenWait (s : State) (p : Phase) : (s.setPhase p).ngenWait = s.ngenWait := by cases s; rfl
@[simp] theorem setPhase_rngOn (s : State) (p : Phase) : (s.setPhase p).rngOn = s.rngOn := by cases s; rfl
@[simp] theorem setPhase_rngDraws (s : State) (p : Phase) : (s.setPhase p).rngDraws = s.rngDraws := by cases s; rfl

/-! ### setRng -/

@[simp] theorem setRng_regX (s : State) (n : Nat) (w : Bool) : (s.setRng n w).regX = s.regX := by cases s; rfl
@[simp] theorem setRng_regS (s : State) (n : Nat) (w : Bool) : (s.setRng n w).regS = s.regS := by cases s; rfl
@[simp] theorem setRng_pw (s : State) (n : Nat) (w : Bool) : (s.setRng n w).pw = s.pw := by cases s; rfl
@[simp] theorem setRng_pwlen (s : State) (n : Nat) (w : Bool) : (s.setRng n w).pwlen = s.pwlen := by cases s; rfl
@[simp] theorem setRng_nonce (s : State) (n : Nat) (w : Bool) : (s.setRng n w).nonce = s.nonce := by cases s; rfl
@[simp] theorem setRng_nlen (s : State) (n : Nat) (w : Bool) : (s.setRng n w).nlen = s.nlen := by cases s; rfl
@[simp] theorem setRng_pat (s : State) (n : Nat) (w : Bool) : (s.setRng n w).pat = s.pat := by cases s; rfl
@[simp] theorem setRng_plen (s : State) (n : Nat) (w : Bool) : (s.setRng n w).plen = s.plen := by cases s; rfl
@[simp] theorem setRng_grid (s : State) (n : Nat) (w : Bool) : (s.setRng n w).grid = s.grid := by cases s; rfl
@[simp] theorem setRng_pp (s : State) (n : Nat) (w : Bool) : (s.setRng n w).pp = s.pp := by cases s; rfl
@[simp] theorem setRng_phase (s : State) (n : Nat) (w : Bool) : (s.setRng n w).phase = s.phase := by cases s; rfl
@[simp] theorem setRng_err (s : State) (n : Nat) (w : Bool) : (s.setRng n w).err = s.err := by cases s; rfl
@[simp] theorem setRng_einfo (s : State) (n : Nat) (w : Bool) : (s.setRng n w).einfo = s.einfo := by cases s; rfl
@[simp] theorem setRng_out (s : State) (n : Nat) (w : Bool) : (s.setRng n w).out = s.out := by cases s; rfl
@[simp] theorem setRng_cmdIn (s : State) (n : Nat) (w : Bool) : (s.setRng n w).cmdIn = s.cmdIn := by cases s; rfl
@[simp] theorem setRng_ngenWait (s : State) (n : Nat) (w : Bool) : (s.setRng n w).ngenWait = w := by cases s; rfl
@[simp] theorem setRng_rngOn (s : State) (n : Nat) (w : Bool) : (s.setRng n w).rngOn = s.rngOn := by cases s; rfl
@[simp] theorem setRng_rngDraws (s : State) (n : Nat) (w : Bool) : (s.setRng n w).rngDraws = n := by cases s; rfl

/-! ### setCmdIn -/

@[simp] theorem setCmdIn_regX (s : State) (ws : List Word) : (s.setCmdIn ws).regX = s.regX := by cases s; rfl
@[simp] theorem setCmdIn_regS (s : State) (ws : List Word) : (s.setCmdIn ws).regS = s.regS := by cases s; rfl
@[simp] theorem setCmdIn_pw (s : State) (ws : List Word) : (s.setCmdIn ws).pw = s.pw := by cases s; rfl
@[simp] theorem setCmdIn_pwlen (s : State) (ws : List Word) : (s.setCmdIn ws).pwlen = s.pwlen := by cases s; rfl
@[simp] theorem setCmdIn_nonce (s : State) (ws : List Word) : (s.setCmdIn ws).nonce = s.nonce := by cases s; rfl
@[simp] theorem setCmdIn_nlen (s : State) (ws : List Word) : (s.setCmdIn ws).nlen = s.nlen := by cases s; rfl
@[simp] theorem setCmdIn_pat (s : State) (ws : List Word) : (s.setCmdIn ws).pat = s.pat := by cases s; rfl
@[simp] theorem setCmdIn_plen (s : State) (ws : List Word) : (s.setCmdIn ws).plen = s.plen := by cases s; rfl
@[simp] theorem setCmdIn_grid (s : State) (ws : List Word) : (s.setCmdIn ws).grid = s.grid := by cases s; rfl
@[simp] theorem setCmdIn_pp (s : State) (ws : List Word) : (s.setCmdIn ws).pp = s.pp := by cases s; rfl
@[simp] theorem setCmdIn_phase (s : State) (ws : List Word) : (s.setCmdIn ws).phase = s.phase := by cases s; rfl
@[simp] theorem setCmdIn_err (s : State) (ws : List Word) : (s.setCmdIn ws).err = s.err := by cases s; rfl
@[simp] theorem setCmdIn_einfo (s : State) (ws : List Word) : (s.setCmdIn ws).einfo = s.einfo := by cases s; rfl
@[simp] theorem setCmdIn_out (s : State) (ws : List Word) : (s.setCmdIn ws).out = s.out := by cases s; rfl
@[simp] theorem setCmdIn_cmdIn (s : State) (ws : List Word) : (s.setCmdIn ws).cmdIn = ws := by cases s; rfl
@[simp] theorem setCmdIn_ngenWait (s : State) (ws : List Word) : (s.setCmdIn ws).ngenWait = s.ngenWait := by cases s; rfl
@[simp] theorem setCmdIn_rngOn (s : State) (ws : List Word) : (s.setCmdIn ws).rngOn = s.rngOn := by cases s; rfl
@[simp] theorem setCmdIn_rngDraws (s : State) (ws : List Word) : (s.setCmdIn ws).rngDraws = s.rngDraws := by cases s; rfl

/-! ### push -/

@[simp] theorem push_regX (s : State) (b : Byte) : (s.push b).regX = s.regX := by cases s; rfl
@[simp] theorem push_regS (s : State) (b : Byte) : (s.push b).regS = s.regS := by cases s; rfl
@[simp] theorem push_pw (s : State) (b : Byte) : (s.push b).pw = s.pw := by cases s; rfl
@[simp] theorem push_pwlen (s : State) (b : Byte) : (s.push b).pwlen = s.pwlen := by cases s; rfl
@[simp] theorem push_nonce (s : State) (b : Byte) : (s.push b).nonce = s.nonce := by cases s; rfl
@[simp] theorem push_nlen (s : State) (b : Byte) : (s.push b).nlen = s.nlen := by cases s; rfl
@[simp] theorem push_pat (s : State) (b : Byte) : (s.push b).pat = s.pat := by cases s; rfl
@[simp] theorem push_plen (s : State) (b : Byte) : (s.push b).plen = s.plen := by cases s; rfl
@[simp] theorem push_grid (s : State) (b : Byte) : (s.push b).grid = s.grid := by cases s; rfl
@[simp] theorem push_pp (s : State) (b : Byte) : (s.push b).pp = s.pp := by cases s; rfl
@[simp] theorem push_phase (s : State) (b : Byte) : (s.push b).phase = s.phase := by cases s; rfl
@[simp] theorem push_err (s : State) (b : Byte) : (s.push b).err = s.err := by cases s; rfl
@[simp] theorem push_einfo (s : State) (b : Byte) : (s.push b).einfo = s.einfo := by cases s; rfl
@[simp] theorem push_out (s : State) (b : Byte) : (s.push b).out = s.out ++ [b] := by cases s; rfl
@[simp] theorem push_cmdIn (s : State) (b : Byte) : (s.push b).cmdIn = s.cmdIn := by cases s; rfl
@[simp] theorem push_ngenWait (s : State) (b : Byte) : (s.push b).ngenWait = s.ngenWait := by cases s; rfl
@[simp] theorem push_rngOn (s : State) (b : Byte) : (s.push b).rngOn = s.rngOn := by cases s; rfl
@[simp] theorem push_rngDraws (s : State) (b : Byte) : (s.push b).rngDraws = s.rngDraws := by cases s; rfl

/-! ### pushAll -/

@[simp] theorem pushAll_regX (s : State) (bs : List Byte) : (s.pushAll bs).regX = s.regX := by cases s; rfl
@[simp] theorem pushAll_regS (s : State) (bs : List Byte) : (s.pushAll bs).regS = s.regS := by cases s; rfl
@[simp] theorem pushAll_pw (s : State) (bs : List Byte) : (s.pushAll bs).pw = s.pw := by cases s; rfl
@[simp] theorem pushAll_pwlen (s : State) (bs : List Byte) : (s.pushAll bs).pwlen = s.pwlen := by cases s; rfl
@[simp] theorem pushAll_nonce (s : State) (bs : List Byte) : (s.pushAll bs).nonce = s.nonce := by cases s; rfl
@[simp] theorem pushAll_nlen (s : State) (bs : List Byte) : (s.pushAll bs).nlen = s.nlen := by cases s; rfl
@[simp] theorem pushAll_pat (s : State) (bs : List Byte) : (s.pushAll bs).pat = s.pat := by cases s; rfl
@[simp] theorem pushAll_plen (s : State) (bs : List Byte) : (s.pushAll bs).plen = s.plen := by cases s; rfl
@[simp] theorem pushAll_grid (s : State) (bs : List Byte) : (s.pushAll bs).grid = s.grid := by cases s; rfl
@[simp] theorem pushAll_pp (s : State) (bs : List Byte) : (s.pushAll bs).pp = s.pp := by cases s; rfl
@[simp] theorem pushAll_phase (s : State) (bs : List Byte) : (s.pushAll bs).phase = s.phase := by cases s; rfl
@[simp] theorem pushAll_err (s : State) (bs : List Byte) : (s.pushAll bs).err = s.err := by cases s; rfl
@[simp] theorem pushAll_einfo (s : State) (bs : List Byte) : (s.pushAll bs).einfo = s.einfo := by cases s; rfl
@[simp] theorem pushAll_out (s : State) (bs : List Byte) : (s.pushAll bs).out = s.out ++ bs := by cases s; rfl
@[simp] theorem pushAll_cmdIn (s : State) (bs : List Byte) : (s.pushAll bs).cmdIn = s.cmdIn := by cases s; rfl
@[simp] theorem pushAll_ngenWait (s : State) (bs : List Byte) : (s.pushAll bs).ngenWait = s.ngenWait := by cases s; rfl
@[simp] theorem pushAll_rngOn (s : State) (bs : List Byte) : (s.pushAll bs).rngOn = s.rngOn := by cases s; rfl
@[simp] theorem pushAll_rngDraws (s : State) (bs : List Byte) : (s.pushAll bs).rngDraws = s.rngDraws := by cases s; rfl

/-! ### raise -/

@[simp] theorem raise_regX (e : Err) (w : Word) (s : State) : (raise e w s).regX = 0 := by cases s; rfl
@[simp] theorem raise_regS (e : Err) (w : Word) (s : State) : (raise e w s).regS = s.regS := by cases s; rfl
@[simp] theorem raise_pw (e : Err) (w : Word) (s : State) : (raise e w s).pw = s.pw := by cases s; rfl
@[simp] theorem raise_pwlen (e : Err) (w : Word) (s : State) : (raise e w s).pwlen = s.pwlen := by cases s; rfl
@[simp] theorem raise_nonce (e : Err) (w : Word) (s : State) : (raise e w s).nonce = s.nonce := by cases s; rfl
@[simp] theorem raise_nlen (e : Err) (w : Word) (s : State) : (raise e w s).nlen = 0 := by cases s; rfl
@[simp] theorem raise_pat (e : Err) (w : Word) (s : State) : (raise e w s).pat = s.pat := by cases s; rfl
@[simp] theorem raise_plen (e : Err) (w : Word) (s : State) : (raise e w s).plen = 0 := by cases s; rfl
@[simp] theorem raise_grid (e : Err) (w : Word) (s : State) : (raise e w s).grid = s.grid := by cases s; rfl
@[simp] theorem raise_pp (e : Err) (w : Word) (s : State) : (raise e w s).pp = 0 := by cases s; rfl
@[simp] theorem raise_phase (e : Err) (w : Word) (s : State) : (raise e w s).phase = .fault := by cases s; rfl
@[simp] theorem raise_err (e : Err) (w : Word) (s : State) : (raise e w s).err = e := by cases s; rfl
@[simp] theorem raise_einfo (e : Err) (w : Word) (s : State) : (raise e w s).einfo = w := by cases s; rfl
@[simp] theorem raise_out (e : Err) (w : Word) (s : State) : (raise e w s).out = s.out := by cases s; rfl
@[simp] theorem raise_cmdIn (e : Err) (w : Word) (s : State) : (raise e w s).cmdIn = s.cmdIn := by cases s; rfl
@[simp] theorem raise_ngenWait (e : Err) (w : Word) (s : State) : (raise e w s).ngenWait = s.ngenWait := by cases s; rfl
@[simp] theorem raise_rngOn (e : Err) (w : Word) (s : State) : (raise e w s).rngOn = s.rngOn := by cases s; rfl
@[simp] theorem raise_rngDraws (e : Err) (w : Word) (s : State) : (raise e w s).rngDraws = s.rngDraws := by cases s; rfl

/-! ### resetBlock -/

@[simp] theorem resetBlock_regX (s : State) : (resetBlock s).regX = 0 := by cases s; rfl
@[simp] theorem resetBlock_regS (s : State) : (resetBlock s).regS = 0 := by cases s; rfl
@[simp] theorem resetBlock_pw (s : State) : (resetBlock s).pw = [] := by cases s; rfl
@[simp] theorem resetBlock_pwlen (s : State) : (resetBlock s).pwlen = 0 := by cases s; rfl
@[simp] theorem resetBlock_nonce (s : State) : (resetBlock s).nonce = [] := by cases s; rfl
@[simp] theorem resetBlock_nlen (s : State) : (resetBlock s).nlen = 0 := by cases s; rfl
@[simp] theorem resetBlock_pat (s : State) : (resetBlock s).pat = [] := by cases s; rfl
@[simp] theorem resetBlock_plen (s : State) : (resetBlock s).plen = 0 := by cases s; rfl
@[simp] theorem resetBlock_grid (s : State) : (resetBlock s).grid = [] := by cases s; rfl
@[simp] theorem resetBlock_pp (s : State) : (resetBlock s).pp = 0 := by cases s; rfl
@[simp] theorem resetBlock_phase (s : State) : (resetBlock s).phase = .idle := by cases s; rfl
@[simp] theorem resetBlock_err (s : State) : (resetBlock s).err = .none := by cases s; rfl
@[simp] theorem resetBlock_einfo (s : State) : (resetBlock s).einfo = 0 := by cases s; rfl
@[simp] theorem resetBlock_out (s : State) : (resetBlock s).out = [] := by cases s; rfl
@[simp] theorem resetBlock_cmdIn (s : State) : (resetBlock s).cmdIn = s.cmdIn := by cases s; rfl
@[simp] theorem resetBlock_ngenWait (s : State) : (resetBlock s).ngenWait = false := by cases s; rfl
@[simp] theorem resetBlock_rngOn (s : State) : (resetBlock s).rngOn = s.rngOn := by cases s; rfl
@[simp] theorem resetBlock_rngDraws (s : State) : (resetBlock s).rngDraws = s.rngDraws := by cases s; rfl

/-! ## The operations -/

/-! ### prgSeed -/

@[simp] theorem prgSeed_regX (n : Nat) (s : State) : (prgSeed n s).regX = BitVec.ofNat 64 n := by simp only [prgSeed, setX_regX]
@[simp] theorem prgSeed_regS (n : Nat) (s : State) : (prgSeed n s).regS = s.regS := by simp only [prgSeed, setX_regS]
@[simp] theorem prgSeed_pw (n : Nat) (s : State) : (prgSeed n s).pw = s.pw := by simp only [prgSeed, setX_pw]
@[simp] theorem prgSeed_pwlen (n : Nat) (s : State) : (prgSeed n s).pwlen = s.pwlen := by simp only [prgSeed, setX_pwlen]
@[simp] theorem prgSeed_nonce (n : Nat) (s : State) : (prgSeed n s).nonce = s.nonce := by simp only [prgSeed, setX_nonce]
@[simp] theorem prgSeed_nlen (n : Nat) (s : State) : (prgSeed n s).nlen = s.nlen := by simp only [prgSeed, setX_nlen]
@[simp] theorem prgSeed_pat (n : Nat) (s : State) : (prgSeed n s).pat = s.pat := by simp only [prgSeed, setX_pat]
@[simp] theorem prgSeed_plen (n : Nat) (s : State) : (prgSeed n s).plen = s.plen := by simp only [prgSeed, setX_plen]
@[simp] theorem prgSeed_grid (n : Nat) (s : State) : (prgSeed n s).grid = s.grid := by simp only [prgSeed, setX_grid]
@[simp] theorem prgSeed_pp (n : Nat) (s : State) : (prgSeed n s).pp = s.pp := by simp only [prgSeed, setX_pp]
@[simp] theorem prgSeed_phase (n : Nat) (s : State) : (prgSeed n s).phase = s.phase := by simp only [prgSeed, setX_phase]
@[simp] theorem prgSeed_err (n : Nat) (s : State) : (prgSeed n s).err = s.err := by simp only [prgSeed, setX_err]
@[simp] theorem prgSeed_einfo (n : Nat) (s : State) : (prgSeed n s).einfo = s.einfo := by simp only [prgSeed, setX_einfo]
@[simp] theorem prgSeed_out (n : Nat) (s : State) : (prgSeed n s).out = s.out := by simp only [prgSeed, setX_out]
@[simp] theorem prgSeed_cmdIn (n : Nat) (s : State) : (prgSeed n s).cmdIn = s.cmdIn := by simp only [prgSeed, setX_cmdIn]
@[simp] theorem prgSeed_ngenWait (n : Nat) (s : State) : (prgSeed n s).ngenWait = s.ngenWait := by simp only [prgSeed, setX_ngenWait]
@[simp] theorem prgSeed_rngOn (n : Nat) (s : State) : (prgSeed n s).rngOn = s.rngOn := by simp only [prgSeed, setX_rngOn]
@[simp] theorem prgSeed_rngDraws (n : Nat) (s : State) : (prgSeed n s).rngDraws = s.rngDraws := by simp only [prgSeed, setX_rngDraws]

/-! ### draw -/

@[simp] theorem draw_regX (s : State) : (draw s).2.regX = prgStep s.regX := by simp only [draw, setX_regX]
@[simp] theorem draw_regS (s : State) : (draw s).2.regS = s.regS := by simp only [draw, setX_regS]
@[simp] theorem draw_pw (s : State) : (draw s).2.pw = s.pw := by simp only [draw, setX_pw]
@[simp] theorem draw_pwlen (s : State) : (draw s).2.pwlen = s.pwlen := by simp only [draw, setX_pwlen]
@[simp] theorem draw_nonce (s : State) : (draw s).2.nonce = s.nonce := by simp only [draw, setX_nonce]
@[simp] theorem draw_nlen (s : State) : (draw s).2.nlen = s.nlen := by simp only [draw, setX_nlen]
@[simp] theorem draw_pat (s : State) : (draw s).2.pat = s.pat := by simp only [draw, setX_pat]
@[simp] theorem draw_plen (s : State) : (draw s).2.plen = s.plen := by simp only [draw, setX_plen]
@[simp] theorem draw_grid (s : State) : (draw s).2.grid = s.grid := by simp only [draw, setX_grid]
@[simp] theorem draw_pp (s : State) : (draw s).2.pp = s.pp := by simp only [draw, setX_pp]
@[simp] theorem draw_phase (s : State) : (draw s).2.phase = s.phase := by simp only [draw, setX_phase]
@[simp] theorem draw_err (s : State) : (draw s).2.err = s.err := by simp only [draw, setX_err]
@[simp] theorem draw_einfo (s : State) : (draw s).2.einfo = s.einfo := by simp only [draw, setX_einfo]
@[simp] theorem draw_out (s : State) : (draw s).2.out = s.out := by simp only [draw, setX_out]
@[simp] theorem draw_cmdIn (s : State) : (draw s).2.cmdIn = s.cmdIn := by simp only [draw, setX_cmdIn]
@[simp] theorem draw_ngenWait (s : State) : (draw s).2.ngenWait = s.ngenWait := by simp only [draw, setX_ngenWait]
@[simp] theorem draw_rngOn (s : State) : (draw s).2.rngOn = s.rngOn := by simp only [draw, setX_rngOn]
@[simp] theorem draw_rngDraws (s : State) : (draw s).2.rngDraws = s.rngDraws := by simp only [draw, setX_rngDraws]

/-! ### loadSeedByte -/

@[simp] theorem loadSeedByte_regX (b : Byte) (s : State) : (loadSeedByte b s).regX = s.regX := by simp only [loadSeedByte, setS_regX]
@[simp] theorem loadSeedByte_regS (b : Byte) (s : State) : (loadSeedByte b s).regS = (s.regS <<< 8) + immTo64 b := by simp only [loadSeedByte, setS_regS]
@[simp] theorem loadSeedByte_pw (b : Byte) (s : State) : (loadSeedByte b s).pw = s.pw := by simp only [loadSeedByte, setS_pw]
@[simp] theorem loadSeedByte_pwlen (b : Byte) (s : State) : (loadSeedByte b s).pwlen = s.pwlen := by simp only [loadSeedByte, setS_pwlen]
@[simp] theorem loadSeedByte_nonce (b : Byte) (s : State) : (loadSeedByte b s).nonce = s.nonce := by simp only [loadSeedByte, setS_nonce]
@[simp] theorem loadSeedByte_nlen (b : Byte) (s : State) : (loadSeedByte b s).nlen = s.nlen := by simp only [loadSeedByte, setS_nlen]
@[simp] theorem loadSeedByte_pat (b : Byte) (s : State) : (loadSeedByte b s).pat = s.pat := by simp only [loadSeedByte, setS_pat]
@[simp] theorem loadSeedByte_plen (b : Byte) (s : State) : (loadSeedByte b s).plen = s.plen := by simp only [loadSeedByte, setS_plen]
@[simp] theorem loadSeedByte_grid (b : Byte) (s : State) : (loadSeedByte b s).grid = s.grid := by simp only [loadSeedByte, setS_grid]
@[simp] theorem loadSeedByte_pp (b : Byte) (s : State) : (loadSeedByte b s).pp = s.pp := by simp only [loadSeedByte, setS_pp]
@[simp] theorem loadSeedByte_phase (b : Byte) (s : State) : (loadSeedByte b s).phase = s.phase := by simp only [loadSeedByte, setS_phase]
@[simp] theorem loadSeedByte_err (b : Byte) (s : State) : (loadSeedByte b s).err = s.err := by simp only [loadSeedByte, setS_err]
@[simp] theorem loadSeedByte_einfo (b : Byte) (s : State) : (loadSeedByte b s).einfo = s.einfo := by simp only [loadSeedByte, setS_einfo]
@[simp] theorem loadSeedByte_out (b : Byte) (s : State) : (loadSeedByte b s).out = s.out := by simp only [loadSeedByte, setS_out]
@[simp] theorem loadSeedByte_cmdIn (b : Byte) (s : State) : (loadSeedByte b s).cmdIn = s.cmdIn := by simp only [loadSeedByte, setS_cmdIn]
@[simp] theorem loadSeedByte_ngenWait (b : Byte) (s : State) : (loadSeedByte b s).ngenWait = s.ngenWait := by simp only [loadSeedByte, setS_ngenWait]
@[simp] theorem loadSeedByte_rngOn (b : Byte) (s : State) : (loadSeedByte b s).rngOn = s.rngOn := by simp only [loadSeedByte, setS_rngOn]
@[simp] theorem loadSeedByte_rngDraws (b : Byte) (s : State) : (loadSeedByte b s).rngDraws = s.rngDraws := by simp only [loadSeedByte, setS_rngDraws]

/-! ### putDraw -/

@[simp] theorem putDraw_regX (s : State) : (putDraw s).regX = prgStep s.regX := by simp only [putDraw, push_regX, draw_regX]
@[simp] theorem putDraw_regS (s : State) : (putDraw s).regS = s.regS := by simp only [putDraw, push_regS, draw_regS]
@[simp] theorem putDraw_pw (s : State) : (putDraw s).pw = s.pw := by simp only [putDraw, push_pw, draw_pw]
@[simp] theorem putDraw_pwlen (s : State) : (putDraw s).pwlen = s.pwlen := by simp only [putDraw, push_pwlen, draw_pwlen]
@[simp] theorem putDraw_nonce (s : State) : (putDraw s).nonce = s.nonce := by simp only [putDraw, push_nonce, draw_nonce]
@[simp] theorem putDraw_nlen (s : State) : (putDraw s).nlen = s.nlen := by simp only [putDraw, push_nlen, draw_nlen]
@[simp] theorem putDraw_pat (s : State) : (putDraw s).pat = s.pat := by simp only [putDraw, push_pat, draw_pat]
@[simp] theorem putDraw_plen (s : State) : (putDraw s).plen = s.plen := by simp only [putDraw, push_plen, draw_plen]
@[simp] theorem putDraw_grid (s : State) : (putDraw s).grid = s.grid := by simp only [putDraw, push_grid, draw_grid]
@[simp] theorem putDraw_pp (s : State) : (putDraw s).pp = s.pp := by simp only [putDraw, push_pp, draw_pp]
@[simp] theorem putDraw_phase (s : State) : (putDraw s).phase = s.phase := by simp only [putDraw, push_phase, draw_phase]
@[simp] theorem putDraw_err (s : State) : (putDraw s).err = s.err := by simp only [putDraw, push_err, draw_err]
@[simp] theorem putDraw_einfo (s : State) : (putDraw s).einfo = s.einfo := by simp only [putDraw, push_einfo, draw_einfo]
@[simp] theorem putDraw_out (s : State) : (putDraw s).out = s.out ++ [(draw s).1] := by simp only [putDraw, push_out, draw_out]
@[simp] theorem putDraw_cmdIn (s : State) : (putDraw s).cmdIn = s.cmdIn := by simp only [putDraw, push_cmdIn, draw_cmdIn]
@[simp] theorem putDraw_ngenWait (s : State) : (putDraw s).ngenWait = s.ngenWait := by simp only [putDraw, push_ngenWait, draw_ngenWait]
@[simp] theorem putDraw_rngOn (s : State) : (putDraw s).rngOn = s.rngOn := by simp only [putDraw, push_rngOn, draw_rngOn]
@[simp] theorem putDraw_rngDraws (s : State) : (putDraw s).rngDraws = s.rngDraws := by simp only [putDraw, push_rngDraws, draw_rngDraws]

/-! ### putPerm -/

@[simp] theorem putPerm_regX (s : State) : (putPerm s).regX = (nextPerm s.regX).2 := by simp only [putPerm, pushAll_regX, setX_regX]
@[simp] theorem putPerm_regS (s : State) : (putPerm s).regS = s.regS := by simp only [putPerm, pushAll_regS, setX_regS]
@[simp] theorem putPerm_pw (s : State) : (putPerm s).pw = s.pw := by simp only [putPerm, pushAll_pw, setX_pw]
@[simp] theorem putPerm_pwlen (s : State) : (putPerm s).pwlen = s.pwlen := by simp only [putPerm, pushAll_pwlen, setX_pwlen]
@[simp] theorem putPerm_nonce (s : State) : (putPerm s).nonce = s.nonce := by simp only [putPerm, pushAll_nonce, setX_nonce]
@[simp] theorem putPerm_nlen (s : State) : (putPerm s).nlen = s.nlen := by simp only [putPerm, pushAll_nlen, setX_nlen]
@[simp] theorem putPerm_pat (s : State) : (putPerm s).pat = s.pat := by simp only [putPerm, pushAll_pat, setX_pat]
@[simp] theorem putPerm_plen (s : State) : (putPerm s).plen = s.plen := by simp only [putPerm, pushAll_plen, setX_plen]
@[simp] theorem putPerm_grid (s : State) : (putPerm s).grid = s.grid := by simp only [putPerm, pushAll_grid, setX_grid]
@[simp] theorem putPerm_pp (s : State) : (putPerm s).pp = s.pp := by simp only [putPerm, pushAll_pp, setX_pp]
@[simp] theorem putPerm_phase (s : State) : (putPerm s).phase = s.phase := by simp only [putPerm, pushAll_phase, setX_phase]
@[simp] theorem putPerm_err (s : State) : (putPerm s).err = s.err := by simp only [putPerm, pushAll_err, setX_err]
@[simp] theorem putPerm_einfo (s : State) : (putPerm s).einfo = s.einfo := by simp only [putPerm, pushAll_einfo, setX_einfo]
@[simp] theorem putPerm_out (s : State) : (putPerm s).out = s.out ++ (nextPerm s.regX).1 := by simp only [putPerm, pushAll_out, setX_out]
@[simp] theorem putPerm_cmdIn (s : State) : (putPerm s).cmdIn = s.cmdIn := by simp only [putPerm, pushAll_cmdIn, setX_cmdIn]
@[simp] theorem putPerm_ngenWait (s : State) : (putPerm s).ngenWait = s.ngenWait := by simp only [putPerm, pushAll_ngenWait, setX_ngenWait]
@[simp] theorem putPerm_rngOn (s : State) : (putPerm s).rngOn = s.rngOn := by simp only [putPerm, pushAll_rngOn, setX_rngOn]
@[simp] theorem putPerm_rngDraws (s : State) : (putPerm s).rngDraws = s.rngDraws := by simp only [putPerm, pushAll_rngDraws, setX_rngDraws]

/-! ### patNext -/

@[simp] theorem patNext_regX (s : State) : (patNext s).2.regX = s.regX := by simp only [patNext, setPp_regX]
@[simp] theorem patNext_regS (s : State) : (patNext s).2.regS = s.regS := by simp only [patNext, setPp_regS]
@[simp] theorem patNext_pw (s : State) : (patNext s).2.pw = s.pw := by simp only [patNext, setPp_pw]
@[simp] theorem patNext_pwlen (s : State) : (patNext s).2.pwlen = s.pwlen := by simp only [patNext, setPp_pwlen]
@[simp] theorem patNext_nonce (s : State) : (patNext s).2.nonce = s.nonce := by simp only [patNext, setPp_nonce]
@[simp] theorem patNext_nlen (s : State) : (patNext s).2.nlen = s.nlen := by simp only [patNext, setPp_nlen]
@[simp] theorem patNext_pat (s : State) : (patNext s).2.pat = s.pat := by simp only [patNext, setPp_pat]
@[simp] theorem patNext_plen (s : State) : (patNext s).2.plen = s.plen := by simp only [patNext, setPp_plen]
@[simp] theorem patNext_grid (s : State) : (patNext s).2.grid = s.grid := by simp only [patNext, setPp_grid]
@[simp] theorem patNext_pp (s : State) : (patNext s).2.pp = ppNext s.pp s.plen := by simp only [patNext, setPp_pp]
@[simp] theorem patNext_phase (s : State) : (patNext s).2.phase = s.phase := by simp only [patNext, setPp_phase]
@[simp] theorem patNext_err (s : State) : (patNext s).2.err = s.err := by simp only [patNext, setPp_err]
@[simp] theorem patNext_einfo (s : State) : (patNext s).2.einfo = s.einfo := by simp only [patNext, setPp_einfo]
@[simp] theorem patNext_out (s : State) : (patNext s).2.out = s.out := by simp only [patNext, setPp_out]
@[simp] theorem patNext_cmdIn (s : State) : (patNext s).2.cmdIn = s.cmdIn := by simp only [patNext, setPp_cmdIn]
@[simp] theorem patNext_ngenWait (s : State) : (patNext s).2.ngenWait = s.ngenWait := by simp only [patNext, setPp_ngenWait]
@[simp] theorem patNext_rngOn (s : State) : (patNext s).2.rngOn = s.rngOn := by simp only [patNext, setPp_rngOn]
@[simp] theorem patNext_rngDraws (s : State) : (patNext s).2.rngDraws = s.rngDraws := by simp only [patNext, setPp_rngDraws]

/-! ### nonceAppend -/

@[simp] theorem nonceAppend_regX (b : Byte) (s : State) : (nonceAppend b s).regX = s.regX := by simp only [nonceAppend, setNonce_regX]
@[simp] theorem nonceAppend_regS (b : Byte) (s : State) : (nonceAppend b s).regS = s.regS := by simp only [nonceAppend, setNonce_regS]
@[simp] theorem nonceAppend_pw (b : Byte) (s : State) : (nonceAppend b s).pw = s.pw := by simp only [nonceAppend, setNonce_pw]
@[simp] theorem nonceAppend_pwlen (b : Byte) (s : State) : (nonceAppend b s).pwlen = s.pwlen := by simp only [nonceAppend, setNonce_pwlen]
@[simp] theorem nonceAppend_nonce (b : Byte) (s : State) : (nonceAppend b s).nonce = s.nonce.write s.nlen.toNat b := by simp only [nonceAppend, setNonce_nonce]
@[simp] theorem nonceAppend_nlen (b : Byte) (s : State) : (nonceAppend b s).nlen = s.nlen + 1 := by simp only [nonceAppend, setNonce_nlen]
@[simp] theorem nonceAppend_pat (b : Byte) (s : State) : (nonceAppend b s).pat = s.pat := by simp only [nonceAppend, setNonce_pat]
@[simp] theorem nonceAppend_plen (b : Byte) (s : State) : (nonceAppend b s).plen = s.plen := by simp only [nonceAppend, setNonce_plen]
@[simp] theorem nonceAppend_grid (b : Byte) (s : State) : (nonceAppend b s).grid = s.grid := by simp only [nonceAppend, setNonce_grid]
@[simp] theorem nonceAppend_pp (b : Byte) (s : State) : (nonceAppend b s).pp = s.pp := by simp only [nonceAppend, setNonce_pp]
@[simp] theorem nonceAppend_phase (b : Byte) (s : State) : (nonceAppend b s).phase = s.phase := by simp only [nonceAppend, setNonce_phase]
@[simp] theorem nonceAppend_err (b : Byte) (s : State) : (nonceAppend b s).err = s.err := by simp only [nonceAppend, setNonce_err]
@[simp] theorem nonceAppend_einfo (b : Byte) (s : State) : (nonceAppend b s).einfo = s.einfo := by simp only [nonceAppend, setNonce_einfo]
@[simp] theorem nonceAppend_out (b : Byte) (s : State) : (nonceAppend b s).out = s.out := by simp only [nonceAppend, setNonce_out]
@[simp] theorem nonceAppend_cmdIn (b : Byte) (s : State) : (nonceAppend b s).cmdIn = s.cmdIn := by simp only [nonceAppend, setNonce_cmdIn]
@[simp] theorem nonceAppend_ngenWait (b : Byte) (s : State) : (nonceAppend b s).ngenWait = s.ngenWait := by simp only [nonceAppend, setNonce_ngenWait]
@[simp] theorem nonceAppend_rngOn (b : Byte) (s : State) : (nonceAppend b s).rngOn = s.rngOn := by simp only [nonceAppend, setNonce_rngOn]
@[simp] theorem nonceAppend_rngDraws (b : Byte) (s : State) : (nonceAppend b s).rngDraws = s.rngDraws := by simp only [nonceAppend, setNonce_rngDraws]

/-! ### pwAppend -/

@[simp] theorem pwAppend_regX (b : Byte) (s : State) : (pwAppend b s).regX = s.regX := by simp only [pwAppend, setPw_regX]
@[simp] theorem pwAppend_regS (b : Byte) (s : State) : (pwAppend b s).regS = s.regS := by simp only [pwAppend, setPw_regS]
@[simp] theorem pwAppend_pw (b : Byte) (s : State) : (pwAppend b s).pw = s.pw.write s.pwlen b := by simp only [pwAppend, setPw_pw]
@[simp] theorem pwAppend_pwlen (b : Byte) (s : State) : (pwAppend b s).pwlen = s.pwlen + 1 := by simp only [pwAppend, setPw_pwlen]
@[simp] theorem pwAppend_nonce (b : Byte) (s : State) : (pwAppend b s).nonce = s.nonce := by simp only [pwAppend, setPw_nonce]
@[simp] theorem pwAppend_nlen (b : Byte) (s : State) : (pwAppend b s).nlen = s.nlen := by simp only [pwAppend, setPw_nlen]
@[simp] theorem pwAppend_pat (b : Byte) (s : State) : (pwAppend b s).pat = s.pat := by simp only [pwAppend, setPw_pat]
@[simp] theorem pwAppend_plen (b : Byte) (s : State) : (pwAppend b s).plen = s.plen := by simp only [pwAppend, setPw_plen]
@[simp] theorem pwAppend_grid (b : Byte) (s : State) : (pwAppend b s).grid = s.grid := by simp only [pwAppend, setPw_grid]
@[simp] theorem pwAppend_pp (b : Byte) (s : State) : (pwAppend b s).pp = s.pp := by simp only [pwAppend, setPw_pp]
@[simp] theorem pwAppend_phase (b : Byte) (s : State) : (pwAppend b s).phase = s.phase := by simp only [pwAppend, setPw_phase]
@[simp] theorem pwAppend_err (b : Byte) (s : State) : (pwAppend b s).err = s.err := by simp only [pwAppend, setPw_err]
@[simp] theorem pwAppend_einfo (b : Byte) (s : State) : (pwAppend b s).einfo = s.einfo := by simp only [pwAppend, setPw_einfo]
@[simp] theorem pwAppend_out (b : Byte) (s : State) : (pwAppend b s).out = s.out := by simp only [pwAppend, setPw_out]
@[simp] theorem pwAppend_cmdIn (b : Byte) (s : State) : (pwAppend b s).cmdIn = s.cmdIn := by simp only [pwAppend, setPw_cmdIn]
@[simp] theorem pwAppend_ngenWait (b : Byte) (s : State) : (pwAppend b s).ngenWait = s.ngenWait := by simp only [pwAppend, setPw_ngenWait]
@[simp] theorem pwAppend_rngOn (b : Byte) (s : State) : (pwAppend b s).rngOn = s.rngOn := by simp only [pwAppend, setPw_rngOn]
@[simp] theorem pwAppend_rngDraws (b : Byte) (s : State) : (pwAppend b s).rngDraws = s.rngDraws := by simp only [pwAppend, setPw_rngDraws]

/-! ### nonceFill -/

@[simp] theorem nonceFill_regX (bs : List Byte) (s : State) : (nonceFill bs s).regX = s.regX := by simp only [nonceFill, setNonce_regX]
@[simp] theorem nonceFill_regS (bs : List Byte) (s : State) : (nonceFill bs s).regS = s.regS := by simp only [nonceFill, setNonce_regS]
@[simp] theorem nonceFill_pw (bs : List Byte) (s : State) : (nonceFill bs s).pw = s.pw := by simp only [nonceFill, setNonce_pw]
@[simp] theorem nonceFill_pwlen (bs : List Byte) (s : State) : (nonceFill bs s).pwlen = s.pwlen := by simp only [nonceFill, setNonce_pwlen]
@[simp] theorem nonceFill_nonce (bs : List Byte) (s : State) : (nonceFill bs s).nonce = s.nonce.writeBytes 0 bs := by simp only [nonceFill, setNonce_nonce]
@[simp] theorem nonceFill_nlen (bs : List Byte) (s : State) : (nonceFill bs s).nlen = 128 := by simp only [nonceFill, setNonce_nlen]
@[simp] theorem nonceFill_pat (bs : List Byte) (s : State) : (nonceFill bs s).pat = s.pat := by simp only [nonceFill, setNonce_pat]
@[simp] theorem nonceFill_plen (bs : List Byte) (s : State) : (nonceFill bs s).plen = s.plen := by simp only [nonceFill, setNonce_plen]
@[simp] theorem nonceFill_grid (bs : List Byte) (s : State) : (nonceFill bs s).grid = s.grid := by simp only [nonceFill, setNonce_grid]
@[simp] theorem nonceFill_pp (bs : List Byte) (s : State) : (nonceFill bs s).pp = s.pp := by simp only [nonceFill, setNonce_pp]
@[simp] theorem nonceFill_phase (bs : List Byte) (s : State) : (nonceFill bs s).phase = s.phase := by simp only [nonceFill, setNonce_phase]
@[simp] theorem nonceFill_err (bs : List Byte) (s : State) : (nonceFill bs s).err = s.err := by simp only [nonceFill, setNonce_err]
@[simp] theorem nonceFill_einfo (bs : List Byte) (s : State) : (nonceFill bs s).einfo = s.einfo := by simp only [nonceFill, setNonce_einfo]
@[simp] theorem nonceFill_out (bs : List Byte) (s : State) : (nonceFill bs s).out = s.out := by simp only [nonceFill, setNonce_out]
@[simp] theorem nonceFill_cmdIn (bs : List Byte) (s : State) : (nonceFill bs s).cmdIn = s.cmdIn := by simp only [nonceFill, setNonce_cmdIn]
@[simp] theorem nonceFill_ngenWait (bs : List Byte) (s : State) : (nonceFill bs s).ngenWait = s.ngenWait := by simp only [nonceFill, setNonce_ngenWait]
@[simp] theorem nonceFill_rngOn (bs : List Byte) (s : State) : (nonceFill bs s).rngOn = s.rngOn := by simp only [nonceFill, setNonce_rngOn]
@[simp] theorem nonceFill_rngDraws (bs : List Byte) (s : State) : (nonceFill bs s).rngDraws = s.rngDraws := by simp only [nonceFill, setNonce_rngDraws]

/-! ### kdf -/

@[simp] theorem kdf_regX (P : Config.Params) (m : List Byte) (s : State) : (kdf P m s).regX = prgStep (BitVec.ofNat 64 (seedOf (P.hash m).toList)) := by simp only [kdf, setPattern_regX, draw_regX, prgSeed_regX]
@[simp] theorem kdf_regS (P : Config.Params) (m : List Byte) (s : State) : (kdf P m s).regS = s.regS := by simp only [kdf, setPattern_regS, draw_regS, prgSeed_regS]
@[simp] theorem kdf_pw (P : Config.Params) (m : List Byte) (s : State) : (kdf P m s).pw = s.pw := by simp only [kdf, setPattern_pw, draw_pw, prgSeed_pw]
@[simp] theorem kdf_pwlen (P : Config.Params) (m : List Byte) (s : State) : (kdf P m s).pwlen = s.pwlen := by simp only [kdf, setPattern_pwlen, draw_pwlen, prgSeed_pwlen]
@[simp] theorem kdf_nonce (P : Config.Params) (m : List Byte) (s : State) : (kdf P m s).nonce = s.nonce := by simp only [kdf, setPattern_nonce, draw_nonce, prgSeed_nonce]
@[simp] theorem kdf_nlen (P : Config.Params) (m : List Byte) (s : State) : (kdf P m s).nlen = s.nlen := by simp only [kdf, setPattern_nlen, draw_nlen, prgSeed_nlen]
@[simp] theorem kdf_grid (P : Config.Params) (m : List Byte) (s : State) : (kdf P m s).grid = s.grid := by simp only [kdf, setPattern_grid, draw_grid, prgSeed_grid]
@[simp] theorem kdf_pp (P : Config.Params) (m : List Byte) (s : State) : (kdf P m s).pp = s.pp := by simp only [kdf, setPattern_pp, draw_pp, prgSeed_pp]
@[simp] theorem kdf_phase (P : Config.Params) (m : List Byte) (s : State) : (kdf P m s).phase = s.phase := by simp only [kdf, setPattern_phase, draw_phase, prgSeed_phase]
@[simp] theorem kdf_err (P : Config.Params) (m : List Byte) (s : State) : (kdf P m s).err = s.err := by simp only [kdf, setPattern_err, draw_err, prgSeed_err]
@[simp] theorem kdf_einfo (P : Config.Params) (m : List Byte) (s : State) : (kdf P m s).einfo = s.einfo := by simp only [kdf, setPattern_einfo, draw_einfo, prgSeed_einfo]
@[simp] theorem kdf_out (P : Config.Params) (m : List Byte) (s : State) : (kdf P m s).out = s.out := by simp only [kdf, setPattern_out, draw_out, prgSeed_out]
@[simp] theorem kdf_cmdIn (P : Config.Params) (m : List Byte) (s : State) : (kdf P m s).cmdIn = s.cmdIn := by simp only [kdf, setPattern_cmdIn, draw_cmdIn, prgSeed_cmdIn]
@[simp] theorem kdf_ngenWait (P : Config.Params) (m : List Byte) (s : State) : (kdf P m s).ngenWait = s.ngenWait := by simp only [kdf, setPattern_ngenWait, draw_ngenWait, prgSeed_ngenWait]
@[simp] theorem kdf_rngOn (P : Config.Params) (m : List Byte) (s : State) : (kdf P m s).rngOn = s.rngOn := by simp only [kdf, setPattern_rngOn, draw_rngOn, prgSeed_rngOn]
@[simp] theorem kdf_rngDraws (P : Config.Params) (m : List Byte) (s : State) : (kdf P m s).rngDraws = s.rngDraws := by simp only [kdf, setPattern_rngDraws, draw_rngDraws, prgSeed_rngDraws]

/-! ### gridBuild -/

@[simp] theorem gridBuild_regX (s : State) : (gridBuild s).regX = (gridLoop 256 0 (s.grid, s.regX)).2 := by simp only [gridBuild, setGrid_regX]
@[simp] theorem gridBuild_regS (s : State) : (gridBuild s).regS = s.regS := by simp only [gridBuild, setGrid_regS]
@[simp] theorem gridBuild_pw (s : State) : (gridBuild s).pw = s.pw := by simp only [gridBuild, setGrid_pw]
@[simp] theorem gridBuild_pwlen (s : State) : (gridBuild s).pwlen = s.pwlen := by simp only [gridBuild, setGrid_pwlen]
@[simp] theorem gridBuild_nonce (s : State) : (gridBuild s).nonce = s.nonce := by simp only [gridBuild, setGrid_nonce]
@[simp] theorem gridBuild_nlen (s : State) : (gridBuild s).nlen = s.nlen := by simp only [gridBuild, setGrid_nlen]
@[simp] theorem gridBuild_pat (s : State) : (gridBuild s).pat = s.pat := by simp only [gridBuild, setGrid_pat]
@[simp] theorem gridBuild_plen (s : State) : (gridBuild s).plen = s.plen := by simp only [gridBuild, setGrid_plen]
@[simp] theorem gridBuild_grid (s : State) : (gridBuild s).grid = (gridLoop 256 0 (s.grid, s.regX)).1 := by simp only [gridBuild, setGrid_grid]
@[simp] theorem gridBuild_pp (s : State) : (gridBuild s).pp = s.pp := by simp only [gridBuild, setGrid_pp]
@[simp] theorem gridBuild_phase (s : State) : (gridBuild s).phase = s.phase := by simp only [gridBuild, setGrid_phase]
@[simp] theorem gridBuild_err (s : State) : (gridBuild s).err = s.err := by simp only [gridBuild, setGrid_err]
@[simp] theorem gridBuild_einfo (s : State) : (gridBuild s).einfo = s.einfo := by simp only [gridBuild, setGrid_einfo]
@[simp] theorem gridBuild_out (s : State) : (gridBuild s).out = s.out := by simp only [gridBuild, setGrid_out]
@[simp] theorem gridBuild_cmdIn (s : State) : (gridBuild s).cmdIn = s.cmdIn := by simp only [gridBuild, setGrid_cmdIn]
@[simp] theorem gridBuild_ngenWait (s : State) : (gridBuild s).ngenWait = s.ngenWait := by simp only [gridBuild, setGrid_ngenWait]
@[simp] theorem gridBuild_rngOn (s : State) : (gridBuild s).rngOn = s.rngOn := by simp only [gridBuild, setGrid_rngOn]
@[simp] theorem gridBuild_rngDraws (s : State) : (gridBuild s).rngDraws = s.rngDraws := by simp only [gridBuild, setGrid_rngDraws]

/-! ### derive -/

@[simp] theorem derive_regS (P : Config.Params) (m : List Byte) (s : State) : (derive P m s).regS = s.regS := by simp only [derive, setPp_regS, gridBuild_regS, kdf_regS]
@[simp] theorem derive_pw (P : Config.Params) (m : List Byte) (s : State) : (derive P m s).pw = s.pw := by simp only [derive, setPp_pw, gridBuild_pw, kdf_pw]
@[simp] theorem derive_pwlen (P : Config.Params) (m : List Byte) (s : State) : (derive P m s).pwlen = s.pwlen := by simp only [derive, setPp_pwlen, gridBuild_pwlen, kdf_pwlen]
@[simp] theorem derive_nonce (P : Config.Params) (m : List Byte) (s : State) : (derive P m s).nonce = s.nonce := by simp only [derive, setPp_nonce, gridBuild_nonce, kdf_nonce]
@[simp] theorem derive_nlen (P : Config.Params) (m : List Byte) (s : State) : (derive P m s).nlen = s.nlen := by simp only [derive, setPp_nlen, gridBuild_nlen, kdf_nlen]
@[simp] theorem derive_pp (P : Config.Params) (m : List Byte) (s : State) : (derive P m s).pp = 0 := by simp only [derive, setPp_pp]
@[simp] theorem derive_phase (P : Config.Params) (m : List Byte) (s : State) : (derive P m s).phase = s.phase := by simp only [derive, setPp_phase, gridBuild_phase, kdf_phase]
@[simp] theorem derive_err (P : Config.Params) (m : List Byte) (s : State) : (derive P m s).err = s.err := by simp only [derive, setPp_err, gridBuild_err, kdf_err]
@[simp] theorem derive_einfo (P : Config.Params) (m : List Byte) (s : State) : (derive P m s).einfo = s.einfo := by simp only [derive, setPp_einfo, gridBuild_einfo, kdf_einfo]
@[simp] theorem derive_out (P : Config.Params) (m : List Byte) (s : State) : (derive P m s).out = s.out := by simp only [derive, setPp_out, gridBuild_out, kdf_out]
@[simp] theorem derive_cmdIn (P : Config.Params) (m : List Byte) (s : State) : (derive P m s).cmdIn = s.cmdIn := by simp only [derive, setPp_cmdIn, gridBuild_cmdIn, kdf_cmdIn]
@[simp] theorem derive_ngenWait (P : Config.Params) (m : List Byte) (s : State) : (derive P m s).ngenWait = s.ngenWait := by simp only [derive, setPp_ngenWait, gridBuild_ngenWait, kdf_ngenWait]
@[simp] theorem derive_rngOn (P : Config.Params) (m : List Byte) (s : State) : (derive P m s).rngOn = s.rngOn := by simp only [derive, setPp_rngOn, gridBuild_rngOn, kdf_rngOn]
@[simp] theorem derive_rngDraws (P : Config.Params) (m : List Byte) (s : State) : (derive P m s).rngDraws = s.rngDraws := by simp only [derive, setPp_rngDraws, gridBuild_rngDraws, kdf_rngDraws]

/-! ### tableSelect -/

@[simp] theorem tableSelect_regX (s : State) : (tableSelect s).2.regX = prgStep s.regX := by simp only [tableSelect, patNext_regX, draw_regX]
@[simp] theorem tableSelect_regS (s : State) : (tableSelect s).2.regS = s.regS := by simp only [tableSelect, patNext_regS, draw_regS]
@[simp] theorem tableSelect_pw (s : State) : (tableSelect s).2.pw = s.pw := by simp only [tableSelect, patNext_pw, draw_pw]
@[simp] theorem tableSelect_pwlen (s : State) : (tableSelect s).2.pwlen = s.pwlen := by simp only [tableSelect, patNext_pwlen, draw_pwlen]
@[simp] theorem tableSelect_nonce (s : State) : (tableSelect s).2.nonce = s.nonce := by simp only [tableSelect, patNext_nonce, draw_nonce]
@[simp] theorem tableSelect_nlen (s : State) : (tableSelect s).2.nlen = s.nlen := by simp only [tableSelect, patNext_nlen, draw_nlen]
@[simp] theorem tableSelect_pat (s : State) : (tableSelect s).2.pat = s.pat := by simp only [tableSelect, patNext_pat, draw_pat]
@[simp] theorem tableSelect_plen (s : State) : (tableSelect s).2.plen = s.plen := by simp only [tableSelect, patNext_plen, draw_plen]
@[simp] theorem tableSelect_grid (s : State) : (tableSelect s).2.grid = s.grid := by simp only [tableSelect, patNext_grid, draw_grid]
@[simp] theorem tableSelect_pp (s : State) : (tableSelect s).2.pp = ppNext s.pp s.plen := by simp only [tableSelect, patNext_pp, draw_pp, draw_plen]
@[simp] theorem tableSelect_phase (s : State) : (tableSelect s).2.phase = s.phase := by simp only [tableSelect, patNext_phase, draw_phase]
@[simp] theorem tableSelect_err (s : State) : (tableSelect s).2.err = s.err := by simp only [tableSelect, patNext_err, draw_err]
@[simp] theorem tableSelect_einfo (s : State) : (tableSelect s).2.einfo = s.einfo := by simp only [tableSelect, patNext_einfo, draw_einfo]
@[simp] theorem tableSelect_out (s : State) : (tableSelect s).2.out = s.out := by simp only [tableSelect, patNext_out, draw_out]
@[simp] theorem tableSelect_cmdIn (s : State) : (tableSelect s).2.cmdIn = s.cmdIn := by simp only [tableSelect, patNext_cmdIn, draw_cmdIn]
@[simp] theorem tableSelect_ngenWait (s : State) : (tableSelect s).2.ngenWait = s.ngenWait := by simp only [tableSelect, patNext_ngenWait, draw_ngenWait]
@[simp] theorem tableSelect_rngOn (s : State) : (tableSelect s).2.rngOn = s.rngOn := by simp only [tableSelect, patNext_rngOn, draw_rngOn]
@[simp] theorem tableSelect_rngDraws (s : State) : (tableSelect s).2.rngDraws = s.rngDraws := by simp only [tableSelect, patNext_rngDraws, draw_rngDraws]

/-! ### encByte -/

@[simp] theorem encByte_regX (b : Byte) (s : State) : (encByte b s).2.regX = prgStep s.regX := by simp only [encByte, tableSelect_regX]
@[simp] theorem encByte_regS (b : Byte) (s : State) : (encByte b s).2.regS = s.regS := by simp only [encByte, tableSelect_regS]
@[simp] theorem encByte_pw (b : Byte) (s : State) : (encByte b s).2.pw = s.pw := by simp only [encByte, tableSelect_pw]
@[simp] theorem encByte_pwlen (b : Byte) (s : State) : (encByte b s).2.pwlen = s.pwlen := by simp only [encByte, tableSelect_pwlen]
@[simp] theorem encByte_nonce (b : Byte) (s : State) : (encByte b s).2.nonce = s.nonce := by simp only [encByte, tableSelect_nonce]
@[simp] theorem encByte_nlen (b : Byte) (s : State) : (encByte b s).2.nlen = s.nlen := by simp only [encByte, tableSelect_nlen]
@[simp] theorem encByte_pat (b : Byte) (s : State) : (encByte b s).2.pat = s.pat := by simp only [encByte, tableSelect_pat]
@[simp] theorem encByte_plen (b : Byte) (s : State) : (encByte b s).2.plen = s.plen := by simp only [encByte, tableSelect_plen]
@[simp] theorem encByte_grid (b : Byte) (s : State) : (encByte b s).2.grid = s.grid := by simp only [encByte, tableSelect_grid]
@[simp] theorem encByte_pp (b : Byte) (s : State) : (encByte b s).2.pp = ppNext s.pp s.plen := by simp only [encByte, tableSelect_pp]
@[simp] theorem encByte_phase (b : Byte) (s : State) : (encByte b s).2.phase = s.phase := by simp only [encByte, tableSelect_phase]
@[simp] theorem encByte_err (b : Byte) (s : State) : (encByte b s).2.err = s.err := by simp only [encByte, tableSelect_err]
@[simp] theorem encByte_einfo (b : Byte) (s : State) : (encByte b s).2.einfo = s.einfo := by simp only [encByte, tableSelect_einfo]
@[simp] theorem encByte_out (b : Byte) (s : State) : (encByte b s).2.out = s.out := by simp only [encByte, tableSelect_out]
@[simp] theorem encByte_cmdIn (b : Byte) (s : State) : (encByte b s).2.cmdIn = s.cmdIn := by simp only [encByte, tableSelect_cmdIn]
@[simp] theorem encByte_ngenWait (b : Byte) (s : State) : (encByte b s).2.ngenWait = s.ngenWait := by simp only [encByte, tableSelect_ngenWait]
@[simp] theorem encByte_rngOn (b : Byte) (s : State) : (encByte b s).2.rngOn = s.rngOn := by simp only [encByte, tableSelect_rngOn]
@[simp] theorem encByte_rngDraws (b : Byte) (s : State) : (encByte b s).2.rngDraws = s.rngDraws := by simp only [encByte, tableSelect_rngDraws]

/-! ### decByte -/

@[simp] theorem decByte_regX (b : Byte) (s : State) : (decByte b s).2.regX = prgStep s.regX := by simp only [decByte, tableSelect_regX]
@[simp] theorem decByte_regS (b : Byte) (s : State) : (decByte b s).2.regS = s.regS := by simp only [decByte, tableSelect_regS]
@[simp] theorem decByte_pw (b : Byte) (s : State) : (decByte b s).2.pw = s.pw := by simp only [decByte, tableSelect_pw]
@[simp] theorem decByte_pwlen (b : Byte) (s : State) : (decByte b s).2.pwlen = s.pwlen := by simp only [decByte, tableSelect_pwlen]
@[simp] theorem decByte_nonce (b : Byte) (s : State) : (decByte b s).2.nonce = s.nonce := by simp only [decByte, tableSelect_nonce]
@[simp] theorem decByte_nlen (b : Byte) (s : State) : (decByte b s).2.nlen = s.nlen := by simp only [decByte, tableSelect_nlen]
@[simp] theorem decByte_pat (b : Byte) (s : State) : (decByte b s).2.pat = s.pat := by simp only [decByte, tableSelect_pat]
@[simp] theorem decByte_plen (b : Byte) (s : State) : (decByte b s).2.plen = s.plen := by simp only [decByte, tableSelect_plen]
@[simp] theorem decByte_grid (b : Byte) (s : State) : (decByte b s).2.grid = s.grid := by simp only [decByte, tableSelect_grid]
@[simp] theorem decByte_pp (b : Byte) (s : State) : (decByte b s).2.pp = ppNext s.pp s.plen := by simp only [decByte, tableSelect_pp]
@[simp] theorem decByte_phase (b : Byte) (s : State) : (decByte b s).2.phase = s.phase := by simp only [decByte, tableSelect_phase]
@[simp] theorem decByte_err (b : Byte) (s : State) : (decByte b s).2.err = s.err := by simp only [decByte, tableSelect_err]
@[simp] theorem decByte_einfo (b : Byte) (s : State) : (decByte b s).2.einfo = s.einfo := by simp only [decByte, tableSelect_einfo]
@[simp] theorem decByte_out (b : Byte) (s : State) : (decByte b s).2.out = s.out := by simp only [decByte, tableSelect_out]
@[simp] theorem decByte_cmdIn (b : Byte) (s : State) : (decByte b s).2.cmdIn = s.cmdIn := by simp only [decByte, tableSelect_cmdIn]
@[simp] theorem decByte_ngenWait (b : Byte) (s : State) : (decByte b s).2.ngenWait = s.ngenWait := by simp only [decByte, tableSelect_ngenWait]
@[simp] theorem decByte_rngOn (b : Byte) (s : State) : (decByte b s).2.rngOn = s.rngOn := by simp only [decByte, tableSelect_rngOn]
@[simp] theorem decByte_rngDraws (b : Byte) (s : State) : (decByte b s).2.rngDraws = s.rngDraws := by simp only [decByte, tableSelect_rngDraws]

/-! ### putEnc -/

@[simp] theorem putEnc_regX (b : Byte) (s : State) : (putEnc b s).regX = prgStep s.regX := by simp only [putEnc, push_regX, encByte_regX]
@[simp] theorem putEnc_regS (b : Byte) (s : State) : (putEnc b s).regS = s.regS := by simp only [putEnc, push_regS, encByte_regS]
@[simp] theorem putEnc_pw (b : Byte) (s : State) : (putEnc b s).pw = s.pw := by simp only [putEnc, push_pw, encByte_pw]
@[simp] theorem putEnc_pwlen (b : Byte) (s : State) : (putEnc b s).pwlen = s.pwlen := by simp only [putEnc, push_pwlen, encByte_pwlen]
@[simp] theorem putEnc_nonce (b : Byte) (s : State) : (putEnc b s).nonce = s.nonce := by simp only [putEnc, push_nonce, encByte_nonce]
@[simp] theorem putEnc_nlen (b : Byte) (s : State) : (putEnc b s).nlen = s.nlen := by simp only [putEnc, push_nlen, encByte_nlen]
@[simp] theorem putEnc_pat (b : Byte) (s : State) : (putEnc b s).pat = s.pat := by simp only [putEnc, push_pat, encByte_pat]
@[simp] theorem putEnc_plen (b : Byte) (s : State) : (putEnc b s).plen = s.plen := by simp only [putEnc, push_plen, encByte_plen]
@[simp] theorem putEnc_grid (b : Byte) (s : State) : (putEnc b s).grid = s.grid := by simp only [putEnc, push_grid, encByte_grid]
@[simp] theorem putEnc_pp (b : Byte) (s : State) : (putEnc b s).pp = ppNext s.pp s.plen := by simp only [putEnc, push_pp, encByte_pp]
@[simp] theorem putEnc_phase (b : Byte) (s : State) : (putEnc b s).phase = s.phase := by simp only [putEnc, push_phase, encByte_phase]
@[simp] theorem putEnc_err (b : Byte) (s : State) : (putEnc b s).err = s.err := by simp only [putEnc, push_err, encByte_err]
@[simp] theorem putEnc_einfo (b : Byte) (s : State) : (putEnc b s).einfo = s.einfo := by simp only [putEnc, push_einfo, encByte_einfo]
@[simp] theorem putEnc_out (b : Byte) (s : State) : (putEnc b s).out = s.out ++ [(encByte b s).1] := by simp only [putEnc, push_out, encByte_out]
@[simp] theorem putEnc_cmdIn (b : Byte) (s : State) : (putEnc b s).cmdIn = s.cmdIn := by simp only [putEnc, push_cmdIn, encByte_cmdIn]
@[simp] theorem putEnc_ngenWait (b : Byte) (s : State) : (putEnc b s).ngenWait = s.ngenWait := by simp only [putEnc, push_ngenWait, encByte_ngenWait]
@[simp] theorem putEnc_rngOn (b : Byte) (s : State) : (putEnc b s).rngOn = s.rngOn := by simp only [putEnc, push_rngOn, encByte_rngOn]
@[simp] theorem putEnc_rngDraws (b : Byte) (s : State) : (putEnc b s).rngDraws = s.rngDraws := by simp only [putEnc, push_rngDraws, encByte_rngDraws]

/-! ### startPass -/

@[simp] theorem startPass_regX (P : Config.Params) (p : Phase) (s : State) : (startPass P p s).regX = (derive P s.pwSeq s).regX := by simp only [startPass, setPhase_regX]
@[simp] theorem startPass_regS (P : Config.Params) (p : Phase) (s : State) : (startPass P p s).regS = s.regS := by simp only [startPass, setPhase_regS, derive_regS]
@[simp] theorem startPass_pw (P : Config.Params) (p : Phase) (s : State) : (startPass P p s).pw = s.pw := by simp only [startPass, setPhase_pw, derive_pw]
@[simp] theorem startPass_pwlen (P : Config.Params) (p : Phase) (s : State) : (startPass P p s).pwlen = s.pwlen := by simp only [startPass, setPhase_pwlen, derive_pwlen]
@[simp] theorem startPass_nonce (P : Config.Params) (p : Phase) (s : State) : (startPass P p s).nonce = s.nonce := by simp only [startPass, setPhase_nonce, derive_nonce]
@[simp] theorem startPass_nlen (P : Config.Params) (p : Phase) (s : State) : (startPass P p s).nlen = s.nlen := by simp only [startPass, setPhase_nlen, derive_nlen]
@[simp] theorem startPass_pat (P : Config.Params) (p : Phase) (s : State) : (startPass P p s).pat = (derive P s.pwSeq s).pat := by simp only [startPass, setPhase_pat]
@[simp] theorem startPass_plen (P : Config.Params) (p : Phase) (s : State) : (startPass P p s).plen = (derive P s.pwSeq s).plen := by simp only [startPass, setPhase_plen]
@[simp] theorem startPass_grid (P : Config.Params) (p : Phase) (s : State) : (startPass P p s).grid = (derive P s.pwSeq s).grid := by simp only [startPass, setPhase_grid]
@[simp] theorem startPass_pp (P : Config.Params) (p : Phase) (s : State) : (startPass P p s).pp = 0 := by simp only [startPass, setPhase_pp, derive_pp]
@[simp] theorem startPass_phase (P : Config.Params) (p : Phase) (s : State) : (startPass P p s).phase = p := by simp only [startPass, setPhase_phase]
@[simp] theorem startPass_err (P : Config.Params) (p : Phase) (s : State) : (startPass P p s).err = s.err := by simp only [startPass, setPhase_err, derive_err]
@[simp] theorem startPass_einfo (P : Config.Params) (p : Phase) (s : State) : (startPass P p s).einfo = s.einfo := by simp only [startPass, setPhase_einfo, derive_einfo]
@[simp] theorem startPass_out (P : Config.Params) (p : Phase) (s : State) : (startPass P p s).out = s.out := by simp only [startPass, setPhase_out, derive_out]
@[simp] theorem startPass_cmdIn (P : Config.Params) (p : Phase) (s : State) : (startPass P p s).cmdIn = s.cmdIn := by simp only [startPass, setPhase_cmdIn, derive_cmdIn]
@[simp] theorem startPass_ngenWait (P : Config.Params) (p : Phase) (s : State) : (startPass P p s).ngenWait = s.ngenWait := by simp only [startPass, setPhase_ngenWait, derive_ngenWait]
@[simp] theorem startPass_rngOn (P : Config.Params) (p : Phase) (s : State) : (startPass P p s).rngOn = s.rngOn := by simp only [startPass, setPhase_rngOn, derive_rngOn]
@[simp] theorem startPass_rngDraws (P : Config.Params) (p : Phase) (s : State) : (startPass P p s).rngDraws = s.rngDraws := by simp only [startPass, setPhase_rngDraws, derive_rngDraws]

/-! ### rederive -/

@[simp] theorem rederive_regX (P : Config.Params) (p : Phase) (s : State) : (rederive P p s).regX = (derive P (s.pwSeq ++ s.nonceSeq) s).regX := by simp only [rederive, setPhase_regX]
@[simp] theorem rederive_regS (P : Config.Params) (p : Phase) (s : State) : (rederive P p s).regS = s.regS := by simp only [rederive, setPhase_regS, derive_regS]
@[simp] theorem rederive_pw (P : Config.Params) (p : Phase) (s : State) : (rederive P p s).pw = s.pw := by simp only [rederive, setPhase_pw, derive_pw]
@[simp] theorem rederive_pwlen (P : Config.Params) (p : Phase) (s : State) : (rederive P p s).pwlen = s.pwlen := by simp only [rederive, setPhase_pwlen, derive_pwlen]
@[simp] theorem rederive_nonce (P : Config.Params) (p : Phase) (s : State) : (rederive P p s).nonce = s.nonce := by simp only [rederive, setPhase_nonce, derive_nonce]
@[simp] theorem rederive_nlen (P : Config.Params) (p : Phase) (s : State) : (rederive P p s).nlen = s.nlen := by simp only [rederive, setPhase_nlen, derive_nlen]
@[simp] theorem rederive_pat (P : Config.Params) (p : Phase) (s : State) : (rederive P p s).pat = (derive P (s.pwSeq ++ s.nonceSeq) s).pat := by simp only [rederive, setPhase_pat]
@[simp] theorem rederive_plen (P : Config.Params) (p : Phase) (s : State) : (rederive P p s).plen = (derive P (s.pwSeq ++ s.nonceSeq) s).plen := by simp only [rederive, setPhase_plen]
@[simp] theorem rederive_grid (P : Config.Params) (p : Phase) (s : State) : (rederive P p s).grid = (derive P (s.pwSeq ++ s.nonceSeq) s).grid := by simp only [rederive, setPhase_grid]
@[simp] theorem rederive_pp (P : Config.Params) (p : Phase) (s : State) : (rederive P p s).pp = 0 := by simp only [rederive, setPhase_pp, derive_pp]
@[simp] theorem rederive_phase (P : Config.Params) (p : Phase) (s : State) : (rederive P p s).phase = p := by simp only [rederive, setPhase_phase]
@[simp] theorem rederive_err (P : Config.Params) (p : Phase) (s : State) : (rederive P p s).err = s.err := by simp only [rederive, setPhase_err, derive_err]
@[simp] theorem rederive_einfo (P : Config.Params) (p : Phase) (s : State) : (rederive P p s).einfo = s.einfo := by simp only [rederive, setPhase_einfo, derive_einfo]
@[simp] theorem rederive_out (P : Config.Params) (p : Phase) (s : State) : (rederive P p s).out = s.out := by simp only [rederive, setPhase_out, derive_out]
@[simp] theorem rederive_cmdIn (P : Config.Params) (p : Phase) (s : State) : (rederive P p s).cmdIn = s.cmdIn := by simp only [rederive, setPhase_cmdIn, derive_cmdIn]
@[simp] theorem rederive_ngenWait (P : Config.Params) (p : Phase) (s : State) : (rederive P p s).ngenWait = s.ngenWait := by simp only [rederive, setPhase_ngenWait, derive_ngenWait]
@[simp] theorem rederive_rngOn (P : Config.Params) (p : Phase) (s : State) : (rederive P p s).rngOn = s.rngOn := by simp only [rederive, setPhase_rngOn, derive_rngOn]
@[simp] theorem rederive_rngDraws (P : Config.Params) (p : Phase) (s : State) : (rederive P p s).rngDraws = s.rngDraws := by simp only [rederive, setPhase_rngDraws, derive_rngDraws]

/-! ### takeWord -/

@[simp] theorem takeWord_regX (s : State) : (takeWord s).regX = s.regX := by simp only [takeWord, setCmdIn_regX]
@[simp] theorem takeWord_regS (s : State) : (takeWord s).regS = s.regS := by simp only [takeWord, setCmdIn_regS]
@[simp] theorem takeWord_pw (s : State) : (takeWord s).pw = s.pw := by simp only [takeWord, setCmdIn_pw]
@[simp] theorem takeWord_pwlen (s : State) : (takeWord s).pwlen = s.pwlen := by simp only [takeWord, setCmdIn_pwlen]
@[simp] theorem takeWord_nonce (s : State) : (takeWord s).nonce = s.nonce := by simp only [takeWord, setCmdIn_nonce]
@[simp] theorem takeWord_nlen (s : State) : (takeWord s).nlen = s.nlen := by simp only [takeWord, setCmdIn_nlen]
@[simp] theorem takeWord_pat (s : State) : (takeWord s).pat = s.pat := by simp only [takeWord, setCmdIn_pat]
@[simp] theorem takeWord_plen (s : State) : (takeWord s).plen = s.plen := by simp only [takeWord, setCmdIn_plen]
@[simp] theorem takeWord_grid (s : State) : (takeWord s).grid = s.grid := by simp only [takeWord, setCmdIn_grid]
@[simp] theorem takeWord_pp (s : State) : (takeWord s).pp = s.pp := by simp only [takeWord, setCmdIn_pp]
@[simp] theorem takeWord_phase (s : State) : (takeWord s).phase = s.phase := by simp only [takeWord, setCmdIn_phase]
@[simp] theorem takeWord_err (s : State) : (takeWord s).err = s.err := by simp only [takeWord, setCmdIn_err]
@[simp] theorem takeWord_einfo (s : State) : (takeWord s).einfo = s.einfo := by simp only [takeWord, setCmdIn_einfo]
@[simp] theorem takeWord_out (s : State) : (takeWord s).out = s.out := by simp only [takeWord, setCmdIn_out]
@[simp] theorem takeWord_cmdIn (s : State) : (takeWord s).cmdIn = s.cmdIn.tail := by simp only [takeWord, setCmdIn_cmdIn]
@[simp] theorem takeWord_ngenWait (s : State) : (takeWord s).ngenWait = s.ngenWait := by simp only [takeWord, setCmdIn_ngenWait]
@[simp] theorem takeWord_rngOn (s : State) : (takeWord s).rngOn = s.rngOn := by simp only [takeWord, setCmdIn_rngOn]
@[simp] theorem takeWord_rngDraws (s : State) : (takeWord s).rngDraws = s.rngDraws := by simp only [takeWord, setCmdIn_rngDraws]

/-! ### placeWord -/

@[simp] theorem placeWord_regX (w : Word) (s : State) : (placeWord w s).regX = s.regX := by simp only [placeWord, setRng_regX, setCmdIn_regX]
@[simp] theorem placeWord_regS (w : Word) (s : State) : (placeWord w s).regS = s.regS := by simp only [placeWord, setRng_regS, setCmdIn_regS]
@[simp] theorem placeWord_pw (w : Word) (s : State) : (placeWord w s).pw = s.pw := by simp only [placeWord, setRng_pw, setCmdIn_pw]
@[simp] theorem placeWord_pwlen (w : Word) (s : State) : (placeWord w s).pwlen = s.pwlen := by simp only [placeWord, setRng_pwlen, setCmdIn_pwlen]
@[simp] theorem placeWord_nonce (w : Word) (s : State) : (placeWord w s).nonce = s.nonce := by simp only [placeWord, setRng_nonce, setCmdIn_nonce]
@[simp] theorem placeWord_nlen (w : Word) (s : State) : (placeWord w s).nlen = s.nlen := by simp only [placeWord, setRng_nlen, setCmdIn_nlen]
@[simp] theorem placeWord_pat (w : Word) (s : State) : (placeWord w s).pat = s.pat := by simp only [placeWord, setRng_pat, setCmdIn_pat]
@[simp] theorem placeWord_plen (w : Word) (s : State) : (placeWord w s).plen = s.plen := by simp only [placeWord, setRng_plen, setCmdIn_plen]
@[simp] theorem placeWord_grid (w : Word) (s : State) : (placeWord w s).grid = s.grid := by simp only [placeWord, setRng_grid, setCmdIn_grid]
@[simp] theorem placeWord_pp (w : Word) (s : State) : (placeWord w s).pp = s.pp := by simp only [placeWord, setRng_pp, setCmdIn_pp]
@[simp] theorem placeWord_phase (w : Word) (s : State) : (placeWord w s).phase = s.phase := by simp only [placeWord, setRng_phase, setCmdIn_phase]
@[simp] theorem placeWord_err (w : Word) (s : State) : (placeWord w s).err = s.err := by simp only [placeWord, setRng_err, setCmdIn_err]
@[simp] theorem placeWord_einfo (w : Word) (s : State) : (placeWord w s).einfo = s.einfo := by simp only [placeWord, setRng_einfo, setCmdIn_einfo]
@[simp] theorem placeWord_out (w : Word) (s : State) : (placeWord w s).out = s.out := by simp only [placeWord, setRng_out, setCmdIn_out]
@[simp] theorem placeWord_cmdIn (w : Word) (s : State) : (placeWord w s).cmdIn = w :: s.cmdIn := by simp only [placeWord, setRng_cmdIn, setCmdIn_cmdIn]
@[simp] theorem placeWord_ngenWait (w : Word) (s : State) : (placeWord w s).ngenWait = false := by simp only [placeWord, setRng_ngenWait]
@[simp] theorem placeWord_rngOn (w : Word) (s : State) : (placeWord w s).rngOn = s.rngOn := by simp only [placeWord, setRng_rngOn, setCmdIn_rngOn]
@[simp] theorem placeWord_rngDraws (w : Word) (s : State) : (placeWord w s).rngDraws = s.rngDraws := by simp only [placeWord, setRng_rngDraws]

end Sys2Proof.Machine
end

