-- ==== Sys2Proof/Laws/Units.lean ====
section
/-! SUPPORT. What each micro-operation does, said once: the permutation loop, the grid loop, the key derivation, the
derivation and the table lookups. Later proofs cite these and do not unfold the loops. -/

namespace Sys2Proof.Machine

/-! ### The permutation loop (40_prg.md rule R130) -/

theorem allBytes_length : allBytes.length = 256 := by simp [allBytes]

theorem allBytes_nodup : allBytes.Nodup := by
  refine List.Nodup.map_on ?_ List.nodup_range
  intro a ha b hb h
  have ha' := List.mem_range.1 ha
  have hb' := List.mem_range.1 hb
  have := congrArg BitVec.toNat h
  simp only [BitVec.toNat_ofNat] at this
  omega

theorem mem_allBytes (b : Byte) : b ∈ allBytes :=
  List.mem_map.2 ⟨b.toNat, List.mem_range.2 b.isLt, by simp⟩

/-- One turn of the loop on a pool of `n + 1` entries: the entry at `r mod PN` goes out, and the rest follows from what
remains (40_prg.md rules R130, R133). -/
theorem permLoop_succ {n : Nat} {pool : List Byte} (x : Word64) (h : pool.length = n + 1) :
    ∃ v, pool[(prgByte (prgStep x)).toNat % (n + 1)]? = some v ∧
      permLoop (n + 1) pool x =
        (v :: (permLoop n (removeAt pool ((prgByte (prgStep x)).toNat % (n + 1))) (prgStep x)).1,
          (permLoop n (removeAt pool ((prgByte (prgStep x)).toNat % (n + 1))) (prgStep x)).2) := by
  have hp : (prgByte (prgStep x)).toNat % (n + 1) < pool.length := by
    rw [h]; exact Nat.mod_lt _ (Nat.succ_pos n)
  refine ⟨pool[(prgByte (prgStep x)).toNat % (n + 1)], List.getElem?_eq_getElem hp, ?_⟩
  simp only [permLoop, h, List.getElem?_eq_getElem hp]

theorem removeAt_length {pool : List Byte} {n p : Nat} (h : pool.length = n + 1) (hp : p < n + 1) :
    (removeAt pool p).length = n := by
  simp [removeAt, List.length_eraseIdx, h, hp]

/-- The loop on a pool of `n` entries puts out a rearrangement of the pool and makes `n` draws. -/
theorem permLoop_spec (n : Nat) (pool : List Byte) (x : Word64) (h : pool.length = n) :
    (permLoop n pool x).1.Perm pool ∧ (permLoop n pool x).2 = prgStep^[n] x := by
  induction n generalizing pool x with
  | zero => simp [permLoop, List.length_eq_zero_iff.1 h]
  | succ n ih =>
    obtain ⟨v, hv, heq⟩ := permLoop_succ x h
    have hp : (prgByte (prgStep x)).toNat % (n + 1) < n + 1 := Nat.mod_lt _ (Nat.succ_pos n)
    obtain ⟨h1, h2⟩ := ih (removeAt pool ((prgByte (prgStep x)).toNat % (n + 1))) (prgStep x)
      (removeAt_length h hp)
    rw [heq]
    refine ⟨(h1.cons v).trans ?_, h2⟩
    obtain ⟨hlt, rfl⟩ := List.getElem?_eq_some_iff.1 hv
    exact List.getElem_cons_eraseIdx_perm hlt

/-- One table: a rearrangement of the 256 byte values, from 256 draws (40_prg.md rules R132, R134). -/
theorem nextPerm_spec (x : Word64) :
    (nextPerm x).1.Perm allBytes ∧ (nextPerm x).2 = prgStep^[256] x :=
  permLoop_spec 256 allBytes x allBytes_length

theorem nextPerm_length (x : Word64) : (nextPerm x).1.length = 256 := by
  rw [(nextPerm_spec x).1.length_eq, allBytes_length]

/-! ### The grid loop (42_gridbuilder.md rule R171) -/

/-- The generator state table `k` is drawn from. -/
def tableSeed (x : Word64) (k : Nat) : Word64 := prgStep^[256 * k] x

theorem tableSeed_zero (x : Word64) : tableSeed x 0 = x := rfl

theorem tableSeed_succ (x : Word64) (k : Nat) : tableSeed (prgStep^[256] x) k = tableSeed x (k + 1) := by
  unfold tableSeed
  rw [← Function.iterate_add_apply, Nat.mul_succ]

theorem addTable_snd (k : Nat) (gx : Memory × Word64) : (addTable k gx).2 = prgStep^[256] gx.2 := by
  simp only [addTable, (nextPerm_spec gx.2).2]

theorem addTable_read? (k : Nat) (gx : Memory × Word64) (a : Nat) :
    (addTable k gx).1.read? a
      = if 256 * k ≤ a ∧ a < 256 * k + 256 then (nextPerm gx.2).1[a - 256 * k]? else gx.1.read? a := by
  have hg : gridAddr k 0 = 256 * k := rfl
  simp only [addTable, hg, read?_writeBytes, nextPerm_length]

/-- `n` tables from table `k` on: every entry of theirs is the one drawn, every other byte of the space is kept, and the
generator is 256 draws further for each table. -/
theorem gridLoop_spec (n k : Nat) (gx : Memory × Word64) :
    (gridLoop n k gx).2 = tableSeed gx.2 n ∧
    ∀ a, (gridLoop n k gx).1.read? a =
      if 256 * k ≤ a ∧ a < 256 * (k + n) then (nextPerm (tableSeed gx.2 (a / 256 - k))).1[a % 256]?
      else gx.1.read? a := by
  induction n generalizing k gx with
  | zero =>
    refine ⟨by simp only [gridLoop, tableSeed_zero], fun a => ?_⟩
    have : ¬ (256 * k ≤ a ∧ a < 256 * (k + 0)) := by omega
    rw [if_neg this]; simp only [gridLoop]
  | succ n ih =>
    obtain ⟨h1, h2⟩ := ih (k + 1) (addTable k gx)
    simp only [gridLoop]
    refine ⟨by rw [h1, addTable_snd, tableSeed_succ], fun a => ?_⟩
    rw [h2 a, addTable_read?, addTable_snd, tableSeed_succ]
    by_cases hlo : 256 * (k + 1) ≤ a
    · by_cases hhi : a < 256 * (k + 1 + n)
      · have e : a / 256 - (k + 1) + 1 = a / 256 - k := by omega
        rw [if_pos ⟨hlo, hhi⟩, if_pos (by omega), e]
      · rw [if_neg (by omega), if_neg (by omega), if_neg (by omega)]
    · rw [if_neg (by omega)]
      by_cases hk : 256 * k ≤ a
      · have e1 : a / 256 - k = 0 := by omega
        have e2 : a - 256 * k = a % 256 := by omega
        rw [if_pos (by omega), if_pos (by omega), e1, e2, tableSeed_zero]
      · rw [if_neg (by omega), if_neg (by omega)]

/-- The grid loop keeps the canonical form and stays inside the tables it builds. -/
theorem gridLoop_wf (n k : Nat) (gx : Memory × Word64) (h : gx.1.wf = true) :
    (gridLoop n k gx).1.wf = true ∧
    ∀ c ∈ (gridLoop n k gx).1, c ∈ gx.1 ∨ c.1 < 256 * (k + n) := by
  induction n generalizing k gx with
  | zero => simp only [gridLoop]; exact ⟨h, fun c hc => .inl hc⟩
  | succ n ih =>
    have hw : (addTable k gx).1.wf = true := by simp only [addTable]; exact wf_writeBytes h _ _
    obtain ⟨h1, h2⟩ := ih (k + 1) (addTable k gx) hw
    simp only [gridLoop]
    refine ⟨h1, fun c hc => ?_⟩
    rcases h2 c hc with hc' | hc'
    · simp only [addTable] at hc'
      rcases mem_writeBytes hc' with hm | ⟨_, hlt⟩
      · exact .inl hm
      · rw [nextPerm_length] at hlt
        simp only [gridAddr] at hlt
        exact .inr (by omega)
    · exact .inr (by omega)

/-- `grid_build` leaves X 65536 draws on and in every entry of GRID the one drawn for it (42_gridbuilder.md rules R171,
R173). -/
theorem gridBuild_spec (s : State) :
    (gridBuild s).regX = prgStep^[65536] s.regX ∧
    ∀ a, a < 65536 →
      (gridBuild s).grid.read? a = (nextPerm (tableSeed s.regX (a / 256))).1[a % 256]? := by
  obtain ⟨h1, h2⟩ := gridLoop_spec 256 0 (s.grid, s.regX)
  refine ⟨(gridBuild_regX s).trans h1, fun a ha => ?_⟩
  rw [gridBuild_grid, h2 a, if_pos (by omega), Nat.sub_zero]

/-! ### Key derivation (41_keyderiv.md) -/

theorem truncateLength_eq (r : Byte) : truncateLength r = 128 + r.toNat / 2 := by
  simp only [truncateLength, Config.truncBase, Nat.shiftRight_eq_div_pow]; omega

theorem truncateLength_bounds (r : Byte) : 128 ≤ truncateLength r ∧ truncateLength r ≤ 255 := by
  rw [truncateLength_eq]; have := r.isLt; omega

/-- The pattern ends between offsets 5 and 255, so it is never empty and its length fits 8 bits (41_keyderiv.md rule
R156). -/
theorem patternEnd_bounds {hlen : Nat} (h : 5 ≤ hlen) (r : Byte) :
    5 ≤ patternEnd hlen r ∧ patternEnd hlen r ≤ 255 ∧ patternEnd hlen r ≤ hlen := by
  have := truncateLength_bounds r; simp only [patternEnd]; omega

theorem patternOf_length {dg : List Byte} {e : Nat} (h : e ≤ dg.length) : (patternOf dg e).length = e - 4 := by
  simp [patternOf, h]

/-- The generator state and the byte `kdf` draws, and where the pattern then ends. -/
def kdfSeed (P : Config.Params) (msg : List Byte) : Word64 := BitVec.ofNat 64 (seedOf (P.hash msg).toList)

/-- The digest offset at which `kdf` ends the pattern. -/
def kdfEnd (P : Config.Params) (msg : List Byte) : Nat := patternEnd P.hlen (prgByte (prgStep (kdfSeed P msg)))

theorem kdfEnd_bounds (P : Config.Params) (msg : List Byte) :
    5 ≤ kdfEnd P msg ∧ kdfEnd P msg ≤ 255 ∧ kdfEnd P msg ≤ P.hlen :=
  patternEnd_bounds P.hlen_ge _

theorem kdf_plen (P : Config.Params) (msg : List Byte) (s : State) :
    (kdf P msg s).plen = BitVec.ofNat 8 (kdfEnd P msg - 4) := by
  simp only [kdf, setPattern_plen]; rfl

theorem kdf_pat (P : Config.Params) (msg : List Byte) (s : State) :
    (kdf P msg s).pat = s.pat.writeBytes 0 (patternOf (P.hash msg).toList (kdfEnd P msg)) := by
  simp only [kdf, setPattern_pat, draw_pat, prgSeed_pat]; rfl

/-- What `kdf` leaves (41_keyderiv.md rules R152 to R157). -/
theorem kdf_spec (P : Config.Params) (msg : List Byte) (s : State) :
    (kdf P msg s).regX = prgStep (kdfSeed P msg) ∧
    (kdf P msg s).plen.toNat = kdfEnd P msg - 4 ∧
    ∀ a, a < kdfEnd P msg - 4 → (kdf P msg s).pat.read? a = (P.hash msg).toList[4 + a]? := by
  have hb := kdfEnd_bounds P msg
  have hlen : (P.hash msg).toList.length = P.hlen := Vector.length_toList
  refine ⟨kdf_regX P msg s, ?_, fun a ha => ?_⟩
  · rw [kdf_plen, BitVec.toNat_ofNat]
    exact Nat.mod_eq_of_lt (by omega)
  · rw [kdf_pat, read?_writeBytes, patternOf_length (by omega), if_pos (by omega)]
    simp only [patternOf, Nat.sub_zero, List.getElem?_drop, List.getElem?_take]
    rw [if_pos (by simp only [Config.patOff]; omega)]

/-! ### The derivation (42_gridbuilder.md rule R172) -/

theorem derive_grid_eq (P : Config.Params) (msg : List Byte) (s : State) :
    (derive P msg s).grid = (gridBuild (kdf P msg s)).grid := by simp only [derive, setPp_grid]

theorem derive_plen_eq (P : Config.Params) (msg : List Byte) (s : State) :
    (derive P msg s).plen = (kdf P msg s).plen := by simp only [derive, setPp_plen, gridBuild_plen]

theorem derive_pat_eq (P : Config.Params) (msg : List Byte) (s : State) :
    (derive P msg s).pat = (kdf P msg s).pat := by simp only [derive, setPp_pat, gridBuild_pat]

theorem derive_regX_eq (P : Config.Params) (msg : List Byte) (s : State) :
    (derive P msg s).regX = (gridBuild (kdf P msg s)).regX := by simp only [derive, setPp_regX]

/-- What `derive` leaves: X 65537 draws after the seed, the pattern, and all 65536 entries of GRID. None of it depends on
the state before (42_gridbuilder.md rules R172, R173). -/
theorem derive_spec (P : Config.Params) (msg : List Byte) (s : State) :
    (derive P msg s).regX = prgStep^[65537] (kdfSeed P msg) ∧
    (derive P msg s).plen.toNat = kdfEnd P msg - 4 ∧
    (∀ a, a < kdfEnd P msg - 4 → (derive P msg s).pat.read? a = (P.hash msg).toList[4 + a]?) ∧
    ∀ a, a < 65536 →
      (derive P msg s).grid.read? a
        = (nextPerm (tableSeed (prgStep (kdfSeed P msg)) (a / 256))).1[a % 256]? := by
  obtain ⟨hx, hl, hp⟩ := kdf_spec P msg s
  obtain ⟨gx, gg⟩ := gridBuild_spec (kdf P msg s)
  refine ⟨?_, hl, hp, fun a ha => ?_⟩
  · rw [derive_regX_eq, gx, hx, ← Function.iterate_succ_apply]
  · rw [derive_grid_eq, gg a ha, hx]

/-- A derivation keeps PAT from its PLEN upward: it writes the pattern and nothing above it (41_keyderiv.md rule R152). -/
theorem derive_pat_above (P : Config.Params) (msg : List Byte) (s : State) {a : Nat}
    (h : (derive P msg s).plen.toNat ≤ a) : (derive P msg s).readByte .pat a = s.readByte .pat a := by
  have hb := kdfEnd_bounds P msg
  have hl : (patternOf (P.hash msg).toList (kdfEnd P msg)).length = kdfEnd P msg - 4 :=
    patternOf_length (by rw [Vector.length_toList]; omega)
  rw [(derive_spec P msg s).2.1] at h
  simp only [State.readByte, State.space, derive_pat_eq, kdf_pat, read?_writeBytes, hl]
  rw [if_neg (by omega)]

/-- A derivation keeps what stands above the 65536 entries of GRID. -/
theorem derive_grid_above (P : Config.Params) (msg : List Byte) (s : State) {a : Nat} (h : 65536 ≤ a) :
    (derive P msg s).readByte .grid a = s.readByte .grid a := by
  simp only [State.readByte, State.space, derive_grid_eq, gridBuild_grid]
  rw [(gridLoop_spec 256 0 _).2 a, if_neg (by omega)]
  simp only [kdf_grid]

end Sys2Proof.Machine
end

