-- ==== Sys2Proof/Laws/Ops.lean ====
section
/-! SUPPORT. What acceptance, the start commands and the table lookups do, said once. -/

namespace Sys2Proof.Machine

/-! ### Acceptance (30_encoding.md rule R100) -/

theorem accept_fault {i : Instr} {body : State → State} {s : State} (h : s.phase = .fault) :
    accept i body s = .next s := by
  simp only [accept, h, if_true]

theorem accept_illegal {i : Instr} {body : State → State} {s : State} (hf : s.phase ≠ .fault)
    (h : legalIn i s.phase = false) : accept i body s = .next (raise .illegalCommand (encode i) s) := by
  simp only [accept, if_neg hf, h, Bool.false_eq_true, if_false]

theorem accept_legal {i : Instr} {body : State → State} {s : State} (hf : s.phase ≠ .fault)
    (h : legalIn i s.phase = true) : accept i body s = .next (body s) := by
  simp only [accept, if_neg hf, h, if_true]

/-- Acceptance gives one of three next states and nothing else. -/
theorem accept_cases (i : Instr) (body : State → State) (s : State) :
    (s.phase = .fault ∧ accept i body s = .next s) ∨
    (s.phase ≠ .fault ∧ legalIn i s.phase = false ∧
      accept i body s = .next (raise .illegalCommand (encode i) s)) ∨
    (s.phase ≠ .fault ∧ legalIn i s.phase = true ∧ accept i body s = .next (body s)) := by
  by_cases hf : s.phase = .fault
  · exact .inl ⟨hf, accept_fault hf⟩
  · cases h : legalIn i s.phase
    · exact .inr (.inl ⟨hf, rfl, accept_illegal hf h⟩)
    · exact .inr (.inr ⟨hf, rfl, accept_legal hf h⟩)

/-! ### The table lookups (43_cipher.md) -/

theorem tableSelect_fst (s : State) :
    (tableSelect s).1 = s.readByte .pat s.pp.toNat + prgByte (prgStep s.regX) := by
  simp only [tableSelect, patNext, draw, setX_pp]
  rw [readByte_congr (t := s) (by simp only [State.space, setX_pat])]

theorem gridAt_congr {s t : State} (h : s.grid = t.grid) (k b : Byte) : gridAt k b s = gridAt k b t :=
  readByte_congr (sp := .grid) h _

theorem gridIndexOf_congr {s t : State} (h : s.grid = t.grid) (k b : Byte) : gridIndexOf k b s = gridIndexOf k b t := by
  simp only [gridIndexOf, gridAt_congr h]

theorem encByte_fst (b : Byte) (s : State) : (encByte b s).1 = gridAt (tableSelect s).1 b s := by
  simp only [encByte]; exact gridAt_congr (tableSelect_grid s) _ _

theorem decByte_fst (b : Byte) (s : State) : (decByte b s).1 = gridIndexOf (tableSelect s).1 b s := by
  simp only [decByte]; exact gridIndexOf_congr (tableSelect_grid s) _ _

/-- What the inverse lookup answers (43_cipher.md rule R183). -/
theorem gridIndexOf_some {t b j : Byte} {s : State} (h : gridIndexOf t b s = some j) : gridAt t j s = b := by
  have := List.find?_some h
  simpa using this

theorem gridIndexOf_none {t b : Byte} {s : State} (h : gridIndexOf t b s = none) (j : Byte) : gridAt t j s ≠ b := by
  have := List.find?_eq_none.1 h j (mem_allBytes j)
  simpa using this

/-! ### The pattern pointer (43_cipher.md rule R186) -/

theorem ppNext_lt {pp plen : Byte} (h : pp.toNat < plen.toNat) : (ppNext pp plen).toNat < plen.toNat := by
  unfold ppNext
  split
  · have : (0 : Byte).toNat = 0 := rfl
    omega
  · rename_i hne
    have hp := plen.isLt
    rw [BitVec.toNat_add]
    have : (1 : Byte).toNat = 1 := rfl
    omega

theorem ppNext_eq_mod {pp plen : Byte} (h : pp.toNat < plen.toNat) :
    (ppNext pp plen).toNat = (pp.toNat + 1) % plen.toNat := by
  unfold ppNext
  split
  · rename_i he
    simp [he]
  · rename_i hne
    have hp := plen.isLt
    rw [BitVec.toNat_add, Nat.mod_eq_of_lt (a := pp.toNat + 1) (by omega)]
    have : (1 : Byte).toNat = 1 := rfl
    omega

/-! ### A live key schedule -/

/-- With HLEN = 64 the pattern always ends with the digest (41_keyderiv.md rule R155). -/
theorem kdfEnd_params (msg : List Byte) : kdfEnd Config.params msg = 64 := by
  have h := truncateLength_bounds (prgByte (prgStep (kdfSeed Config.params msg)))
  have he : Config.params.hlen = 64 := rfl
  simp only [kdfEnd, patternEnd, he]; omega

/-- A derivation leaves a live key schedule (42_gridbuilder.md rules R172, R174). -/
theorem derive_live (P : Config.Params) (msg : List Byte) (s : State) : ScheduleLive (derive P msg s) := by
  obtain ⟨-, hl, hp, hg⟩ := derive_spec P msg s
  have hb := kdfEnd_bounds P msg
  refine ⟨by rw [hl]; omega, by rw [hl, derive_pp]; simp; omega, fun a ha => ?_, fun k hk => ?_⟩
  · rw [hl] at ha
    rw [hp a ha]
    have : (P.hash msg).toList.length = P.hlen := Vector.length_toList
    rw [List.getElem?_eq_getElem (by omega)]; rfl
  · refine ⟨_, (nextPerm_spec (tableSeed (prgStep (kdfSeed P msg)) k)).1, fun n hn => ?_⟩
    have e1 : gridAddr k n / 256 = k := by simp only [gridAddr]; omega
    have e2 : gridAddr k n % 256 = n := by simp only [gridAddr]; omega
    rw [hg _ (by simp only [gridAddr]; omega), e1, e2]

/-- The pattern length a derivation leaves (41_keyderiv.md rules R154, R156). -/
theorem derive_length (P : Config.Params) (msg : List Byte) (s : State) :
    ∃ T, 128 ≤ T ∧ T ≤ 255 ∧ (derive P msg s).plen.toNat = min T P.hlen - 4 := by
  have hT := truncateLength_bounds (prgByte (prgStep (kdfSeed P msg)))
  exact ⟨_, hT.1, hT.2, (derive_spec P msg s).2.1⟩

/-- On this hardware, HLEN = 64, a derivation leaves 60 pattern bytes (10_state.md rule R26). -/
theorem derive_plen_params (msg : List Byte) (s : State) : (derive Config.params msg s).plen = 60 :=
  BitVec.eq_of_toNat_eq (by rw [(derive_spec Config.params msg s).2.1, kdfEnd_params]; rfl)

/-- A derivation keeps the spaces in canonical form and in range. -/
theorem derive_spaces (P : Config.Params) (msg : List Byte) {s : State} (h : SpacesOk s) :
    SpacesOk (derive P msg s) := by
  have hg := gridLoop_wf 256 0 ((kdf P msg s).grid, (kdf P msg s).regX) (by simpa using h.gridWf)
  have hb := kdfEnd_bounds P msg
  have hl : (patternOf (P.hash msg).toList (kdfEnd P msg)).length = kdfEnd P msg - 4 := by
    rw [patternOf_length]
    exact hb.2.2.trans (Vector.length_toList (xs := P.hash msg)).ge
  refine ⟨by simpa using h.pwWf, by simpa using h.nonceWf, ?_, ?_, by simpa using h.nonceIn, ?_, ?_⟩
  · rw [derive_pat_eq, kdf_pat]; exact wf_writeBytes h.patWf _ _
  · rw [derive_grid_eq, gridBuild_grid]; exact hg.1
  · rw [derive_pat_eq, kdf_pat]
    intro c hc
    rcases mem_writeBytes hc with hc | hc
    · exact h.patIn c hc
    · omega
  · rw [derive_grid_eq, gridBuild_grid]
    intro c hc
    rcases hg.2 c hc with hc | hc
    · exact h.gridIn c (by simpa using hc)
    · omega

/-- A live key schedule is one of four fields; whatever keeps them, and PP in range, keeps it. -/
theorem ScheduleLive.congr {s t : State} (h : ScheduleLive s) (hl : t.plen = s.plen) (hp : t.pat = s.pat)
    (hg : t.grid = s.grid) (hpp : t.pp.toNat < s.plen.toNat) : ScheduleLive t :=
  ⟨by rw [hl]; exact h.plen, by rw [hl]; exact hpp, by rw [hl, hp]; exact h.pattern, by rw [hg]; exact h.tables⟩

theorem ScheduleLive.ppNext_lt {s : State} (h : ScheduleLive s) : (ppNext s.pp s.plen).toNat < s.plen.toNat :=
  Machine.ppNext_lt h.pp

/-- Row `t` of a live GRID as a list: entry `b` is what the direct lookup gives. -/
theorem ScheduleLive.row {s : State} (h : ScheduleLive s) (t : Byte) :
    ∃ row : List Byte, row.Perm allBytes ∧ ∀ b : Byte, row[b.toNat]? = some (gridAt t b s) := by
  obtain ⟨row, hp, hr⟩ := h.tables t.toNat t.isLt
  refine ⟨row, hp, fun b => ?_⟩
  have hlen : row.length = 256 := by rw [hp.length_eq, allBytes_length]
  have hb : b.toNat < row.length := by rw [hlen]; exact b.isLt
  have := hr b.toNat b.isLt
  simp only [gridAt, State.readByte, State.space, this, List.getElem?_eq_getElem hb, Option.getD_some]

/-- Every table of a live GRID is one to one (42_gridbuilder.md rule R174). -/
theorem ScheduleLive.gridAt_inj {s : State} (h : ScheduleLive s) {t a b : Byte} (he : gridAt t a s = gridAt t b s) :
    a = b := by
  obtain ⟨row, hp, hr⟩ := h.row t
  have hnd : row.Nodup := hp.nodup_iff.2 allBytes_nodup
  have hlen : row.length = 256 := by rw [hp.length_eq, allBytes_length]
  have : row[a.toNat]? = row[b.toNat]? := by rw [hr a, hr b, he]
  exact BitVec.eq_of_toNat_eq ((List.getElem?_inj (by rw [hlen]; exact a.isLt) hnd).1 this)

/-- Every byte is an entry of every table of a live GRID (42_gridbuilder.md rule R174). -/
theorem ScheduleLive.gridAt_surj {s : State} (h : ScheduleLive s) (t b : Byte) : ∃ j, gridAt t j s = b := by
  obtain ⟨row, hp, hr⟩ := h.row t
  obtain ⟨n, hn, hb⟩ := List.getElem_of_mem (hp.mem_iff.2 (mem_allBytes b))
  have hlen : row.length = 256 := by rw [hp.length_eq, allBytes_length]
  have hj := hr (BitVec.ofNat 8 n)
  have e : (BitVec.ofNat 8 n).toNat = n := by simp; omega
  rw [e, List.getElem?_eq_getElem hn, hb] at hj
  exact ⟨_, (Option.some.inj hj).symm⟩

/-- The inverse lookup undoes the direct one in a live GRID (43_cipher.md rule R184). -/
theorem ScheduleLive.gridIndexOf_gridAt {s : State} (h : ScheduleLive s) (t b : Byte) :
    gridIndexOf t (gridAt t b s) s = some b := by
  cases hi : gridIndexOf t (gridAt t b s) s with
  | none => exact absurd rfl (gridIndexOf_none hi b)
  | some j => rw [h.gridAt_inj (gridIndexOf_some hi)]

/-- In a live GRID the inverse lookup always finds its byte (43_cipher.md rule R185). -/
theorem ScheduleLive.gridIndexOf_found {s : State} (h : ScheduleLive s) (t b : Byte) :
    ∃ j, gridIndexOf t b s = some j := by
  obtain ⟨j, hj⟩ := h.gridAt_surj t b
  exact ⟨j, hj ▸ h.gridIndexOf_gridAt t j⟩

/-! ### Runs of enciphered bytes -/

/-- Enciphering one byte and pushing it, as one record. -/
theorem putEnc_eq (b : Byte) (s : State) :
    putEnc b s = { s with
      regX := prgStep s.regX, pp := ppNext s.pp s.plen, out := s.out ++ [gridAt (tableSelect s).1 b s] } := by
  rw [putEnc, encByte_fst]
  apply State.ext <;> simp [encByte]

/-- A run of `n` bytes enciphered and pushed: X is `n` draws on, and byte `i` goes through the table that the pattern byte at
PP + i, modulo PLEN, and draw `i + 1` select (43_cipher.md rules R181, R182, R186). -/
theorem putEncAll_spec (bs : List Byte) (s : State) (h : s.pp.toNat < s.plen.toNat) :
    putEncAll bs s = { s with
      regX := prgStep^[bs.length] s.regX
      pp := (putEncAll bs s).pp
      out := s.out ++ (List.range bs.length).map (fun i =>
        gridAt (s.readByte .pat ((s.pp.toNat + i) % s.plen.toNat) + prgByte (prgStep^[i + 1] s.regX)) (bs.getD i 0) s) } := by
  induction bs generalizing s with
  | nil => cases s; simp [putEncAll]
  | cons b bs ih =>
    have hp : (putEnc b s).pp = ppNext s.pp s.plen := by rw [putEnc_eq]
    have hl : (putEnc b s).plen = s.plen := by rw [putEnc_eq]
    have hlt := ppNext_lt h
    have hm := ppNext_eq_mod h
    have hg : ∀ k c, gridAt k c (putEnc b s) = gridAt k c s := fun k c => gridAt_congr (by rw [putEnc_eq]) k c
    have hr : ∀ a, (putEnc b s).readByte .pat a = s.readByte .pat a := fun a => readByte_congr (by rw [putEnc_eq]; rfl) a
    have hx : (putEnc b s).regX = prgStep s.regX := by rw [putEnc_eq]
    have ho : (putEnc b s).out = s.out ++ [gridAt (tableSelect s).1 b s] := by rw [putEnc_eq]
    rw [putEncAll, ih (putEnc b s) (by rw [hp, hl]; exact hlt)]
    simp only [hp, hl, hg, hr, hx, ho, hm]
    rw [putEnc_eq, tableSelect_fst]
    simp only [List.length_cons, List.range_succ_eq_map, List.map_cons, List.map_map, List.append_assoc, List.cons_append,
      List.nil_append, Nat.add_zero, Nat.mod_eq_of_lt h, Function.iterate_succ_apply, List.getD_cons_zero,
      Function.comp_def, List.getD_cons_succ, Nat.mod_add_mod, Function.iterate_zero, id_eq]
    simp only [Nat.succ_eq_add_one, Nat.add_assoc, Nat.add_comm 1]

/-- Where the entry of table `p + r`, modulo 256, for the byte `b` stands. -/
theorem gridAddr_add (p r b : Byte) : gridAddr (p + r).toNat b.toNat = 256 * (p.toNat + r.toNat) % 65536 + b.toNat := by
  rw [gridAddr, BitVec.toNat_add, ← Nat.mul_mod_mul_left]

theorem nonceSeq_length (s : State) : s.nonceSeq.length = 128 := by
  simp only [State.nonceSeq, State.readRun, List.length_map, List.length_range, Config.nonceLen]

theorem nonceSeq_getD {s : State} {i : Nat} (h : i < 128) : s.nonceSeq.getD i 0 = s.readByte .nonce i := by
  simp only [State.nonceSeq, State.readRun, Config.nonceLen, List.getD_eq_getElem?_getD, List.getElem?_map,
    List.getElem?_range h, Option.map_some, Option.getD_some]

/-- States that agree in PW, PWLEN and NONCE hold the same password and nonce. -/
theorem pwSeq_congr {s t : State} (h : t.pw = s.pw) (hl : t.pwlen = s.pwlen) : t.pwSeq = s.pwSeq := by
  simp only [State.pwSeq, State.readRun, hl]
  exact congrFun (congrArg List.map (funext fun a => readByte_congr (sp := .pw) h a)) _

theorem nonceSeq_congr {s t : State} (h : t.nonce = s.nonce) : t.nonceSeq = s.nonceSeq := by
  simp only [State.nonceSeq, State.readRun]
  exact congrFun (congrArg List.map (funext fun a => readByte_congr (sp := .nonce) h a)) _

end Sys2Proof.Machine
end

