-- ==== Sys2Proof/Laws/Exec.lean ====
section
/-! SUPPORT. What `exec` can do, said once: RST resets, and every other command is the acceptance of its effect; and what one
command can make of the spaces a later command reads. -/

namespace Sys2Proof.Machine

/-- This hardware is the block with the parameters `Config.params`. -/
theorem exec_eq_execWith (i : Instr) (s : State) : exec i s = execWith Config.params i s := by
  cases i <;> rfl

theorem step_eq_stepWith (s : State) : step s = stepWith Config.params s := by
  have : exec = execWith Config.params := funext fun i => funext fun s => exec_eq_execWith i s
  rw [step, stepWith, this]

/-- The effect of a command in a phase it is legal in, as a function of the state. -/
def effectOf (P : Config.Params) : Instr → State → State
  | .rst => resetBlock
  | .endMsg => endPass
  | .pwclr => fun s => s.setPw s.pw 0
  | .pwpush b => pwPush P b
  | .nclr => fun s => s.setNlen 0
  | .npush b => noncePush b
  | .ngen => nonceDraw
  | .lds b => loadSeedByte b
  | .seed => fun s => prgSeed s.regS.toNat s
  | .nextb => putDraw
  | .nextp => putPerm
  | .spe => startPass P .enc
  | .spd => startPass P .dec
  | .encm => encMessage P
  | .decm => decMessage P
  | .encb b => putEnc b
  | .decb b => decipher P b

theorem execWith_rst (P : Config.Params) (s : State) : execWith P .rst s = .next (resetBlock s) := rfl

/-- Every command but RST is the acceptance of its effect. -/
theorem execWith_eq_accept (P : Config.Params) {i : Instr} (h : i ≠ .rst) (s : State) :
    execWith P i s = accept i (effectOf P i) s := by
  cases i
  case rst => exact absurd rfl h
  all_goals rfl

theorem exec_eq_accept {i : Instr} (h : i ≠ .rst) (s : State) :
    exec i s = accept i (effectOf Config.params i) s := by
  rw [exec_eq_execWith, execWith_eq_accept _ h]

/-- A next state of `execWith` is the reset state, the same state, an IllegalCommand, or the command's effect. -/
theorem execWith_next_cases {P : Config.Params} {i : Instr} {s t : State} (h : execWith P i s = .next t) :
    (i = .rst ∧ t = resetBlock s) ∨
    (i ≠ .rst ∧ s.phase = .fault ∧ t = s) ∨
    (i ≠ .rst ∧ s.phase ≠ .fault ∧ legalIn i s.phase = false ∧ t = raise .illegalCommand (encode i) s) ∨
    (i ≠ .rst ∧ s.phase ≠ .fault ∧ legalIn i s.phase = true ∧ t = effectOf P i s) := by
  by_cases hi : i = .rst
  · subst hi; exact .inl ⟨rfl, (Host.Outcome.next.inj h).symm⟩
  · rw [execWith_eq_accept P hi] at h
    rcases accept_cases i (effectOf P i) s with ⟨hf, e⟩ | ⟨hf, hl, e⟩ | ⟨hf, hl, e⟩ <;>
      rw [e] at h <;> have h := (Host.Outcome.next.inj h).symm
    · exact .inr (.inl ⟨hi, hf, h⟩)
    · exact .inr (.inr (.inl ⟨hi, hf, hl, h⟩))
    · exact .inr (.inr (.inr ⟨hi, hf, hl, h⟩))

/-- With PW_MAX unbounded PWPUSH always appends (41_keyderiv.md rule R161). -/
theorem pwPush_params (b : Byte) (s : State) : pwPush Config.params b s = pwAppend b s := by
  have : Config.params.pwMax = none := rfl
  simp only [pwPush, this, reduceCtorEq, if_false]

theorem nlen_succ {n : Byte} (h : n.toNat < 128) : (n + 1).toNat = n.toNat + 1 := by
  rw [BitVec.toNat_add]
  have : (1 : Byte).toNat = 1 := rfl
  omega

/-- Appending to NONCE below 128 keeps the spaces in canonical form and in range. -/
theorem nonceAppend_spaces {s : State} (b : Byte) (hs : SpacesOk s) (hn : s.nlen.toNat < 128) :
    SpacesOk (nonceAppend b s) := by
  refine ⟨by simpa using hs.pwWf, by simpa using wf_write hs.nonceWf _ _, by simpa using hs.patWf,
    by simpa using hs.gridWf, fun c hc => ?_, by simpa using hs.patIn, by simpa using hs.gridIn⟩
  simp only [nonceAppend_nonce] at hc
  rcases mem_writeBytes hc with hc | hc
  · exact hs.nonceIn c hc
  · simp only [List.length_singleton] at hc; omega

/-! ### Sequences of commands (00_scope.md rule R11) -/

theorem finish_of_not_held {s : State} (h : s.ngenWait = false) : finish s = some s := by
  simp only [finish, h, Bool.false_eq_true, if_false]

/-- With no NGEN held, a command that answers `t` is followed by the rest of the sequence from `t`. -/
theorem perform_command {P : Config.Params} {i : Instr} {es : List Event} {s t : State} (h : s.ngenWait = false)
    (he : execWith P i s = .next t) :
    perform P (.command i :: es) s = (perform P es t).map (fun r => (r.1, bytesPushed s t ++ r.2)) := by
  simp only [perform, finish_of_not_held h, he]

theorem bytesPushed_append {s t : State} {bs : List Byte} (h : t.out = s.out ++ bs) : bytesPushed s t = bs := by
  simp only [bytesPushed, h, List.drop_left]

/-- Setting X and pushing a run of bytes, as one record. -/
theorem pushAll_setX_eq (s : State) (x : Word64) (bs : List Byte) :
    (s.setX x).pushAll bs = { s with regX := x, out := s.out ++ bs } := by
  cases s; rfl

/-- NEXTP's effect as one record: rewrite with it before comparing fields, so that nothing evaluates the generator. -/
theorem putPerm_eq (s : State) :
    putPerm s = { s with regX := prgStep^[256] s.regX, out := s.out ++ (nextPerm s.regX).1 } := by
  rw [putPerm, pushAll_setX_eq, (nextPerm_spec s.regX).2]

/-- Only the key schedule differs between two states that agree on every other field. Use it at a derived state with the
field lemmas of Laws/State.lean. -/
theorem OnlySchedule.of_fields {s t : State} (h1 : t.regS = s.regS) (h2 : t.pw = s.pw) (h3 : t.pwlen = s.pwlen)
    (h4 : t.nonce = s.nonce) (h5 : t.nlen = s.nlen) (h6 : t.phase = s.phase) (h7 : t.err = s.err)
    (h8 : t.einfo = s.einfo) (h9 : t.out = s.out) (h10 : t.cmdIn = s.cmdIn) (h11 : t.ngenWait = s.ngenWait)
    (h12 : t.rngOn = s.rngOn) (h13 : t.rngDraws = s.rngDraws)
    (hp : ∀ a, t.plen.toNat ≤ a → t.readByte .pat a = s.readByte .pat a)
    (hg : ∀ a, 65536 ≤ a → t.readByte .grid a = s.readByte .grid a) : OnlySchedule s t :=
  ⟨State.ext rfl h1 h2 h3 h4 h5 rfl rfl rfl rfl h6 h7 h8 h9 h10 h11 h12 h13, hp, hg⟩

/-- A derivation changes the key schedule only (10_state.md rule R35). -/
theorem derive_only (P : Config.Params) (msg : List Byte) (s : State) : OnlySchedule s (derive P msg s) :=
  OnlySchedule.of_fields (derive_regS _ _ _) (derive_pw _ _ _) (derive_pwlen _ _ _) (derive_nonce _ _ _)
    (derive_nlen _ _ _) (derive_phase _ _ _) (derive_err _ _ _) (derive_einfo _ _ _) (derive_out _ _ _)
    (derive_cmdIn _ _ _) (derive_ngenWait _ _ _) (derive_rngOn _ _ _) (derive_rngDraws _ _ _)
    (fun _ => derive_pat_above P msg s) (fun _ => derive_grid_above P msg s)

/-- ENCM with a full nonce: the nonce pass over the password's key schedule, then the re-derivation (44_nonce_message.md rule
R204). -/
theorem encMessage_long {P : Config.Params} {s : State} (h : s.nlen.toNat = 128) :
    encMessage P s = rederive P .enc (putEncAll s.nonceSeq (derive P s.pwSeq s)) := by
  have hs : encMessage P s = rederive P .enc (putEncAll (derive P s.pwSeq s).nonceSeq (derive P s.pwSeq s)) := if_pos h
  rw [hs, nonceSeq_congr (derive_nonce P s.pwSeq s)]

end Sys2Proof.Machine
end

