-- ==== Sys2Proof/Laws/PerInstr.lean ====
section
/-! SUPPORT. The family FieldsOfWord: what stands in the two fields of each command's word (30_encoding.md rules R90 to R92,
R96), one lemma per command. -/

namespace Sys2Proof.Laws.FieldsOfWord

/-- The word of `i` has the opcode of `i` in W[15:8] and its operand, or 0, in W[7:0], and passes both checks on words. -/
def Statement (i : Instr) : Prop :=
  opField (encode i) = i.opcode ∧ immField (encode i) = i.operand.getD 0 ∧
    wordWellFormed (opField (encode i)) (immField (encode i)) = true

theorem opField_mkWord (op imm : Byte) : opField (mkWord op imm) = op :=
  BitVec.extractLsb'_append_eq_left

theorem immField_mkWord (op imm : Byte) : immField (mkWord op imm) = imm :=
  BitVec.extractLsb'_append_eq_right

theorem statement_of_legal {i : Instr} (ha : (opcodesN.contains i.opcode || opcodesB.contains i.opcode) = true)
    (hb : (!opcodesN.contains i.opcode || i.operand.getD 0 == 0) = true) : Statement i := by
  refine ⟨opField_mkWord _ _, immField_mkWord _ _, ?_⟩
  simp only [wordWellFormed, opcodeAssigned, immediateAllowed, encode, opField_mkWord, immField_mkWord, ha, hb, Bool.and_self]

theorem rst : Statement .rst := statement_of_legal rfl rfl
theorem endMsg : Statement .endMsg := statement_of_legal rfl rfl
theorem pwclr : Statement .pwclr := statement_of_legal rfl rfl
theorem pwpush (imm8 : Byte) : Statement (.pwpush imm8) := statement_of_legal rfl rfl
theorem nclr : Statement .nclr := statement_of_legal rfl rfl
theorem npush (imm8 : Byte) : Statement (.npush imm8) := statement_of_legal rfl rfl
theorem ngen : Statement .ngen := statement_of_legal rfl rfl
theorem lds (imm8 : Byte) : Statement (.lds imm8) := statement_of_legal rfl rfl
theorem seed : Statement .seed := statement_of_legal rfl rfl
theorem nextb : Statement .nextb := statement_of_legal rfl rfl
theorem nextp : Statement .nextp := statement_of_legal rfl rfl
theorem spe : Statement .spe := statement_of_legal rfl rfl
theorem spd : Statement .spd := statement_of_legal rfl rfl
theorem encm : Statement .encm := statement_of_legal rfl rfl
theorem decm : Statement .decm := statement_of_legal rfl rfl
theorem encb (imm8 : Byte) : Statement (.encb imm8) := statement_of_legal rfl rfl
theorem decb (imm8 : Byte) : Statement (.decb imm8) := statement_of_legal rfl rfl

end Sys2Proof.Laws.FieldsOfWord
end

