-- ==== Sys2Proof/Tests/Slice0.lean ====
section
/-! SUPPORT. Tests of the model against the vectors of 95_test_vectors.md and the examples of the command rules, the smoke
tests of the well-formedness checks, and for every obligation with hypotheses a concrete state and operands that meet
them. -/

namespace Sys2Proof.Tests

/- One test at a time, so that the tests that evaluate the generator do not hold many threads at once. -/
set_option Elab.async false

open Sys2Proof.Machine

/-! ### Helpers -/

/-- The reset state put in a phase. -/
def inPhase (p : Phase) : State := { State.reset with phase := p }

/-- The next state of an outcome, if it has one. -/
def nextOf (o : Host.Outcome State Fault Refusal) : Option State :=
  match o with
  | .next t => some t
  | .fault _ => none
  | .refused _ => none

/-- PHASE, ERR, EINFO and X of a next state. -/
def faultView (o : Host.Outcome State Fault Refusal) : Option (Phase × Err × Word × Word64) :=
  (nextOf o).map (fun t => (t.phase, t.err, t.einfo, t.regX))

/-- H of vector V-KDF-1: the constant digest D[j] = j, HLEN = 64. -/
def given : Config.Params where
  hlen := 64
  hlen_ge := by decide
  hash := fun _ => Vector.ofFn (fun j : Fin 64 => BitVec.ofNat 8 j.val)
  pwMax := none

/-- A digest of zeros of any length, and a password buffer of two bytes (V-ERR-20). -/
def zeros (n : Nat) (h : 5 ≤ n) : Config.Params where
  hlen := n
  hlen_ge := h
  hash := fun _ => Vector.replicate n 0
  pwMax := some 2

/-- A digest of 256 bytes: 0, 0, 0 and then ones for the empty message, all zeros for any other. -/
def wide : Config.Params where
  hlen := 256
  hlen_ge := by decide
  hash := fun msg => Vector.ofFn (fun j : Fin 256 => if msg = [] ∧ 3 ≤ j.val then 1 else 0)
  pwMax := none

/-- The identity table but for two entries: entry 68 of it is B7, entry B7 is 68 (row 18 of V-CIPH-1 at its entry 68). -/
def rowB7 : List Byte := allBytes.map (fun j => if j = 0x68 then 0xB7 else if j = 0xB7 then 0x68 else j)

/-- The block as V-CIPH-1 has it before its first byte, so far as that byte can see: X, PP, PLEN, PAT[0] and table 18. -/
def ciph (p : Phase) : State :=
  { inPhase p with
    regX := 0x9DBAABC08AD8AE58, plen := 60, pat := [(0, 0x93)], grid := cellsFrom (gridAddr 18 0) rowB7 }

/-- X = 0 and PAT[0] = 0, so that the next table is table 0, filled with `row`. -/
def table0 (p : Phase) (row : List Byte) : State :=
  { inPhase p with plen := 60, pat := [(0, 0)], grid := cellsFrom 0 row }

/-- A body of a pass over two bytes in which the host takes one. -/
def body : List Event := [.command (.encb 0x68), .host .take, .command (.encb 0x69)]

/-! ### Well-formedness: each check refuses an ill-formed word, and every command passes -/

theorem test_unassigned_opcode_ill_formed :
    opcodeAssigned 0x00 = false ∧ wordWellFormed 0x00 0x00 = false ∧ opcodeAssigned 0x42 = false ∧
    opcodeAssigned 0xFF = false ∧ decode 0x0000 = .error (.unassignedOpcode 0) := by decide

theorem test_format_n_immediate_ill_formed :
    immediateAllowed 0x01 0x01 = false ∧ wordWellFormed 0x01 0x01 = false ∧ opcodeAssigned 0x01 = true ∧
    decode 0x0101 = .error (.immediateNotZero 1 1) := by decide

theorem test_commands_well_formed :
    Instr.rst.wellFormed = true ∧ (Instr.pwpush 0xFF).wellFormed = true ∧ wordWellFormed 0x11 0xFF = true ∧
    wordWellFormed 0x01 0x00 = true := by decide

/-! ### Decoding: one word of every command, written out from the encoding (V-DEC-1) -/

theorem test_decode_rst : decode 0x0100 = .ok .rst := by decide
theorem test_decode_end : decode 0x0200 = .ok .endMsg := by decide
theorem test_decode_pwclr : decode 0x1000 = .ok .pwclr := by decide
theorem test_decode_pwpush : decode 0x1100 = .ok (.pwpush 0x00) ∧ decode 0x11FF = .ok (.pwpush 0xFF) := by decide
theorem test_decode_nclr : decode 0x1200 = .ok .nclr := by decide
theorem test_decode_npush : decode 0x137F = .ok (.npush 0x7F) := by decide
theorem test_decode_ngen : decode 0x1400 = .ok .ngen := by decide
theorem test_decode_lds : decode 0x20AB = .ok (.lds 0xAB) := by decide
theorem test_decode_seed : decode 0x2100 = .ok .seed := by decide
theorem test_decode_nextb : decode 0x2200 = .ok .nextb := by decide
theorem test_decode_nextp : decode 0x2300 = .ok .nextp := by decide
theorem test_decode_spe : decode 0x3000 = .ok .spe := by decide
theorem test_decode_spd : decode 0x3100 = .ok .spd := by decide
theorem test_decode_encm : decode 0x3200 = .ok .encm := by decide
theorem test_decode_decm : decode 0x3300 = .ok .decm := by decide
theorem test_decode_encb : decode 0x4068 = .ok (.encb 0x68) := by decide
theorem test_decode_decb : decode 0x41B7 = .ok (.decb 0xB7) := by decide

/-- The illegal words of V-DEC-1. -/
theorem test_decode_illegal :
    [0x0101, 0x1401, 0x0000, 0x0300, 0x1500, 0x2400, 0x3400, 0x4200, 0xFFFF].all
      (fun w => (decodeTableWord 16 w).isNone) = true := by decide

/-- Rule R102: the assembler lines of two commands; rule R103: the words of SEED64 1 (program P1). -/
theorem test_assembler :
    Instr.asmLine (.encb 0x68) = "ENCB #104" ∧ Instr.asmLine .ngen = "NGEN" ∧
    (Pseudo.seed64 1).words = [0x2000, 0x2000, 0x2000, 0x2000, 0x2000, 0x2000, 0x2000, 0x2001, 0x2100] := by
  decide +kernel

/-! ### The control and buffer commands -/

/-- The example of rule R221: in FAULT with ERR = 2 and EINFO = 5, RST leaves IDLE, 0, 0, PWLEN = 0 and OUT empty. -/
theorem test_rst :
    (nextOf (exec .rst { inPhase .fault with err := .truncatedCiphertext, einfo := 5, pwlen := 3, out := [0xB7] })).map
      (fun t => (t.phase, t.err, t.einfo, t.pwlen, t.out)) = some (.idle, .none, 0, 0, []) := by decide

/-- The example of rule R222 (V-END-1): END leaves X, PLEN, PP, NLEN = 0, PWLEN = 3 and OUT as it was. -/
theorem test_end :
    (nextOf (exec .endMsg { ciph .enc with pwlen := 3, pp := 1, out := [0xB7] })).map
      (fun t => (t.regX, t.plen, t.pp, t.pwlen, t.out)) = some (0, 0, 0, 3, [0xB7]) := by decide

/-- V-ERR-6: END after five bytes in DECN. -/
theorem test_end_truncated :
    faultView (exec .endMsg { ciph .decn with nlen := 5 }) = some (.fault, .truncatedCiphertext, 5, 0) := by decide

/-- The example of rule R160. -/
theorem test_pwclr : (nextOf (exec .pwclr { State.reset with pwlen := 3 })).map (·.pwlen) = some 0 := by decide

/-- The example of rule R161: the first byte of "abc". -/
theorem test_pwpush :
    (nextOf (exec (.pwpush 0x61) State.reset)).map (fun t => (t.pwlen, t.pw)) = some (1, [(0, 0x61)]) := by
  decide +kernel

/-- V-ERR-20: a step that takes the third byte into a buffer of two. -/
theorem test_pwpush_overflow :
    (nextOf (stepWith (zeros 64 (by decide)) (placeWord 0x1163 { State.reset with pwlen := 2 }))).map
      (fun t => (t.phase, t.err, t.einfo, t.pwlen)) = some (.fault, .passwordOverflow, 2, 2) := by decide +kernel

/-- The example of rule R200. -/
theorem test_nclr : (nextOf (exec .nclr { State.reset with nlen := 2 })).map (·.nlen) = some 0 := by decide

/-- V-NONCE-1: the 128th byte makes NLEN = 128. -/
theorem test_npush :
    (nextOf (exec (.npush 0x5A) { State.reset with nlen := 127 })).map (fun t => (t.nlen, t.nonce))
      = some (128, [(127, 0x5A)]) := by decide +kernel

/-- V-NONCE-1: the 129th makes NLEN = 129 and is dropped. -/
theorem test_npush_saturates :
    (nextOf (exec (.npush 0x5A) { State.reset with nlen := 128 })).map (fun t => (t.nlen, t.nonce)) = some (129, []) := by
  decide +kernel

/-- Rule R202: NGEN makes NLEN = 128 whatever it was, and does not touch X. -/
theorem test_ngen :
    (nextOf (exec .ngen { State.reset with nlen := 129, regX := 7 })).map (fun t => (t.nlen, t.regX)) = some (128, 7) := by
  decide +kernel

/-- The example of rule R202: a draw of 128 bytes A5. -/
theorem test_ngen_bytes :
    (nonceFill (List.replicate 128 0xA5) State.reset).nonceSeq = List.replicate 128 0xA5 := by decide +kernel

/-! ### The generator commands -/

/-- V-LDS-1: the second byte. -/
theorem test_lds : (nextOf (exec (.lds 0x34) { State.reset with regS := 0x12 })).map (·.regS) = some 0x1234 := by
  decide +kernel

/-- V-LDS-1: the ninth byte shifts the first out. -/
theorem test_lds_ninth :
    (nextOf (exec (.lds 0x08) { State.reset with regS := 0xAA01020304050607 })).map (·.regS)
      = some 0x0102030405060708 := by decide +kernel

/-- V-LDS-1: SEED copies S and keeps it. -/
theorem test_seed :
    (nextOf (exec .seed { State.reset with regS := 0x0102030405060708 })).map (fun t => (t.regX, t.regS))
      = some (0x0102030405060708, 0x0102030405060708) := by decide +kernel

/-- V-PRG-1. -/
theorem test_nextb :
    (nextOf (exec .nextb { State.reset with regX := 1 })).map (fun t => (t.regX, t.out))
      = some (0x0000008008001001, [0xF1]) := by decide +kernel

/-- V-PRG-2, where every shift loses bits. -/
theorem test_nextb_wide :
    (nextOf (exec .nextb { State.reset with regX := 0x123456789ABCDEF0 })).map (fun t => (t.regX, t.out))
      = some (0x90A63E4226BC375B, [0xF6]) := by decide +kernel

/-! ### Key derivation, the grid and the cipher -/

/-- V-KDF-1: X, PLEN and the ends of the pattern after `kdf`. -/
theorem test_kdf :
    (let t := kdf given [] State.reset
     (t.regX, t.plen, t.pat.read? 0, t.pat.read? 59, t.pat.read? 60))
      = (0x008109904821320B, 60, some 0x04, some 0x3F, none) := by decide +kernel

/-- V-KDF-1: the first sixteen entries of table 0. -/
theorem test_first_table :
    (nextPerm 0x008109904821320B).1.take 16
      = [0x83, 0x21, 0xAC, 0x9B, 0x0A, 0x36, 0xA9, 0x0F, 0xFC, 0x01, 0x58, 0xA5, 0xBB, 0xCB, 0xC9, 0x53] := by
  decide +kernel

/-- Rule R190: SPE enters ENC with PLEN = 60 and PP = 0 and pushes nothing. -/
theorem test_spe : ∃ t, exec .spe State.reset = .next t ∧ t.phase = .enc ∧ t.plen = 60 ∧ t.pp = 0 ∧ t.out = [] :=
  ⟨startPass Config.params .enc State.reset, exec_eq_accept (by decide) _, by simp,
    by simpa using derive_plen_params State.reset.pwSeq State.reset, by simp, by simp [State.reset]⟩

/-- Rule R191: SPD enters DEC. -/
theorem test_spd : ∃ t, exec .spd State.reset = .next t ∧ t.phase = .dec :=
  ⟨startPass Config.params .dec State.reset, exec_eq_accept (by decide) _, by simp⟩

/-- V-CIPH-1, byte 0. -/
theorem test_encb :
    (nextOf (exec (.encb 0x68) (ciph .enc))).map (fun t => (t.out, t.regX, t.pp))
      = some ([0xB7], 0x831DC7B0436C98D8, 1) := by decide +kernel

/-- V-CIPH-3: the pattern wraps after its last byte. -/
theorem test_encb_wraps :
    (nextOf (exec (.encb 0x00) { table0 .enc allBytes with pp := 59, pat := [(59, 0)] })).map (fun t => (t.out, t.pp))
      = some ([0x00], 0) := by decide +kernel

/-- V-CIPH-2, byte 0. -/
theorem test_decb :
    (nextOf (exec (.decb 0xB7) (ciph .dec))).map (fun t => (t.out, t.regX, t.pp))
      = some ([0x68], 0x831DC7B0436C98D8, 1) := by decide +kernel

/-- Rule R207: in DECN the byte is kept in NONCE, and nothing is pushed. -/
theorem test_decb_nonce :
    (nextOf (exec (.decb 0xB7) (ciph .decn))).map (fun t => (t.out, t.nonce, t.nlen, t.phase))
      = some ([], [(0, 0x68)], 1, .decn) := by decide +kernel

/-- V-ERR-2: ENCM with five nonce bytes. -/
theorem test_encm_short :
    faultView (exec .encm { State.reset with nlen := 5, pwlen := 2 })
      = some (.fault, .invalidNonceLength, 0x0005, 0) := by decide +kernel

/-- V-ERR-3: ENCM with too many. -/
theorem test_encm_long :
    faultView (exec .encm { State.reset with nlen := 129, pwlen := 2 })
      = some (.fault, .invalidNonceLength, 0x0081, 0) := by decide +kernel

/-- Rule R206: DECM drops a loaded nonce and enters DECN. -/
theorem test_decm : ∃ t, exec .decm { State.reset with nlen := 128 } = .next t ∧ t.phase = .decn ∧ t.nlen = 0 :=
  ⟨(startPass Config.params .decn { State.reset with nlen := 128 }).setNlen 0, exec_eq_accept (by decide) _, by simp,
    by simp⟩

/-! ### Sequences of commands and the result of a message (rules R11, R13) -/

/-- NGEN without its source never ends, so nothing after it is performed; when the source delivers, it is. -/
theorem test_perform_held :
    perform given [.command .ngen, .command .encm] { State.reset with rngOn := false } = none ∧
    (perform given [.command .ngen, .host (.setRng true), .command .nclr] { State.reset with rngOn := false }).map
      (fun r => (r.1.nlen, r.1.ngenWait, r.1.rngDraws, r.2)) = some (0, false, 128, []) := by decide +kernel

/-- The core's bytes are noted though the host takes one meanwhile: V-PRG-3, seed 1. -/
theorem test_perform_take :
    (perform given [.command .nextb, .host .take, .command .nextb] { State.reset with regX := 1 }).map
      (fun r => (r.1.out, r.2)) = some ([0xCB], [0xF1, 0xCB]) := by decide +kernel

/-- A message that ends in FAULT has no result, and without a start command there is none: V-ERR-1. -/
theorem test_message_without_result :
    messageResult given .encm [] State.reset = none ∧ messageResult given .nextb [] State.reset = none ∧
    messageResult given .encm [.command .endMsg] State.reset = none := by decide +kernel

/-! ### Words in phases where they are not performed -/

/-- V-ERR-9, V-ERR-10, V-ERR-11, V-ERR-12: the first word after reset. -/
theorem test_first_word_faults :
    faultView (step (State.reset.withFetchWord 16 0x0000)) = some (.fault, .illegalCommand, 0x0000, 0) ∧
    faultView (step (State.reset.withFetchWord 16 0x0101)) = some (.fault, .illegalCommand, 0x0101, 0) ∧
    faultView (step (State.reset.withFetchWord 16 0x4068)) = some (.fault, .illegalCommand, 0x4068, 0) ∧
    faultView (step (State.reset.withFetchWord 16 0x0200)) = some (.fault, .illegalCommand, 0x0200, 0) := by
  decide +kernel

/-- V-ERR-13: a raw draw inside a pass; what was pushed stays. -/
theorem test_nextb_in_pass :
    (nextOf (exec .nextb { ciph .enc with pwlen := 3, out := [0xB7] })).map
      (fun t => (t.err, t.einfo, t.regX, t.pwlen, t.out))
      = some (.illegalCommand, 0x2200, 0, 3, [0xB7]) := by decide +kernel

/-- V-ERR-17 and V-ERR-18: in FAULT a word is taken and nothing changes, 0101 included. -/
theorem test_fault_discards :
    nextOf (step ((inPhase .fault).withFetchWord 16 0x11AA)) = some (inPhase .fault) ∧
    nextOf (step ((inPhase .fault).withFetchWord 16 0x0101)) = some (inPhase .fault) := by decide +kernel

/-- The host's entry takes the word as the table numbers it, and places it where step takes its next word. -/
theorem test_host_entries :
    decodeTableWord 16 0x4100 = some (.decb 0) ∧ decodeTableWord 16 0x1401 = none ∧
    fetch (State.reset.withFetchWord 16 0x4100) = .command (.decb 0) := by decide

/-! ### Witnesses: the hypotheses of each obligation are met -/

theorem witness_decode_of_encode : (Instr.decb 0xB7).wellFormed = true := by decide

theorem witness_decode_follows_the_rule :
    (0x0100#16).toNat / 256 = 0x01 ∧ (0x0100#16).toNat % 256 = 0 ∧ (0x33FF#16).toNat / 256 = 0x33 ∧
    (0x33FF#16).toNat % 256 ≠ 0 ∧ (0x4100#16).toNat / 256 = 0x41 ∧ (0x4200#16).toNat / 256 = 0x42 := by decide

theorem witness_encode_of_decode : decode 0x41B7 = .ok (.decb 0xB7) := by decide

theorem witness_step_runs_the_decoded_command :
    (State.reset.withFetchWord 16 0x11FF).ngenWait = false ∧ (State.reset.withFetchWord 16 0x11FF).cmdIn = [0x11FF] ∧
    decode 0x11FF = .ok (.pwpush 0xFF) ∧ (Instr.pwpush 0xFF).wellFormed = true := by decide

/-- One state and word for each of the lines: RST and another word in FAULT, an illegal word, a command out of its phase and
a legal command. -/
theorem witness_acceptance_follows_the_four_lines :
    (placeWord 0x0100 (inPhase .fault)).phase = .fault ∧ (placeWord 0x0100 (inPhase .fault)).ngenWait = false ∧
    (placeWord 0x0100 (inPhase .fault)).cmdIn = [0x0100] ∧ (placeWord 0x0101 (inPhase .fault)).cmdIn = [0x0101] ∧
    (placeWord 0x0000 State.reset).phase ≠ .fault ∧ decode 0x0000 = .error (.unassignedOpcode 0) ∧
    decode 0x4068 = .ok (.encb 0x68) ∧ legalIn (.encb 0x68) (placeWord 0x4068 State.reset).phase = false ∧
    legalIn (.encb 0x68) (placeWord 0x4068 (inPhase .enc)).phase = true := by decide

theorem witness_illegal_word_raises :
    (placeWord 0x4200 (inPhase .enc)).ngenWait = false ∧ (placeWord 0x4200 (inPhase .enc)).cmdIn = [0x4200] ∧
    (placeWord 0x4200 (inPhase .enc)).phase ≠ .fault ∧
    (0x4200#16).toNat / 256 ∉ [0x01, 0x02, 0x10, 0x11, 0x12, 0x13, 0x14, 0x20, 0x21, 0x22, 0x23, 0x30, 0x31, 0x32, 0x33, 0x40, 0x41] ∧
    (0x3301#16).toNat / 256 ∉ [0x11, 0x13, 0x20, 0x40, 0x41] ∧ (0x3301#16).toNat % 256 ≠ 0 := by decide

theorem witness_only_reset_leaves_fault :
    exec .rst (inPhase .fault) = .next (resetBlock (inPhase .fault)) ∧ (inPhase .fault).phase = .fault ∧
    (resetBlock (inPhase .fault)).phase ≠ .fault := ⟨rfl, rfl, by decide⟩

theorem witness_rst_resets_the_block :
    (placeWord 0x0101 (inPhase .dec)).ngenWait = false ∧
    (placeWord 0x0101 (inPhase .dec)).cmdIn = [0x0100 + (0x01#8).setWidth 16] ∧ (0x01#8) ≠ 0 ∧
    (placeWord 0x0101 (inPhase .dec)).phase ≠ .fault ∧ (placeWord 0x0101 (inPhase .fault)).phase = .fault := by decide

/-- Every phase is the phase of some state: the cases of END and of the commands legal in IDLE only. -/
theorem witness_every_phase (p : Phase) : (inPhase p).phase = p := rfl

/-- IDLE, FAULT and a phase that is neither: the three cases of `IdleCommand`. -/
theorem witness_idle_command :
    (inPhase .idle).phase = .idle ∧ (inPhase .fault).phase = .fault ∧
    (inPhase .decn).phase ≠ .idle ∧ (inPhase .decn).phase ≠ .fault := by decide

/-- A password buffer that is full, and one that is one short of it. -/
theorem witness_pwpush_appends_a_byte :
    (zeros 64 (by decide)).pwMax = some ({ State.reset with pwlen := 2 } : State).pwlen ∧
    (zeros 64 (by decide)).pwMax ≠ some ({ State.reset with pwlen := 1 } : State).pwlen := by decide

theorem witness_npush_appends_or_saturates :
    ({ State.reset with nlen := 127 } : State).nlen.toNat < 128 ∧ 128 ≤ ({ State.reset with nlen := 128 } : State).nlen.toNat ∧
    State.reset.phase = .idle := by decide

theorem witness_ngen_fills_the_nonce : State.reset.phase = .idle ∧ State.reset.rngOn = true := by decide

theorem witness_ngen_is_held :
    ({ State.reset with rngOn := false } : State).phase = .idle ∧ ({ State.reset with rngOn := false } : State).rngOn = false ∧
    ({ State.reset with rngOn := false, ngenWait := true } : State).ngenWait = true ∧
    ({ State.reset with ngenWait := true } : State).rngOn = true := by decide

theorem witness_draw_is_a_bijection : (1 : Word64) ≠ 0 := by decide

theorem witness_zero_state_gives_zeros :
    State.reset.phase = .idle ∧ State.reset.regX = 0 ∧ State.reset.ngenWait = false := by decide

theorem witness_permutation_entry_by_rank : (0 : Nat) < 256 ∧ (255 : Nat) < 256 := by decide

/-- Digests at the ends of the ranges of rule R156. -/
theorem witness_pattern_length :
    (zeros 64 (by decide)).hlen = 64 ∧ (zeros 5 (by decide)).hlen ≤ 128 ∧ (zeros 128 (by decide)).hlen ≤ 128 ∧
    129 ≤ (zeros 129 (by decide)).hlen ∧ (zeros 254 (by decide)).hlen ≤ 254 ∧ 129 ≤ (zeros 254 (by decide)).hlen ∧
    255 ≤ (zeros 255 (by decide)).hlen := by decide

/-- The seed of the all-zero digest, a state whose password is the message, another state with X = 0, and a pass. -/
theorem witness_zero_seed :
    seedState (zeros 64 (by decide)) [] = 0 ∧ State.reset.pwSeq = [] ∧ State.reset.phase = .idle ∧
    State.reset.err = .none ∧ State.reset.ngenWait = false ∧ State.reset.regX = 0 ∧ body.all insideMessage = true ∧
    commandsOf body = [0x68, 0x69].map .encb ∧ commandsOf [.host .take, .command (.decb 1)] = [0x01].map .decb := by
  decide +kernel

theorem witness_zero_seed_later_byte :
    ∃ u : State, u.grid = (derive (zeros 64 (by decide)) [] State.reset).grid ∧ u.regX = 0 ∧ u.pp = 7 :=
  ⟨((derive (zeros 64 (by decide)) [] State.reset).setX 0).setPp 7, by simp, by simp, by simp⟩

/-- PP just before the pattern's end, at its end, and outside it. -/
theorem witness_table_select :
    ({ ciph .enc with pp := 59 } : State).pp.toNat + 1 = ({ ciph .enc with pp := 59 } : State).plen.toNat ∧
    ({ ciph .enc with pp := 58 } : State).pp.toNat + 1 ≠ ({ ciph .enc with pp := 58 } : State).plen.toNat ∧
    ({ ciph .enc with pp := 58 } : State).pp.toNat < ({ ciph .enc with pp := 58 } : State).plen.toNat := by decide

theorem witness_encb :
    (ciph .enc).phase = .enc ∧ (ciph .dec).phase ≠ .enc ∧ (ciph .dec).phase ≠ .fault ∧ (inPhase .fault).phase = .fault := by
  decide

/-- What the next byte is looked up in: entry `j` of the row, for a state of `table0`. -/
theorem table0_entry (p : Phase) {row : List Byte} {j b : Byte} (h : row[j.toNat]? = some b) :
    (table0 p row).readByte .grid (256 * (nextTable (table0 p row)).toNat + j.toNat) = b := by
  have hx : (table0 p row).regX = 0 := rfl
  have hp : (table0 p row).readByte .pat (table0 p row).pp.toNat = 0 := rfl
  have hr : prgByte (prgStep 0) = 0 := by decide +kernel
  have ht : nextTable (table0 p row) = 0 := by rw [nextTable, hx, hp, hr]; rfl
  have hz : 256 * (0 : Byte).toNat + j.toNat = j.toNat := Nat.zero_add _
  rw [ht, hz]
  simp only [State.readByte, State.space, table0, read?_cellsFrom, Nat.zero_le, if_true, Nat.sub_zero, h,
    Option.getD_some]

theorem allBytes_entry (j : Byte) : allBytes[j.toNat]? = some j := by
  simp only [allBytes, List.getElem?_map, List.getElem?_range j.isLt, Option.map_some, BitVec.ofNat_toNat, BitVec.setWidth_eq]

theorem zeros_entry (j : Byte) : (List.replicate 256 (0 : Byte))[j.toNat]? = some 0 :=
  List.getElem?_replicate_of_lt j.isLt

/-- The byte stands at the first place of the table, at the last, and nowhere. -/
theorem witness_decb_first :
    (table0 .dec allBytes).phase = .dec ∧
    (table0 .dec allBytes).readByte .grid (256 * (nextTable (table0 .dec allBytes)).toNat + (0 : Byte).toNat) = 0 ∧
    ∀ i : Byte, ¬ i.toNat < (0 : Byte).toNat := ⟨rfl, table0_entry _ (allBytes_entry 0), fun _ => Nat.not_lt_zero _⟩

theorem witness_decb_last :
    (table0 .dec allBytes).readByte .grid (256 * (nextTable (table0 .dec allBytes)).toNat + (255 : Byte).toNat) = 255 ∧
    ∀ i : Byte, i.toNat < (255 : Byte).toNat →
      (table0 .dec allBytes).readByte .grid (256 * (nextTable (table0 .dec allBytes)).toNat + i.toNat) ≠ 255 :=
  ⟨table0_entry _ (allBytes_entry 255), fun i hi => by
    rw [table0_entry _ (allBytes_entry i)]; rintro rfl; exact Nat.lt_irrefl _ hi⟩

theorem witness_decb_none :
    ∀ j : Byte, (table0 .dec (List.replicate 256 0)).readByte .grid
      (256 * (nextTable (table0 .dec (List.replicate 256 0))).toNat + j.toNat) ≠ 1 :=
  fun j => by rw [table0_entry _ (zeros_entry j)]; decide

/-- DECN with the first, the 127th and the 128th nonce byte to come. -/
theorem witness_decb_collects_the_nonce :
    (table0 .decn allBytes).phase = .decn ∧ (table0 .decn allBytes).nlen.toNat < 127 ∧
    ({ table0 .decn allBytes with nlen := 126 } : State).nlen.toNat < 127 ∧
    ({ table0 .decn allBytes with nlen := 127 } : State).nlen.toNat < 128 ∧
    ({ table0 .decn allBytes with nlen := 127 } : State).nlen.toNat = 127 ∧
    (table0 .decn allBytes).readByte .grid (256 * (nextTable (table0 .decn allBytes)).toNat + (0 : Byte).toNat) = 0 ∧
    ({ table0 .decn allBytes with nlen := 127 } : State).readByte .grid
      (256 * (nextTable { table0 .decn allBytes with nlen := 127 }).toNat + (0 : Byte).toNat) = 0 := by
  decide +kernel

theorem witness_decb_collects_none :
    (table0 .decn (List.replicate 256 0)).phase = .decn ∧ (table0 .decn (List.replicate 256 0)).nlen.toNat < 128 ∧
    ∀ j : Byte, (table0 .decn (List.replicate 256 0)).readByte .grid
      (256 * (nextTable (table0 .decn (List.replicate 256 0))).toNat + j.toNat) ≠ 1 :=
  ⟨rfl, by decide, fun j => by rw [table0_entry _ (zeros_entry j)]; decide⟩

theorem witness_lockstep_inversion : ScheduleLive (derive given [] State.reset) := derive_live given [] State.reset

theorem witness_pass_round_trip :
    State.reset.phase = .idle ∧ State.reset.err = .none ∧ State.reset.ngenWait = false ∧
    State.reset.pwSeq = ({ State.reset with regX := 5 } : State).pwSeq ∧
    body.all insideMessage = true ∧ commandsOf body = [0x68, 0x69].map .encb := ⟨rfl, rfl, rfl, rfl, by decide, by decide⟩

theorem witness_encm :
    State.reset.phase = .idle ∧ State.reset.nlen.toNat ≠ 128 ∧
    ({ State.reset with nlen := 128 } : State).phase = .idle ∧ ({ State.reset with nlen := 128 } : State).nlen.toNat = 128 := by
  decide

theorem witness_message_round_trip :
    ({ State.reset with nlen := 128 } : State).phase = .idle ∧ ({ State.reset with nlen := 128 } : State).err = .none ∧
    ({ State.reset with nlen := 128 } : State).nlen.toNat = 128 ∧ State.reset.phase = .idle ∧
    State.reset.err = .none ∧ ({ State.reset with nlen := 128 } : State).pwSeq = State.reset.pwSeq ∧
    ({ State.reset with nlen := 128 } : State).ngenWait = false ∧ State.reset.ngenWait = false ∧
    body.all insideMessage = true ∧ commandsOf body = [0x68, 0x69].map .encb :=
  ⟨rfl, rfl, rfl, rfl, rfl, rfl, rfl, rfl, by decide, by decide⟩

/-- A state in the middle of a decrypt pass, with a byte to decipher waiting. -/
def passing : State := (startPass Config.params .dec State.reset).setCmdIn [0x4141]

/-- It satisfies the invariant, with a live key schedule. -/
theorem passing_inv : passing.Inv Config.params := by
  have hs : SpacesOk State.reset :=
    ⟨rfl, rfl, rfl, rfl, fun c h => by simp [State.reset] at h, fun c h => by simp [State.reset] at h,
      fun c h => by simp [State.reset] at h⟩
  have hd := derive_spaces Config.params State.reset.pwSeq hs
  have hl := derive_live Config.params State.reset.pwSeq State.reset
  have e1 : State.reset.phase = .idle := rfl
  have e2 : State.reset.err = .none := rfl
  have e3 : State.reset.einfo = 0 := rfl
  have e4 : State.reset.nlen = 0 := rfl
  have e5 : State.reset.pwlen = 0 := rfl
  have e6 : State.reset.ngenWait = false := rfl
  unfold passing
  constructor
  · exact ⟨by simpa using hd.pwWf, by simpa using hd.nonceWf, by simpa using hd.patWf, by simpa using hd.gridWf,
      by simpa using hd.nonceIn, by simpa using hd.patIn, by simpa using hd.gridIn⟩
  · simp [e5]
  · exact fun n h => by simp [Config.params] at h
  · simp [e4]
  · simp [e4]
  · simp [e2]
  · simp [e3]
  · simp [Phase.live]
  · simp
  · intro _; exact hl.congr (by simp) (by simp) (by simp) (by simpa using hl.pp)
  · intro _; simpa using derive_length Config.params State.reset.pwSeq State.reset
  · simp
  · simp [e2]
  · simp [e6]

theorem witness_step_keeps_the_invariant : passing.Inv Config.params ∧ ∃ t, step passing = .next t := by
  refine ⟨passing_inv, ?_⟩
  have hc : passing.cmdIn = [0x4141] := by simp [passing]
  have hw : passing.ngenWait = false := by simp [passing, State.reset]
  have hf : fetch passing = .command (.decb 0x41) := by
    have hd : decode 0x4141 = .ok (.decb 0x41) := by decide
    simp only [fetch, hw, hc, hd, Bool.false_eq_true, if_false]
  exact ⟨_, by simp only [step, stepVia, hf]; rfl⟩

theorem witness_decode_error_is_unreachable :
    passing.Inv Config.params ∧ passing.phase = .dec ∧ ∃ t, exec (.decb 0x41) passing = .next t :=
  ⟨passing_inv, by simp [passing], _, exec_eq_accept (by decide) _⟩

theorem witness_password_overflow :
    faultView (execWith (zeros 64 (by decide)) (.pwpush 1) { State.reset with pwlen := 2 })
      = some (.fault, .passwordOverflow, 2, 0) := by decide +kernel

theorem witness_output_bytes_are_kept :
    Instr.nextb ≠ .rst ∧ (nextOf (exec .nextb { State.reset with out := [7] })).map (·.out) = some [7, 0] := by
  decide +kernel

theorem witness_buffers_are_fixed :
    (ciph .decn).phase ≠ .idle ∧ Instr.decb 0xB7 ≠ .rst ∧ (nextOf (exec (.decb 0xB7) (ciph .decn))).isSome = true := by
  decide +kernel

theorem witness_one_stream_per_derivation :
    (ciph .enc).phase.live = true ∧ (nextOf (exec (.encb 0x68) (ciph .enc))).map (·.phase) = some (ciph .enc).phase := by
  decide +kernel

theorem witness_ports :
    ({ State.reset with out := [1, 2] } : State).out = 1 :: [2] ∧ State.reset.out = [] ∧ State.reset.ngenWait = false ∧
    State.reset.cmdIn = [] := by decide

/-! ### The tests that take longest to evaluate stand last -/

/-- V-PERM-1: the first sixteen entries, the last sixteen, and X. -/
theorem test_nextp :
    (nextOf (exec .nextp { State.reset with regX := 1 })).map (fun t => (t.regX, t.out.take 16, t.out.drop 240))
      = some (0x125B997A64CE1ADA,
          [0xF1, 0xCB, 0x72, 0x57, 0x87, 0x2F, 0x8D, 0x50, 0x8F, 0x58, 0x1A, 0x12, 0x10, 0xF6, 0x55, 0xB9],
          [0xFD, 0x0A, 0xDD, 0x80, 0xB1, 0x05, 0xC0, 0xE8, 0x43, 0xEC, 0xEB, 0x79, 0xE4, 0x85, 0x25, 0x88, 0x98].drop 1) := by
  decide +kernel

/-- Rules R152 and R156 with HLEN 256: seed 1 gives a pattern of 244 and seed 0 one of 124, so the rest of the first stands
above the second. By hand: seed 0 draws r = 0 and T = 128; seed 1 draws r = F1 and T = 248. -/
theorem test_kdf_shorter_pattern :
    (let t := kdf wide [0] (kdf wide [] State.reset); (t.plen, t.pat.read? 123, t.pat.read? 124, t.pat.read? 243))
      = (124, some 0x00, some 0x01, some 0x01) := by decide +kernel

/-- A command that faults, from a state that is not in FAULT: each of the five errors. -/
theorem witness_errors_come_from_their_commands :
    faultView (exec .encm State.reset) = some (.fault, .invalidNonceLength, 0, 0) ∧
    faultView (exec .endMsg (inPhase .decn)) = some (.fault, .truncatedCiphertext, 0, 0) ∧
    faultView (exec (.decb 1) (table0 .dec (List.replicate 256 0))) = some (.fault, .decodeError, 1, 0) ∧
    faultView (exec (.encb 1) State.reset) = some (.fault, .illegalCommand, 0x4001, 0) := by decide +kernel

end Sys2Proof.Tests
end

/-! PROOFS. The host and the randomness source keep the invariant (O53): an action at a port writes only fields of which
the invariant does not speak, and the reset input leaves the reset state but for such fields. -/

namespace Sys2Proof.Machine

/-- S, OUT, the command port and the randomness source's delivery and count are not spoken of by the invariant, so a state
that differs from one with the invariant in these fields alone has it too. -/
theorem State.Inv.of_frame {P : Config.Params} {s t : State} (h : s.Inv P)
    (ht : t = { s with regS := t.regS, out := t.out, cmdIn := t.cmdIn, rngOn := t.rngOn, rngDraws := t.rngDraws }) :
    t.Inv P := by
  obtain ⟨⟨pwWf, nonceWf, patWf, gridWf, nonceIn, patIn, gridIn⟩, pwWritten, pwBound, nonceWritten, nlenMax, errFault,
    einfoZero, quiet, faultClear, schedule, length, decnCount, errReach, held⟩ := h
  rw [ht]
  exact ⟨⟨pwWf, nonceWf, patWf, gridWf, nonceIn, patIn, gridIn⟩, pwWritten, pwBound, nonceWritten, nlenMax, errFault,
    einfoZero, quiet, faultClear, fun hl => (schedule hl).congr rfl rfl rfl (schedule hl).pp, length, decnCount, errReach,
    held⟩

/-- After reset no byte of a space has been written (10_state.md rule R49). -/
theorem reset_spacesOk : SpacesOk State.reset where
  pwWf := reset_spaces_wf .pw
  nonceWf := reset_spaces_wf .nonce
  patWf := reset_spaces_wf .pat
  gridWf := reset_spaces_wf .grid
  nonceIn := fun _ hc => absurd hc List.not_mem_nil
  patIn := fun _ hc => absurd hc List.not_mem_nil
  gridIn := fun _ hc => absurd hc List.not_mem_nil

/-- The reset state is idle, without an error, with no byte written and no NGEN held, so each clause holds by its
values or asks nothing: no address lies below a length of 0, and no other phase is held. -/
theorem reset_inv (P : Config.Params) : State.reset.Inv P where
  spaces := reset_spacesOk
  pwWritten := fun a ha => absurd ha (Nat.not_lt_zero a)
  pwBound := fun n _ => ⟨Nat.zero_le n, fun _ hc => absurd hc List.not_mem_nil⟩
  nonceWritten := fun a _ ha => absurd ha (Nat.not_lt_zero a)
  nlenMax := by decide
  errFault := by decide
  einfoZero := fun _ => rfl
  quiet := fun _ => ⟨rfl, rfl⟩
  faultClear := fun _ => ⟨rfl, rfl⟩
  schedule := fun hl => absurd hl (by decide)
  length := fun hl => absurd hl (by decide)
  decnCount := fun _ => by decide
  errReach := ⟨by decide, fun _ => by decide⟩
  held := fun _ => rfl

/-- RST and the reset input establish the invariant whatever the state before (70_reset_and_hazards.md rule R270). -/
theorem resetBlock_inv (P : Config.Params) (s : State) : (resetBlock s).Inv P := (reset_inv P).of_frame rfl

/-- Settles O53, by cases on the action: the ports are framed off from the invariant, and the reset input establishes it. -/
theorem hostActionKeepsTheInvariant : Obligations.HostActionKeepsTheInvariant := by
  intro P a s h
  cases a with
  | issue w => exact h.of_frame rfl
  | take => exact h.of_frame rfl
  | readStatus => exact h
  | assertReset => exact resetBlock_inv P s
  | setRng on => exact h.of_frame rfl

end Sys2Proof.Machine

/-! PROOFS. The state and its ports (10_state.md): a step of a held NGEN, of a waiting command and of an empty port (O6, O21,
O60), the reset values and the status port (O13, O51, O59), and two rules over every command: OUT is only ever appended to
(O56), and within a pass X moves by one draw (O58). -/

namespace Sys2Proof.Machine

/-! ### One step, by what stands on the command port -/

theorem takeWord_of_cons {s : State} {w : Word} {rest : List Word} (h : s.cmdIn = w :: rest) :
    takeWord s = { s with cmdIn := rest } := by
  rw [takeWord, h]; rfl

theorem stepVia_held {ex : Instr → State → Host.Outcome State Fault Refusal} {s : State} (h : s.ngenWait = true) :
    stepVia ex s = .next (nonceDraw s) := by
  have hf : fetch s = .resume := by rw [fetch, if_pos h]
  rw [stepVia, hf]

theorem stepVia_waiting {ex : Instr → State → Host.Outcome State Fault Refusal} {s : State} (h : s.ngenWait = false)
    (hc : s.cmdIn = []) : stepVia ex s = .next s := by
  have hf : fetch s = .wait := by simp [fetch, h, hc]
  rw [stepVia, hf]

theorem stepVia_command {ex : Instr → State → Host.Outcome State Fault Refusal} {s : State} {w : Word} {rest : List Word}
    {i : Instr} (h : s.ngenWait = false) (hc : s.cmdIn = w :: rest) (hd : decode w = .ok i) :
    stepVia ex s = ex i { s with cmdIn := rest } := by
  have hf : fetch s = .command i := by simp [fetch, h, hc, hd]
  rw [stepVia, hf, takeWord_of_cons hc]

/-- Settles O6: the port gives the decoded command, and the two step functions differ only in what performs it. -/
theorem stepRunsTheDecodedCommand : Obligations.StepRunsTheDecodedCommand := by
  refine ⟨fun s w rest i hn hc hd _ => ⟨stepVia_command hn hc hd, fun P => stepVia_command hn hc hd⟩,
    exec_eq_execWith, step_eq_stepWith, fun P b s i hi => ?_⟩
  simp only [List.mem_cons, List.not_mem_nil, or_false] at hi
  rcases hi with rfl | rfl | rfl | rfl | rfl | rfl | rfl | rfl | rfl | rfl | rfl <;> rfl

/-! ### NGEN and the randomness source (10_state.md rule R47) -/

theorem nonceDraw_of_off {s : State} (h : s.rngOn = false) : nonceDraw s = { s with ngenWait := true } := by
  rw [nonceDraw, if_neg (by simp [h])]; rfl

theorem nonceDraw_of_on {s : State} (h : s.rngOn = true) :
    nonceDraw s = { s with
      nonce := s.nonce.writeBytes 0 (drawBytes s), nlen := 128, rngDraws := s.rngDraws + 128, ngenWait := false } := by
  rw [nonceDraw, if_pos h]; rfl

theorem drawBytes_length (s : State) : (drawBytes s).length = 128 := by
  simp only [drawBytes, List.length_map, List.length_range]

/-- NONCE after an NGEN that the source serves: the drawn bytes below 128, the old bytes from there on. -/
theorem nonceDraw_readByte {s : State} (h : s.rngOn = true) (a : Nat) :
    (nonceDraw s).readByte .nonce a
      = if a < 128 then Config.rngByte (s.rngDraws + a) else s.readByte .nonce a := by
  rw [nonceDraw_of_on h]
  simp only [State.readByte, State.space, read?_writeBytes, drawBytes_length, Nat.zero_le, true_and, Nat.zero_add,
    Nat.sub_zero]
  split_ifs with ha
  · simp only [drawBytes, List.getElem?_map, List.getElem?_range ha, Option.map_some, Option.getD_some]
  · rfl

theorem execWith_ngen_of_idle (P : Config.Params) {s : State} (h : s.phase = .idle) :
    execWith P .ngen s = .next (nonceDraw s) := by
  rw [execWith_eq_accept P (by decide), accept_legal (by simp [h]) (by rw [h]; rfl)]
  rfl

/-- While NGEN is held and the source does not deliver, a sequence of commands has no end (log 2). -/
theorem perform_command_of_held {s : State} (hw : s.ngenWait = true) (hr : s.rngOn = false) (P : Config.Params) (i : Instr)
    (es : List Event) : perform P (.command i :: es) s = none := by
  simp only [perform, finish, hw, hr, if_true, Bool.false_eq_true, if_false]

/-- Settles O21: with the source off `nonceDraw` sets the mark alone, with it on it fills NONCE, and a sequence stops at
the mark, whether NGEN was held before or is held by this command. -/
theorem ngenIsHeldUntilTheSourceDelivers : Obligations.NgenIsHeldUntilTheSourceDelivers := by
  refine ⟨fun s hp hr => ?_, fun s hw hr => ?_, fun s hw hr => ⟨nonceDraw s, stepVia_held hw, ?_, fun i hi => ?_, fun a ha => ?_⟩,
    fun P i es s hp hr => ?_⟩
  · rw [exec_eq_execWith, execWith_ngen_of_idle _ hp, nonceDraw_of_off hr]
  · have hs : ({ s with ngenWait := true } : State) = s := by rw [← hw]
    rw [step, stepVia_held hw, nonceDraw_of_off hr, hs]
  · rw [nonceDraw_of_on hr]
  · rw [nonceDraw_readByte hr, if_pos hi]
  · rw [nonceDraw_readByte hr, if_neg (by omega)]
  · cases hw : s.ngenWait with
    | true => exact perform_command_of_held hw hr P .ngen _
    | false =>
      have he : execWith P .ngen s = .next { s with ngenWait := true } := by
        rw [execWith_ngen_of_idle P hp, nonceDraw_of_off hr]
      rw [perform_command hw he, perform_command_of_held (s := { s with ngenWait := true }) rfl hr]
      rfl

/-! ### Reset, the status port and the host's actions -/

/-- Settles O13: each is a field of the reset state. -/
theorem resetValues : Obligations.ResetValues :=
  ⟨rfl, rfl, rfl, rfl, rfl, rfl, rfl, rfl, rfl, rfl⟩

/-- Settles O51: the reset state meets each clause of the invariant. -/
theorem invariantAfterReset : Obligations.InvariantAfterReset := reset_inv

theorem status_faulted_iff (s : State) : s.status.faulted = true ↔ s.phase = .fault := by
  simp only [State.status, Status.faulted]
  cases s.phase <;> decide

theorem status_idle_iff (s : State) : s.status.idle = true ↔ s.phase = .idle := by
  simp only [State.status, Status.idle]
  cases s.phase <;> decide

/-- Settles O59, by cases on PHASE and on ERR, whose codes are given one by one. -/
theorem statusPortShowsTheCodes : Obligations.StatusPortShowsTheCodes := by
  refine fun s => ⟨rfl, rfl, ?_, ?_, status_faulted_iff s, status_idle_iff s⟩
  · simp only [State.status]
    cases s.phase <;> rfl
  · simp only [State.status]
    cases s.err <;> rfl

/-- Settles O60: each action by its definition, taking a byte by whether OUT is empty, and a step with no word by the port. -/
theorem portsDoWhatTheyAreFor : Obligations.PortsDoWhatTheyAreFor := by
  refine fun s => ⟨fun b bs h => ?_, fun h => ?_, fun _ => rfl, fun _ => rfl, rfl, fun hw hc => stepVia_waiting hw hc⟩
  · simp only [hostAct, h, List.head?_cons, List.tail_cons]
  · have hs : ({ s with out := [] } : State) = s := by rw [← h]
    simp only [hostAct, h, List.head?_nil, List.tail_nil, hs]

/-! ### OUT is only appended to (10_state.md rule R46) -/

theorem endPass_out (s : State) : (endPass s).out = s.out := by
  unfold endPass
  split
  · exact raise_out _ _ _
  · rfl

theorem pwPush_out (P : Config.Params) (b : Byte) (s : State) : (pwPush P b s).out = s.out := by
  unfold pwPush
  split
  · exact raise_out _ _ _
  · exact pwAppend_out b s

theorem noncePush_out (b : Byte) (s : State) : (noncePush b s).out = s.out := by
  unfold noncePush
  split
  · exact nonceAppend_out b s
  · exact setNlen_out s 129

theorem nonceDraw_out (s : State) : (nonceDraw s).out = s.out := by
  cases h : s.rngOn with
  | true => rw [nonceDraw_of_on h]
  | false => rw [nonceDraw_of_off h]

theorem decMessage_out (P : Config.Params) (s : State) : (decMessage P s).out = s.out := by
  rw [decMessage, setNlen_out, startPass_out]

/-- A byte enciphered is one byte more at the tail. -/
theorem out_prefix_putEnc (b : Byte) (s : State) : s.out <+: (putEnc b s).out := by
  rw [putEnc_eq]; exact List.prefix_append _ _

theorem out_prefix_putEncAll (bs : List Byte) (s : State) : s.out <+: (putEncAll bs s).out := by
  induction bs generalizing s with
  | nil => exact List.prefix_rfl
  | cons b bs ih => exact (out_prefix_putEnc b s).trans (ih (putEnc b s))

/-- ENCM puts the enciphered nonce out, or nothing when it raises InvalidNonceLength. -/
theorem out_prefix_encMessage (P : Config.Params) (s : State) : s.out <+: (encMessage P s).out := by
  by_cases h : s.nlen.toNat = 128
  · rw [encMessage_long h, rederive_out]
    simpa only [derive_out] using out_prefix_putEncAll s.nonceSeq (derive P s.pwSeq s)
  · have hr : encMessage P s = raise .invalidNonceLength (byteToInfo s.nlen) s := if_neg h
    rw [hr, raise_out]

/-- DECB's effect, said once (43_cipher.md rule R193, 44_nonce_message.md rule R207): DecodeError, a plaintext byte put out,
a nonce byte kept, or the last nonce byte kept and the re-derivation. -/
theorem decipher_cases (P : Config.Params) (b : Byte) (s : State) :
    decipher P b s = raise .decodeError (byteToInfo b) (decByte b s).2 ∨
    (s.phase ≠ .decn ∧ ∃ j, decipher P b s = (decByte b s).2.push j) ∨
    (s.phase = .decn ∧ ∃ j, decipher P b s = nonceAppend j (decByte b s).2) ∨
    (s.phase = .decn ∧ ∃ j, decipher P b s = rederive P .dec (nonceAppend j (decByte b s).2)) := by
  by_cases hp : s.phase = .decn
  · rw [decipher, if_pos hp, nonceDec]
    cases hd : (decByte b s).1 with
    | none => exact .inl rfl
    | some j =>
      by_cases hn : (nonceAppend j (decByte b s).2).nlen.toNat = Config.nonceLen
      · exact .inr (.inr (.inr ⟨hp, j, if_pos hn⟩))
      · exact .inr (.inr (.inl ⟨hp, j, if_neg hn⟩))
  · rw [decipher, if_neg hp, putDec]
    cases hd : (decByte b s).1 with
    | none => exact .inl rfl
    | some j => exact .inr (.inl ⟨hp, j, rfl⟩)

theorem out_prefix_decipher (P : Config.Params) (b : Byte) (s : State) : s.out <+: (decipher P b s).out := by
  rcases decipher_cases P b s with h | ⟨-, j, h⟩ | ⟨-, j, h⟩ | ⟨-, j, h⟩ <;> rw [h]
  · rw [raise_out, decByte_out]
  · rw [push_out, decByte_out]; exact List.prefix_append _ _
  · rw [nonceAppend_out, decByte_out]
  · rw [rederive_out, nonceAppend_out, decByte_out]

/-- The effect of every command but RST only appends to OUT. -/
theorem out_prefix_effectOf (P : Config.Params) {i : Instr} (hi : i ≠ .rst) (s : State) :
    s.out <+: (effectOf P i s).out := by
  cases i with
  | rst => exact absurd rfl hi
  | endMsg => rw [effectOf, endPass_out]
  | pwclr => rw [effectOf, setPw_out]
  | pwpush b => rw [effectOf, pwPush_out]
  | nclr => rw [effectOf, setNlen_out]
  | npush b => rw [effectOf, noncePush_out]
  | ngen => rw [effectOf, nonceDraw_out]
  | lds b => rw [effectOf, loadSeedByte_out]
  | seed => rw [effectOf, prgSeed_out]
  | nextb => rw [effectOf, putDraw_out]; exact List.prefix_append _ _
  | nextp => rw [effectOf, putPerm_out]; exact List.prefix_append _ _
  | spe => rw [effectOf, startPass_out]
  | spd => rw [effectOf, startPass_out]
  | encm => exact out_prefix_encMessage P s
  | decm => rw [effectOf, decMessage_out]
  | encb b => exact out_prefix_putEnc b s
  | decb b => exact out_prefix_decipher P b s

theorem out_prefix_execWith {P : Config.Params} {i : Instr} {s t : State} (hi : i ≠ .rst) (h : execWith P i s = .next t) :
    s.out <+: t.out := by
  rcases execWith_next_cases h with ⟨hr, -⟩ | ⟨-, -, rfl⟩ | ⟨-, -, -, rfl⟩ | ⟨-, -, -, rfl⟩
  · exact absurd hr hi
  · exact List.prefix_rfl
  · rw [raise_out]
  · exact out_prefix_effectOf P hi s

/-- Settles O56: a command that is not RST leaves OUT, or appends to it by its effect. -/
theorem outputBytesAreKept : Obligations.OutputBytesAreKept := by
  intro P i s t hi h
  obtain ⟨added, ha⟩ : s.out <+: t.out := by
    rcases h with h | h
    · exact out_prefix_execWith hi h
    · exact out_prefix_execWith hi (exec_eq_execWith i s ▸ h)
  exact ⟨added, ha.symm⟩

/-! ### One draw for each byte of a pass (10_state.md rule R36) -/

/-- From `s` to `t` X is one draw on, and the pattern and the grid are unchanged. -/
def OneDrawOn (s t : State) : Prop :=
  t.regX = prgStep s.regX ∧ t.plen = s.plen ∧ t.pat = s.pat ∧ t.grid = s.grid

/-- The commands that are legal while a key schedule is live (30_encoding.md rule R94). -/
theorem legalIn_live {i : Instr} {p : Phase} (hp : p.live = true) (h : legalIn i p = true) :
    i = .rst ∨ i = .endMsg ∨ (∃ b, i = .encb b) ∨ ∃ b, i = .decb b := by
  cases i with
  | rst => exact .inl rfl
  | endMsg => exact .inr (.inl rfl)
  | encb b => exact .inr (.inr (.inl ⟨b, rfl⟩))
  | decb b => exact .inr (.inr (.inr ⟨b, rfl⟩))
  | _ => rw [eq_of_beq h] at hp; exact absurd hp (by decide)

theorem endPass_not_live (s : State) : (endPass s).phase.live = false := by
  unfold endPass
  split
  · rw [raise_phase]; rfl
  · rfl

theorem oneDrawOn_putEnc (b : Byte) (s : State) : OneDrawOn s (putEnc b s) := by
  rw [putEnc_eq]; exact ⟨rfl, rfl, rfl, rfl⟩

/-- A DECB that stays in its phase has not raised and has not derived, so all that happened to the stream is the draw of
the table selection. -/
theorem oneDrawOn_decipher {P : Config.Params} {b : Byte} {s : State} (hl : s.phase.live = true)
    (hp : (decipher P b s).phase = s.phase) : OneDrawOn s (decipher P b s) := by
  rcases decipher_cases P b s with h | ⟨-, j, h⟩ | ⟨-, j, h⟩ | ⟨hd, j, h⟩ <;> rw [h] at hp ⊢
  · rw [← hp, raise_phase] at hl; exact absurd hl (by decide)
  · simp [OneDrawOn]
  · simp [OneDrawOn]
  · rw [rederive_phase, hd] at hp; exact absurd hp (by decide)

theorem oneDrawOn_execWith {P : Config.Params} {i : Instr} {s t : State} (hl : s.phase.live = true)
    (h : execWith P i s = .next t) (hp : t.phase = s.phase) : OneDrawOn s t := by
  have ht : t.phase.live = true := hp ▸ hl
  rcases execWith_next_cases h with ⟨-, rfl⟩ | ⟨-, hf, -⟩ | ⟨-, -, -, rfl⟩ | ⟨hi, -, hleg, rfl⟩
  · rw [resetBlock_phase] at ht; exact absurd ht (by decide)
  · rw [hf] at hl; exact absurd hl (by decide)
  · rw [raise_phase] at ht; exact absurd ht (by decide)
  · rcases legalIn_live hl hleg with rfl | rfl | ⟨b, rfl⟩ | ⟨b, rfl⟩
    · exact absurd rfl hi
    · rw [effectOf, endPass_not_live] at ht; exact absurd ht (by decide)
    · exact oneDrawOn_putEnc b s
    · exact oneDrawOn_decipher hl hp

/-- Settles O58: a command that stays in a live phase is ENCB or DECB, and these draw once. -/
theorem oneStreamPerDerivation : Obligations.OneStreamPerDerivation := by
  intro P i s t hl h hp
  rcases h with h | h
  · exact oneDrawOn_execWith hl h hp
  · exact oneDrawOn_execWith hl (exec_eq_execWith i s ▸ h) hp

end Sys2Proof.Machine

/-! PROOFS. Every step keeps the invariant (O52). The clauses on the byte spaces and on the two buffers do not depend on the
phase and are carried by `BuffersOk`, which also holds in the middle of ENCM and of the last DECB of DECN, where the invariant
does not. The other clauses are established by the kind of phase a command ends in: IDLE, FAULT, or a live one. -/

namespace Sys2Proof.Machine

/-! ### The clauses on the byte spaces and the buffers -/

/-- The clauses of the invariant that speak of the byte spaces, PWLEN and NLEN alone. -/
structure BuffersOk (P : Config.Params) (s : State) : Prop where
  spaces : SpacesOk s
  pwWritten : ∀ a, a < s.pwlen → (s.pw.read? a).isSome = true
  pwBound : ∀ n, P.pwMax = some n → s.pwlen ≤ n ∧ ∀ c ∈ s.pw, c.1 < n
  nonceWritten : ∀ a, a < 128 → a < s.nlen.toNat → (s.nonce.read? a).isSome = true
  nlenMax : s.nlen.toNat ≤ 129

/-- No error stands and no NGEN is held: how a state is in which a command is performed. -/
structure ReadyForCommand (s : State) : Prop where
  err : s.err = .none
  einfo : s.einfo = 0
  notHeld : s.ngenWait = false

/-- A live key schedule of a length that a derivation can give it (10_state.md rule R26). -/
structure DerivedSchedule (P : Config.Params) (s : State) : Prop where
  live : ScheduleLive s
  length : ∃ T, 128 ≤ T ∧ T ≤ 255 ∧ s.plen.toNat = min T P.hlen - 4

variable {P : Config.Params} {s t : State}

theorem State.Inv.buffersOk (h : s.Inv P) : BuffersOk P s :=
  ⟨h.spaces, h.pwWritten, h.pwBound, h.nonceWritten, h.nlenMax⟩

theorem State.Inv.ready (h : s.Inv P) (hf : s.phase ≠ .fault) (hw : s.ngenWait = false) : ReadyForCommand s :=
  ⟨h.errFault.2 hf, h.einfoZero hf, hw⟩

theorem State.Inv.derivedSchedule (h : s.Inv P) (hv : s.phase.live = true) : DerivedSchedule P s :=
  ⟨h.schedule hv, h.length hv⟩

theorem ReadyForCommand.of_frame (h : ReadyForCommand s)
    (ht : t = { t with err := s.err, einfo := s.einfo, ngenWait := s.ngenWait }) : ReadyForCommand t := by
  rw [ht]
  exact ⟨h.err, h.einfo, h.notHeld⟩

/-- PP may move within the pattern, and nothing else of the key schedule may. -/
theorem DerivedSchedule.of_frame (h : DerivedSchedule P s)
    (ht : t = { t with plen := s.plen, pat := s.pat, grid := s.grid }) (hpp : t.pp.toNat < s.plen.toNat) :
    DerivedSchedule P t := by
  rw [ht] at hpp ⊢
  exact ⟨h.live.congr rfl rfl rfl hpp, h.length⟩

theorem SpacesOk.congr (h : SpacesOk s) (hpw : t.pw = s.pw) (hno : t.nonce = s.nonce) (hpa : t.pat = s.pat)
    (hgr : t.grid = s.grid) : SpacesOk t := by
  obtain ⟨pwWf, nonceWf, patWf, gridWf, nonceIn, patIn, gridIn⟩ := h
  rw [← hpw] at pwWf
  rw [← hno] at nonceWf nonceIn
  rw [← hpa] at patWf patIn
  rw [← hgr] at gridWf gridIn
  exact ⟨pwWf, nonceWf, patWf, gridWf, nonceIn, patIn, gridIn⟩

/-- What the clauses speak of is four spaces and two counts. -/
theorem BuffersOk.of_frame (h : BuffersOk P s) (ht : t = { t with
    pw := s.pw, pwlen := s.pwlen, nonce := s.nonce, nlen := s.nlen, pat := s.pat, grid := s.grid }) : BuffersOk P t := by
  rw [ht]
  exact ⟨h.spaces.congr rfl rfl rfl rfl, h.pwWritten, h.pwBound, h.nonceWritten, h.nlenMax⟩

/-- NLEN may go down, or up to its saturation value once the nonce is full. -/
theorem BuffersOk.setNlen (h : BuffersOk P s) {n : Byte} (hn : min n.toNat 128 ≤ s.nlen.toNat) (hm : n.toNat ≤ 129) :
    BuffersOk P (s.setNlen n) where
  spaces := h.spaces.congr rfl rfl rfl rfl
  pwWritten := h.pwWritten
  pwBound := h.pwBound
  nonceWritten := fun a ha hlt => h.nonceWritten a ha (by rw [setNlen_nlen] at hlt; omega)
  nlenMax := hm

theorem BuffersOk.setNlen_zero (h : BuffersOk P s) : BuffersOk P (s.setNlen 0) :=
  h.setNlen (Nat.zero_le _) (by decide)

/-- A byte written at NLEN, below 128, is one more written byte of the nonce (44_nonce_message.md rules R201, R207). -/
theorem BuffersOk.nonceAppend (h : BuffersOk P s) (b : Byte) (hn : s.nlen.toNat < 128) :
    BuffersOk P (nonceAppend b s) where
  spaces := nonceAppend_spaces b h.spaces hn
  pwWritten := h.pwWritten
  pwBound := h.pwBound
  nonceWritten := fun a ha hlt => by
    rw [nonceAppend_nlen, nlen_succ hn] at hlt
    rw [nonceAppend_nonce, read?_write]
    split_ifs with he
    · rfl
    · exact h.nonceWritten a ha (by omega)
  nlenMax := by rw [nonceAppend_nlen, nlen_succ hn]; omega

/-- A drawn nonce fills the 128 cells (44_nonce_message.md rule R202). -/
theorem BuffersOk.nonceFill (h : BuffersOk P s) {bs : List Byte} (hb : bs.length = 128) :
    BuffersOk P (nonceFill bs s) where
  spaces := { h.spaces with
    nonceWf := wf_writeBytes h.spaces.nonceWf _ _
    nonceIn := fun c hc => (mem_writeBytes hc).elim (h.spaces.nonceIn c) (fun hk => by omega) }
  pwWritten := h.pwWritten
  pwBound := h.pwBound
  nonceWritten := fun a ha _ => by
    rw [nonceFill_nonce, read?_writeBytes, if_pos (by omega), List.getElem?_eq_getElem (by omega)]
    rfl
  nlenMax := by rw [nonceFill_nlen]; decide

theorem BuffersOk.pwClear (h : BuffersOk P s) : BuffersOk P (s.setPw s.pw 0) where
  spaces := h.spaces.congr rfl rfl rfl rfl
  pwWritten := fun a ha => absurd ha (Nat.not_lt_zero a)
  pwBound := fun n hn => ⟨Nat.zero_le n, (h.pwBound n hn).2⟩
  nonceWritten := h.nonceWritten
  nlenMax := h.nlenMax

/-- A byte appended to a password buffer that is not full (41_keyderiv.md rule R161). -/
theorem BuffersOk.pwAppend (h : BuffersOk P s) (b : Byte) (hroom : P.pwMax ≠ some s.pwlen) :
    BuffersOk P (pwAppend b s) where
  spaces := { h.spaces with pwWf := wf_write h.spaces.pwWf _ _ }
  pwWritten := fun a ha => by
    rw [pwAppend_pwlen] at ha
    rw [pwAppend_pw, read?_write]
    split_ifs with he
    · rfl
    · exact h.pwWritten a (by omega)
  pwBound := fun n hn => by
    obtain ⟨hle, hin⟩ := h.pwBound n hn
    have hlt : s.pwlen < n := lt_of_le_of_ne hle fun he => hroom (he ▸ hn)
    refine ⟨hlt, fun c hc => (mem_writeBytes hc).elim (hin c) fun hk => ?_⟩
    rw [List.length_singleton] at hk
    omega
  nonceWritten := h.nonceWritten
  nlenMax := h.nlenMax

/-- A derivation writes PAT and GRID, in range (42_gridbuilder.md rule R172). -/
theorem BuffersOk.derive (h : BuffersOk P s) (msg : List Byte) : BuffersOk P (derive P msg s) where
  spaces := derive_spaces P msg h.spaces
  pwWritten := by rw [derive_pwlen, derive_pw]; exact h.pwWritten
  pwBound := by rw [derive_pwlen, derive_pw]; exact h.pwBound
  nonceWritten := by rw [derive_nlen, derive_nonce]; exact h.nonceWritten
  nlenMax := by rw [derive_nlen]; exact h.nlenMax

/-! ### The invariant by the kind of phase -/

/-- In IDLE no key schedule is live, and PLEN and PP are 0 (10_state.md rules R26, R35). -/
theorem BuffersOk.inv_of_idle (h : BuffersOk P s) (hp : s.phase = .idle) (he : s.err = .none) (hi : s.einfo = 0)
    (hl : s.plen = 0) (hpp : s.pp = 0) : s.Inv P :=
  have hv : s.phase.live = false := by rw [hp]; rfl
  { h with
    errFault := by simp [hp, he]
    einfoZero := fun _ => hi
    quiet := fun _ => ⟨hl, hpp⟩
    faultClear := fun hf => nomatch hp.symm.trans hf
    schedule := fun ht => nomatch hv.symm.trans ht
    length := fun ht => nomatch hv.symm.trans ht
    decnCount := fun hd => nomatch hp.symm.trans hd
    errReach := by simp [he]
    held := fun _ => hp }

/-- In a live phase there must be a key schedule as a derivation leaves it, and DECN has nonce bytes to come. -/
theorem BuffersOk.inv_of_live (h : BuffersOk P s) (hr : ReadyForCommand s) (hs : DerivedSchedule P s)
    (hv : s.phase.live = true) (hd : s.phase = .decn → s.nlen.toNat < 128) : s.Inv P :=
  have hf : s.phase ≠ .fault := fun hf => by rw [hf] at hv; cases hv
  { h with
    errFault := by simp [hf, hr.err]
    einfoZero := fun _ => hr.einfo
    quiet := fun hq => nomatch hv.symm.trans hq
    faultClear := fun hp => absurd hp hf
    schedule := fun _ => hs.live
    length := fun _ => hs.length
    decnCount := hd
    errReach := by simp [hr.err]
    held := fun hw => nomatch hr.notHeld.symm.trans hw }

/-- Fault entry discards the key schedule and the nonce count, so it leaves the invariant whatever the phase was
(60_exceptions.md rule R240). -/
theorem BuffersOk.inv_raise (h : BuffersOk P s) (hw : s.ngenWait = false) {e : Err} (w : Word) (hn : e ≠ .none)
    (hd : e ≠ .decodeError) (ho : P.pwMax = none → e ≠ .passwordOverflow) : (raise e w s).Inv P :=
  have hb : BuffersOk P (raise e w s) := h.setNlen_zero.of_frame rfl
  { hb with
    errFault := by simp [hn]
    einfoZero := fun hf => absurd rfl hf
    quiet := fun _ => ⟨rfl, rfl⟩
    faultClear := fun _ => ⟨rfl, rfl⟩
    schedule := fun hv => nomatch hv
    length := fun hv => nomatch hv
    decnCount := fun hp => nomatch hp
    errReach := ⟨hd, ho⟩
    held := fun ht => nomatch hw.symm.trans ht }

/-! ### The start commands and the re-derivation -/

/-- A derivation writes the key schedule only. -/
theorem ReadyForCommand.derive (h : ReadyForCommand s) (msg : List Byte) : ReadyForCommand (derive P msg s) :=
  ⟨by rw [derive_err, h.err], by rw [derive_einfo, h.einfo], by rw [derive_ngenWait, h.notHeld]⟩

theorem derivedSchedule_derive (P : Config.Params) (msg : List Byte) (s : State) : DerivedSchedule P (derive P msg s) :=
  ⟨derive_live P msg s, derive_length P msg s⟩

/-- A live phase is entered from a state that holds a key schedule already. -/
theorem BuffersOk.inv_setPhase (h : BuffersOk P s) (hr : ReadyForCommand s) (hs : DerivedSchedule P s) {p : Phase}
    (hv : p.live = true) (hd : p = .decn → s.nlen.toNat < 128) : (s.setPhase p).Inv P :=
  (h.of_frame (t := s.setPhase p) rfl).inv_of_live (hr.of_frame rfl) (hs.of_frame rfl hs.live.pp) hv hd

/-- A derivation and then its phase, as in the start commands and the re-derivation. -/
theorem BuffersOk.inv_derive_setPhase (h : BuffersOk P s) (hr : ReadyForCommand s) (msg : List Byte) {p : Phase}
    (hv : p.live = true) (hd : p ≠ .decn) : ((Machine.derive P msg s).setPhase p).Inv P :=
  (h.derive msg).inv_setPhase (hr.derive msg) (derivedSchedule_derive P msg s) hv (fun hp => absurd hp hd)

theorem startPass_inv (h : BuffersOk P s) (hr : ReadyForCommand s) {p : Phase} (hv : p.live = true) (hd : p ≠ .decn) :
    (startPass P p s).Inv P :=
  h.inv_derive_setPhase hr s.pwSeq hv hd

theorem rederive_inv (h : BuffersOk P s) (hr : ReadyForCommand s) {p : Phase} (hv : p.live = true) (hd : p ≠ .decn) :
    (rederive P p s).Inv P :=
  h.inv_derive_setPhase hr (s.pwSeq ++ s.nonceSeq) hv hd

/-- DECN is entered with an empty nonce (44_nonce_message.md rule R206). -/
theorem BuffersOk.inv_setPhase_decn (h : BuffersOk P s) (hr : ReadyForCommand s) (hs : DerivedSchedule P s) :
    ((s.setPhase .decn).setNlen 0).Inv P :=
  (h.setNlen_zero.of_frame rfl).inv_of_live (hr.of_frame rfl) (hs.of_frame rfl hs.live.pp) rfl (fun _ => Nat.zero_lt_succ _)

theorem decMessage_inv (h : BuffersOk P s) (hr : ReadyForCommand s) : (decMessage P s).Inv P := by
  rw [decMessage, startPass]
  exact (h.derive s.pwSeq).inv_setPhase_decn (hr.derive s.pwSeq) (derivedSchedule_derive P s.pwSeq s)

/-- The nonce pass of ENCM and the re-derivation. The pass runs in IDLE with a key schedule already derived, so the
invariant does not hold of its states; it writes X, PP and OUT only. -/
theorem BuffersOk.inv_rederive_putEncAll (h : BuffersOk P s) (hr : ReadyForCommand s) (hs : ScheduleLive s)
    (bs : List Byte) : (rederive P .enc (putEncAll bs s)).Inv P := by
  have hu := putEncAll_spec bs s hs.pp
  have hb : BuffersOk P (putEncAll bs s) := h.of_frame (by rw [hu])
  have hr' : ReadyForCommand (putEncAll bs s) := hr.of_frame (by rw [hu])
  exact rederive_inv hb hr' rfl (by decide)

/-- ENCM raises InvalidNonceLength, or does the nonce pass over the password's key schedule and re-derives
(44_nonce_message.md rule R204). -/
theorem encMessage_inv (h : BuffersOk P s) (hr : ReadyForCommand s) : (encMessage P s).Inv P := by
  by_cases hn : s.nlen.toNat = 128
  · rw [encMessage_long hn]
    exact (h.derive s.pwSeq).inv_rederive_putEncAll (hr.derive s.pwSeq) (derive_live P s.pwSeq s) s.nonceSeq
  · have hx : encMessage P s = raise .invalidNonceLength (byteToInfo s.nlen) s := if_neg hn
    rw [hx]
    exact h.inv_raise hr.notHeld _ (by decide) (by decide) (fun _ => by decide)

/-! ### The commands of IDLE -/

/-- A command that stays in IDLE writes neither PHASE, ERR and EINFO nor the key schedule but X. -/
theorem State.Inv.of_idle_frame (h : s.Inv P) (hp : s.phase = .idle) (hb : BuffersOk P t) (ht : t = { t with
    phase := s.phase, err := s.err, einfo := s.einfo, plen := s.plen, pp := s.pp }) : t.Inv P := by
  have hne : s.phase ≠ .fault := by rw [hp]; decide
  obtain ⟨hl, hpp⟩ := h.quiet (by rw [hp]; rfl)
  rw [ht] at hb ⊢
  exact hb.inv_of_idle hp (h.errFault.2 hne) (h.einfoZero hne) hl hpp

/-- Setting X in IDLE (40_prg.md rules R121, R122). -/
theorem State.Inv.setX (h : s.Inv P) (hp : s.phase = .idle) (x : Word64) : (s.setX x).Inv P :=
  h.of_idle_frame hp (h.buffersOk.of_frame rfl) rfl

theorem State.Inv.push (h : s.Inv P) (b : Byte) : (s.push b).Inv P := h.of_frame rfl

theorem State.Inv.pushAll (h : s.Inv P) (bs : List Byte) : (s.pushAll bs).Inv P := h.of_frame rfl

theorem pwPush_inv (h : s.Inv P) (hp : s.phase = .idle) (hw : s.ngenWait = false) (b : Byte) : (pwPush P b s).Inv P := by
  rw [pwPush]
  split_ifs with hfull
  · exact h.buffersOk.inv_raise hw _ (by decide) (by decide) (fun hnone => by rw [hnone] at hfull; cases hfull)
  · exact h.of_idle_frame hp (h.buffersOk.pwAppend b hfull) rfl

theorem noncePush_inv (h : s.Inv P) (hp : s.phase = .idle) (b : Byte) : (noncePush b s).Inv P := by
  rw [noncePush]
  split_ifs with hn
  · exact h.of_idle_frame hp (h.buffersOk.nonceAppend b hn) rfl
  · exact h.of_idle_frame hp (h.buffersOk.setNlen (min_le_of_right_le (not_lt.1 hn)) (by decide)) rfl

/-- NGEN, taken now or held before: the mark alone while the source does not deliver, else 128 drawn bytes. -/
theorem nonceDraw_inv (h : s.Inv P) (hp : s.phase = .idle) : (nonceDraw s).Inv P := by
  rw [nonceDraw]
  split_ifs with hon
  · have hfill := h.buffersOk.nonceFill (drawBytes_length s)
    exact h.of_idle_frame hp (hfill.of_frame rfl) rfl
  · exact h.of_idle_frame hp (h.buffersOk.of_frame rfl) rfl

/-! ### The commands of a live phase -/

/-- A table selection moves X and PP, and PP stays below PLEN (43_cipher.md rules R181, R186). -/
theorem State.Inv.tableSelect (h : s.Inv P) (hr : ReadyForCommand s) (hv : s.phase.live = true) :
    (tableSelect s).2.Inv P := by
  have hs := h.derivedSchedule hv
  exact (h.buffersOk.of_frame rfl).inv_of_live (hr.of_frame rfl) (hs.of_frame rfl hs.live.ppNext_lt) hv h.decnCount

theorem putEnc_inv (h : s.Inv P) (hr : ReadyForCommand s) (hv : s.phase.live = true) (b : Byte) : (putEnc b s).Inv P :=
  (h.tableSelect hr hv).push _

/-- DECB on a live key schedule finds its byte (43_cipher.md rule R185) and puts it out, or in DECN keeps it and re-derives
after the 128th (44_nonce_message.md rule R207). -/
theorem ScheduleLive.decipher_cases (h : ScheduleLive s) (P : Config.Params) (b : Byte) : ∃ j,
    (s.phase ≠ .decn ∧ decipher P b s = (decByte b s).2.push j) ∨
    (s.phase = .decn ∧ (nonceAppend j (decByte b s).2).nlen.toNat ≠ 128 ∧
      decipher P b s = nonceAppend j (decByte b s).2) ∨
    (s.phase = .decn ∧ decipher P b s = rederive P .dec (nonceAppend j (decByte b s).2)) := by
  obtain ⟨j, hj⟩ := h.gridIndexOf_found (Machine.tableSelect s).1 b
  have hd : (decByte b s).1 = some j := (decByte_fst b s).trans hj
  refine ⟨j, ?_⟩
  by_cases hp : s.phase = .decn
  · rw [decipher, if_pos hp, nonceDec]
    simp only [hd]
    by_cases hn : (nonceAppend j (decByte b s).2).nlen.toNat = 128
    · exact .inr (.inr ⟨hp, if_pos hn⟩)
    · exact .inr (.inl ⟨hp, hn, if_neg hn⟩)
  · exact .inl ⟨hp, by rw [decipher, if_neg hp, putDec]; simp only [hd]⟩

/-- A nonce byte kept in DECN that is not the 128th. -/
theorem nonceAppend_inv (h : s.Inv P) (hr : ReadyForCommand s) (hp : s.phase = .decn) (j : Byte)
    (hn : (nonceAppend j s).nlen.toNat ≠ 128) : (nonceAppend j s).Inv P := by
  have hv : s.phase.live = true := by rw [hp]; rfl
  have hlt := h.decnCount hp
  have hs := h.derivedSchedule hv
  rw [nonceAppend_nlen, nlen_succ hlt] at hn
  refine (h.buffersOk.nonceAppend j hlt).inv_of_live (hr.of_frame rfl) (hs.of_frame rfl hs.live.pp) hv fun _ => ?_
  rw [nonceAppend_nlen, nlen_succ hlt]
  omega

theorem decipher_inv (h : s.Inv P) (hr : ReadyForCommand s) (hv : s.phase.live = true) (b : Byte) :
    (decipher P b s).Inv P := by
  have hsel : (decByte b s).2.Inv P := h.tableSelect hr hv
  have hr' : ReadyForCommand (decByte b s).2 := hr.of_frame rfl
  obtain ⟨j, ⟨-, e⟩ | ⟨hp, hn, e⟩ | ⟨hp, e⟩⟩ := (h.schedule hv).decipher_cases P b <;> rw [e]
  · exact hsel.push j
  · exact nonceAppend_inv hsel hr' hp j hn
  · exact rederive_inv (hsel.buffersOk.nonceAppend j (h.decnCount hp)) (hr'.of_frame rfl) rfl (by decide)

theorem live_of_legalIn_decb {b : Byte} {p : Phase} (h : legalIn (.decb b) p = true) : p.live = true := by
  rcases Bool.or_eq_true_iff.1 h with h | h <;> rw [eq_of_beq h] <;> rfl

/-- END discards the key schedule and the nonce count, or in DECN raises TruncatedCiphertext (45_control.md rule R222). -/
theorem endPass_inv (h : BuffersOk P s) (hr : ReadyForCommand s) : (endPass s).Inv P := by
  rw [endPass]
  split_ifs with hp
  · exact h.inv_raise hr.notHeld _ (by decide) (by decide) (fun _ => by decide)
  · exact (h.setNlen_zero.of_frame rfl).inv_of_idle rfl hr.err hr.einfo rfl rfl

/-! ### Every command and every step -/

/-- The effect of a command in a phase it is legal in. -/
theorem effectOf_inv (h : s.Inv P) (hr : ReadyForCommand s) {i : Instr} (hl : legalIn i s.phase = true) :
    (effectOf P i s).Inv P := by
  have hb := h.buffersOk
  cases i with
  | rst => exact resetBlock_inv P s
  | endMsg => exact endPass_inv hb hr
  | pwclr => exact h.of_idle_frame (eq_of_beq hl) hb.pwClear rfl
  | pwpush b => exact pwPush_inv h (eq_of_beq hl) hr.notHeld b
  | nclr => exact h.of_idle_frame (eq_of_beq hl) hb.setNlen_zero rfl
  | npush b => exact noncePush_inv h (eq_of_beq hl) b
  | ngen => exact nonceDraw_inv h (eq_of_beq hl)
  | lds b => exact h.of_frame rfl
  | seed => exact h.setX (eq_of_beq hl) _
  | nextb => exact (h.setX (eq_of_beq hl) _).push _
  | nextp => exact (h.setX (eq_of_beq hl) _).pushAll _
  | spe => exact startPass_inv hb hr rfl (by decide)
  | spd => exact startPass_inv hb hr rfl (by decide)
  | encm => exact encMessage_inv hb hr
  | decm => exact decMessage_inv hb hr
  | encb b => exact putEnc_inv h hr (by rw [eq_of_beq hl]; rfl) b
  | decb b => exact decipher_inv h hr (live_of_legalIn_decb hl) b

theorem illegalCommand_inv (h : s.Inv P) (hw : s.ngenWait = false) (w : Word) : (raise .illegalCommand w s).Inv P :=
  h.buffersOk.inv_raise hw w (by decide) (by decide) (fun _ => by decide)

theorem execWith_inv (h : s.Inv P) (hw : s.ngenWait = false) {i : Instr} (he : execWith P i s = .next t) : t.Inv P := by
  rcases execWith_next_cases he with ⟨-, rfl⟩ | ⟨-, -, rfl⟩ | ⟨-, -, -, rfl⟩ | ⟨-, hf, hl, rfl⟩
  · exact resetBlock_inv P s
  · exact h
  · exact illegalCommand_inv h hw _
  · exact effectOf_inv h (h.ready hf hw) hl

theorem illegalWord_inv (h : s.Inv P) (hw : s.ngenWait = false) (w : Word) : (illegalWord w s).Inv P := by
  rw [illegalWord]
  split_ifs
  · exact h
  · exact illegalCommand_inv h hw w

theorem stepVia_illegal {ex : Instr → State → Host.Outcome State Fault Refusal} {w : Word} {rest : List Word} {r : Reject}
    (h : s.ngenWait = false) (hc : s.cmdIn = w :: rest) (hd : decode w = .error r) :
    stepVia ex s = .next (illegalWord w { s with cmdIn := rest }) := by
  have hf : fetch s = .illegal w := by simp [fetch, h, hc, hd]
  rw [stepVia, hf, takeWord_of_cons hc]

/-- One step, by what the core finds: a held NGEN, no word, a command or a word that is none. -/
theorem stepWith_inv (h : s.Inv P) (he : stepWith P s = .next t) : t.Inv P := by
  rw [stepWith] at he
  cases hw : s.ngenWait with
  | true =>
    rw [stepVia_held hw] at he
    exact Host.Outcome.next.inj he ▸ nonceDraw_inv h (h.held hw)
  | false =>
    cases hc : s.cmdIn with
    | nil =>
      rw [stepVia_waiting hw hc] at he
      exact Host.Outcome.next.inj he ▸ h
    | cons w rest =>
      have htaken : State.Inv P { s with cmdIn := rest } := h.of_frame rfl
      cases hd : decode w with
      | ok i =>
        rw [stepVia_command hw hc hd] at he
        exact execWith_inv htaken hw he
      | error r =>
        rw [stepVia_illegal hw hc hd] at he
        exact Host.Outcome.next.inj he ▸ illegalWord_inv htaken hw w

/-- Settles O52: the step of a block with any parameters keeps the invariant, and this hardware's step is one of these. -/
theorem stepKeepsTheInvariant : Obligations.StepKeepsTheInvariant :=
  ⟨fun s _ h he => stepWith_inv h (step_eq_stepWith s ▸ he), fun _ _ _ h he => stepWith_inv h he⟩

end Sys2Proof.Machine

/-! PROOFS. The encoding (30_encoding.md): the two rows of the opcode map and what `decode` makes of a word by its two fields
(O1 to O5), the acceptance of a taken word (O7, O8, O9), and the pseudo-instruction SEED64 (O27). -/

namespace Sys2Proof

/-! ### The rows of the opcode map (30_encoding.md rule R94) -/

theorem mem_of_rowOf {α : Type} {op : Byte} {v : α} {rows : List (Byte × α)} (h : rowOf op rows = some v) :
    (op, v) ∈ rows := by
  induction rows with
  | nil => cases h
  | cons r rows ih =>
    rw [rowOf] at h
    split_ifs at h with hk
    · rw [hk, ← Option.some.inj h]
      exact List.mem_cons_self
    · exact List.mem_cons_of_mem r (ih h)

theorem rowOf_eq_none_iff {α : Type} {op : Byte} {rows : List (Byte × α)} :
    rowOf op rows = none ↔ op ∉ rows.map Prod.fst := by
  induction rows with
  | nil => simp [rowOf]
  | cons r rows ih =>
    rw [rowOf]
    split_ifs with hk <;> simp [hk, ih]

/-- Each row of format N holds the command with its opcode, which has no operand. -/
theorem formatN_fields : ∀ r ∈ formatN, r.2.opcode = r.1 ∧ r.2.operand = none := by decide

/-- Each row of format B holds the command with its opcode, whose operand is the byte it is given. -/
theorem formatB_fields (b : Byte) : ∀ r ∈ formatB, (r.2 b).opcode = r.1 ∧ (r.2 b).operand = some b := by
  simp [formatB, Instr.opcode, Instr.operand]

theorem not_mem_opcodesN_of_mem_opcodesB : ∀ op ∈ opcodesB, op ∉ opcodesN := by decide

/-! ### What decode makes of a word, by its two fields (30_encoding.md rule R98) -/

theorem decode_of_rowOf_formatN {w : Word} {i : Instr} (h : rowOf (opField w) formatN = some i) (h0 : immField w = 0) :
    decode w = .ok i := by
  simp only [decode, h, if_pos h0]

theorem decode_of_rowOf_formatB {w : Word} {mk : Byte → Instr} (hN : rowOf (opField w) formatN = none)
    (h : rowOf (opField w) formatB = some mk) : decode w = .ok (mk (immField w)) := by
  simp only [decode, hN, h]

theorem decode_of_mem_opcodesN {w : Word} (h : opField w ∈ opcodesN) (h0 : immField w = 0) :
    ∃ i, decode w = .ok i ∧ i.opcode = opField w ∧ i.operand = none := by
  cases hr : rowOf (opField w) formatN with
  | none => exact absurd h (rowOf_eq_none_iff.1 hr)
  | some i => exact ⟨i, decode_of_rowOf_formatN hr h0, formatN_fields _ (mem_of_rowOf hr)⟩

theorem decode_of_imm_ne_zero {w : Word} (h : opField w ∈ opcodesN) (h0 : immField w ≠ 0) :
    decode w = .error (.immediateNotZero (opField w) (immField w)) := by
  cases hr : rowOf (opField w) formatN with
  | none => exact absurd h (rowOf_eq_none_iff.1 hr)
  | some i => simp only [decode, hr, if_neg h0]

theorem decode_of_mem_opcodesB {w : Word} (h : opField w ∈ opcodesB) :
    ∃ i, decode w = .ok i ∧ i.opcode = opField w ∧ i.operand = some (immField w) := by
  have hN : rowOf (opField w) formatN = none := rowOf_eq_none_iff.2 (not_mem_opcodesN_of_mem_opcodesB _ h)
  cases hr : rowOf (opField w) formatB with
  | none => exact absurd h (rowOf_eq_none_iff.1 hr)
  | some mk => exact ⟨mk (immField w), decode_of_rowOf_formatB hN hr, formatB_fields _ _ (mem_of_rowOf hr)⟩

theorem decode_of_unassigned {w : Word} (hN : opField w ∉ opcodesN) (hB : opField w ∉ opcodesB) :
    decode w = .error (.unassignedOpcode (opField w)) := by
  simp only [decode, rowOf_eq_none_iff (rows := formatN).2 hN, rowOf_eq_none_iff (rows := formatB).2 hB]

/-- A decoded command has the opcode of the word, and the word's immediate is its operand, or 0. -/
theorem fields_of_decode {w : Word} {i : Instr} (h : decode w = .ok i) :
    i.opcode = opField w ∧ i.operand.getD 0 = immField w := by
  by_cases hN : opField w ∈ opcodesN
  · by_cases h0 : immField w = 0
    · obtain ⟨j, hj, hop, himm⟩ := decode_of_mem_opcodesN hN h0
      cases hj.symm.trans h
      exact ⟨hop, by rw [himm, h0]; rfl⟩
    · cases (decode_of_imm_ne_zero hN h0).symm.trans h
  · by_cases hB : opField w ∈ opcodesB
    · obtain ⟨j, hj, hop, himm⟩ := decode_of_mem_opcodesB hB
      cases hj.symm.trans h
      exact ⟨hop, by rw [himm]; rfl⟩
    · cases (decode_of_unassigned hN hB).symm.trans h

/-! ### The two fields as numbers (30_encoding.md rule R90) -/

theorem opField_toNat (w : Word) : (opField w).toNat = w.toNat / 256 := by
  have := w.isLt
  simp only [opField, BitVec.extractLsb'_toNat, Nat.shiftRight_eq_div_pow]
  omega

theorem immField_eq (w : Word) : immField w = BitVec.ofNat 8 w.toNat :=
  BitVec.eq_of_toNat_eq (by simp [immField])

theorem immField_eq_zero_iff (w : Word) : immField w = 0 ↔ w.toNat % 256 = 0 := by
  rw [immField_eq, ← BitVec.toNat_inj, BitVec.toNat_ofNat]
  exact Iff.rfl

theorem mkWord_fields (w : Word) : mkWord (opField w) (immField w) = w :=
  (BitVec.extractLsb'_append_extractLsb'_eq_extractLsb' rfl).trans BitVec.extractLsb'_eq_self

theorem opField_mem_opcodesN_iff (w : Word) : opField w ∈ opcodesN ↔
    w.toNat / 256 ∈ [0x01, 0x02, 0x10, 0x12, 0x14, 0x21, 0x22, 0x23, 0x30, 0x31, 0x32, 0x33] := by
  rw [← opField_toNat, ← List.mem_map_of_injective BitVec.toNat_injective]
  rfl

theorem opField_mem_opcodesB_iff (w : Word) : opField w ∈ opcodesB ↔ w.toNat / 256 ∈ [0x11, 0x13, 0x20, 0x40, 0x41] := by
  rw [← opField_toNat, ← List.mem_map_of_injective BitVec.toNat_injective]
  rfl

/-! ### Decoding and encoding -/

/-- Settles O1: the word of a command has its opcode and its operand in the two fields, and the opcode's row of the map holds
that command. -/
theorem decodeOfEncode : Obligations.DecodeOfEncode := by
  intro i _
  obtain ⟨hop, himm⟩ : opField (encode i) = i.opcode ∧ immField (encode i) = i.operand.getD 0 :=
    ⟨Laws.FieldsOfWord.opField_mkWord _ _, Laws.FieldsOfWord.immField_mkWord _ _⟩
  have formatB_row {mk : Byte → Instr} (hN : rowOf i.opcode formatN = none) (hB : rowOf i.opcode formatB = some mk) :
      decode (encode i) = .ok (mk (i.operand.getD 0)) :=
    himm ▸ decode_of_rowOf_formatB (hop ▸ hN) (hop ▸ hB)
  cases i with
  | pwpush b => exact formatB_row rfl rfl
  | npush b => exact formatB_row rfl rfl
  | lds b => exact formatB_row rfl rfl
  | encb b => exact formatB_row rfl rfl
  | decb b => exact formatB_row rfl rfl
  | _ => exact decode_of_rowOf_formatN (hop ▸ rfl) himm

/-- Settles O3: the two fields of the word are those of the command's word, and a word is its two fields. -/
theorem encodeOfDecode : Obligations.EncodeOfDecode := by
  intro w i h
  obtain ⟨hop, himm⟩ := fields_of_decode h
  rw [encode, hop, himm, mkWord_fields]

/-- Settles O2, by the opcode's list and, in format N, by whether the immediate is 0. -/
theorem decodeFollowsTheRule : Obligations.DecodeFollowsTheRule := by
  intro w
  rw [← opField_mem_opcodesN_iff, ← opField_mem_opcodesB_iff, ← opField_toNat, ← immField_eq]
  refine ⟨fun hN => ⟨fun h0 => ?_, fun h0 => ?_⟩, fun hB => ?_, fun hN hB => ⟨_, decode_of_unassigned hN hB⟩⟩
  · obtain ⟨i, hd, hop, himm⟩ := decode_of_mem_opcodesN hN ((immField_eq_zero_iff w).2 h0)
    exact ⟨i, hd, congrArg BitVec.toNat hop, himm⟩
  · exact ⟨_, decode_of_imm_ne_zero hN (mt (immField_eq_zero_iff w).1 h0)⟩
  · obtain ⟨i, hd, hop, himm⟩ := decode_of_mem_opcodesB hB
    exact ⟨i, hd, congrArg BitVec.toNat hop, himm⟩

/-- Settles O5: nine fixed words, evaluated. -/
theorem decodesTheVectorWords : Obligations.DecodesTheVectorWords := by
  unfold Obligations.DecodesTheVectorWords
  decide

/-! ### The count of legal words (30_encoding.md rule R95) -/

/-- Whether the word with these two fields is a command, and if so whether it has an operand (30_encoding.md rules R91, R92,
R96). -/
def wordFormat (op imm : Byte) : Option Bool :=
  if op ∈ opcodesN then if imm = 0 then some false else none
  else if op ∈ opcodesB then some true
  else none

theorem map_isSome_operand_decode (w : Word) :
    (decode w).toOption.map (fun i => i.operand.isSome) = wordFormat (opField w) (immField w) := by
  unfold wordFormat
  split_ifs with hN h0 hB
  · obtain ⟨i, hd, -, hnone⟩ := decode_of_mem_opcodesN hN h0
    simp [hd, hnone, Except.toOption]
  · simp [decode_of_imm_ne_zero hN h0, Except.toOption]
  · obtain ⟨i, hd, -, hsome⟩ := decode_of_mem_opcodesB hB
    simp [hd, hsome, Except.toOption]
  · simp [decode_of_unassigned hN hB, Except.toOption]

theorem decodeTableWord_eq_toOption (nbits w : Nat) :
    decodeTableWord nbits w = (decode (BitVec.ofNat 16 (w % 2 ^ nbits))).toOption := by
  rw [decodeTableWord]
  cases decode (BitVec.ofNat 16 (w % 2 ^ nbits)) <;> rfl

theorem decodeTableWord_format (op : Nat) {imm : Nat} (hi : imm < 256) :
    (decodeTableWord 16 (256 * op + imm)).map (fun i => i.operand.isSome)
      = wordFormat (BitVec.ofNat 8 op) (BitVec.ofNat 8 imm) := by
  rw [decodeTableWord_eq_toOption, map_isSome_operand_decode]
  congr 1 <;> apply BitVec.eq_of_toNat_eq
  · rw [opField_toNat, BitVec.toNat_ofNat, BitVec.toNat_ofNat]; omega
  · rw [immField_eq, BitVec.toNat_ofNat, BitVec.toNat_ofNat, BitVec.toNat_ofNat]; omega

open Machine (allBytes allBytes_length)

/-- Of the 256 words of an opcode: in format N one is a command and 255 are not, in format B all are, and else none is. -/
theorem countP_wordFormat (p : Option Bool → Bool) (op : Byte) :
    allBytes.countP (fun imm => p (wordFormat op imm)) =
      if op ∈ opcodesN then (p (some false)).toNat + 255 * (p none).toNat
      else if op ∈ opcodesB then 256 * (p (some true)).toNat
      else 256 * (p none).toNat := by
  have count_const (b : Bool) : allBytes.countP (fun _ => b) = 256 * b.toNat := by
    cases b <;> simp [allBytes_length]
  unfold wordFormat
  split_ifs
  · simp only [apply_ite p]
    cases p (some false) <;> cases p none <;> decide +kernel
  · exact count_const _
  · exact count_const _

theorem sum_map_by_opcode (ops : List Byte) (x y z : Nat) :
    (ops.map (fun op => if op ∈ opcodesN then x else if op ∈ opcodesB then y else z)).sum
      = ops.countP (· ∈ opcodesN) * x + ops.countP (fun op => op ∉ opcodesN ∧ op ∈ opcodesB) * y
        + ops.countP (fun op => op ∉ opcodesN ∧ op ∉ opcodesB) * z := by
  induction ops with
  | nil => simp
  | cons op ops ih =>
    rw [List.map_cons, List.sum_cons, ih]
    by_cases hN : op ∈ opcodesN
    · simp [hN]; ring
    · by_cases hB : op ∈ opcodesB <;> simp [hN, hB] <;> ring

/-- Twelve opcodes are of format N, five of format B, and the other 239 are not assigned. -/
theorem sum_over_opcodes (x y z : Nat) :
    (allBytes.map (fun op => if op ∈ opcodesN then x else if op ∈ opcodesB then y else z)).sum
      = 12 * x + 5 * y + 239 * z := by
  have hN : allBytes.countP (· ∈ opcodesN) = 12 := by decide +kernel
  have hB : allBytes.countP (fun op => op ∉ opcodesN ∧ op ∈ opcodesB) = 5 := by decide +kernel
  have hU : allBytes.countP (fun op => op ∉ opcodesN ∧ op ∉ opcodesB) = 239 := by decide +kernel
  rw [sum_map_by_opcode, hN, hB, hU]

/-- How many of all words have a format with the property `p`. -/
theorem sum_countP_format (p : Option Bool → Bool) :
    ((List.range 256).map (fun op => (List.range 256).countP (fun imm =>
      p ((decodeTableWord 16 (256 * op + imm)).map (fun i => i.operand.isSome))))).sum
    = 12 * ((p (some false)).toNat + 255 * (p none).toNat) + 5 * (256 * (p (some true)).toNat)
      + 239 * (256 * (p none).toNat) := by
  rw [← sum_over_opcodes, allBytes, List.map_map]
  refine congrArg List.sum (List.map_congr_left fun op _ => ?_)
  rw [Function.comp_apply, ← countP_wordFormat, allBytes, List.countP_map]
  refine List.countP_congr fun imm hi => ?_
  rw [Function.comp_apply, decodeTableWord_format op (List.mem_range.1 hi)]

theorem map_operand_beq_none (o : Option Instr) :
    (o.map Instr.operand == some none) = (o.map (fun i => i.operand.isSome) == some false) := by
  cases o with
  | none => rfl
  | some i => cases h : i.operand <;> simp [h]

/-- Settles O4: each of the three counts is of the words whose format has a property. -/
theorem countOfLegalWords : Obligations.CountOfLegalWords := by
  have legal := sum_countP_format Option.isSome
  have formatN := sum_countP_format (· == some false)
  have illegal := sum_countP_format Option.isNone
  simp only [Option.isSome_map, Option.isNone_map] at legal illegal
  simp only [← map_operand_beq_none] at formatN
  exact ⟨legal, formatN, illegal⟩

end Sys2Proof

namespace Sys2Proof.Machine

/-! ### Acceptance (30_encoding.md rule R100) -/

/-- Settles O8, command by command: each entry of the column is a comparison of the phase. -/
theorem legalPhasesOfTheMap : Obligations.LegalPhasesOfTheMap := by
  refine fun p b => ⟨rfl, ?_, fun i hi => ?_, beq_iff_eq, ?_⟩
  · simp only [legalIn, Bool.or_eq_true, beq_iff_eq, or_assoc]
  · simp only [List.mem_cons, List.not_mem_nil, or_false] at hi
    rcases hi with rfl | rfl | rfl | rfl | rfl | rfl | rfl | rfl | rfl | rfl | rfl | rfl | rfl <;> exact beq_iff_eq
  · simp only [legalIn, Bool.or_eq_true, beq_iff_eq]

theorem illegalWord_of_fault {w : Word} {s : State} (h : s.phase = .fault) : illegalWord w s = s := if_pos h

theorem illegalWord_of_not_fault {w : Word} {s : State} (h : s.phase ≠ .fault) :
    illegalWord w s = raise .illegalCommand w s := if_neg h

/-- 0x0100 is the one word of RST, so any other word that decodes is another command (30_encoding.md rule R97). -/
theorem ne_rst_of_decode {w : Word} {i : Instr} (h : decode w = .ok i) (hw : w ≠ 0x0100) : i ≠ .rst := by
  rintro rfl
  exact hw (encodeOfDecode w .rst h).symm

/-- In FAULT a command that is not RST is discarded (60_exceptions.md rule R242). -/
theorem execWith_of_fault (P : Config.Params) {i : Instr} {s : State} (hi : i ≠ .rst) (h : s.phase = .fault) :
    execWith P i s = .next s := by
  rw [execWith_eq_accept P hi, accept_fault h]

/-- A command out of its legal phases raises IllegalCommand with its word (60_exceptions.md rule R238). -/
theorem execWith_of_not_legal (P : Config.Params) {i : Instr} {s : State} (hf : s.phase ≠ .fault)
    (h : legalIn i s.phase = false) : execWith P i s = .next (raise .illegalCommand (encode i) s) := by
  have hi : i ≠ .rst := by rintro rfl; cases h
  rw [execWith_eq_accept P hi, accept_illegal hf h]

/-- A legal command is performed. -/
theorem execWith_of_legal (P : Config.Params) {i : Instr} {s : State} (hf : s.phase ≠ .fault)
    (h : legalIn i s.phase = true) : execWith P i s = .next (effectOf P i s) := by
  by_cases hi : i = .rst
  · rw [hi]; rfl
  · rw [execWith_eq_accept P hi, accept_legal hf h]

/-- Settles O7, by the phase and by what the word decodes to. -/
theorem acceptanceFollowsTheFourLines : Obligations.AcceptanceFollowsTheFourLines := by
  refine fun P s w rest hn hc => ⟨fun hf => ⟨fun hw => ?_, fun hw => ?_⟩,
    fun hf => ⟨fun r hd => ?_, fun i hd hl => ?_, fun i hd _ => stepVia_command hn hc hd⟩, (step_eq_stepWith s).symm⟩
  · exact stepVia_command hn hc (hw ▸ decodeOfEncode .rst rfl)
  · cases hd : decode w with
    | ok i => exact (stepVia_command hn hc hd).trans (execWith_of_fault P (ne_rst_of_decode hd hw) hf)
    | error r => exact (stepVia_illegal hn hc hd).trans (congrArg _ (illegalWord_of_fault hf))
  · exact (stepVia_illegal hn hc hd).trans (congrArg _ (illegalWord_of_not_fault hf))
  · exact encodeOfDecode w i hd ▸ (stepVia_command hn hc hd).trans (execWith_of_not_legal P hf hl)

/-- A word with an unassigned opcode, or with an immediate under an opcode that is not of format B, decodes to nothing
(30_encoding.md rule R96). -/
theorem decode_error_of_illegal {w : Word} (h : (opField w ∉ opcodesN ∧ opField w ∉ opcodesB) ∨
    (opField w ∉ opcodesB ∧ immField w ≠ 0)) : ∃ r, decode w = .error r := by
  by_cases hN : opField w ∈ opcodesN
  · rcases h with ⟨hU, -⟩ | ⟨-, h0⟩
    · exact absurd hN hU
    · exact ⟨_, decode_of_imm_ne_zero hN h0⟩
  · rcases h with ⟨-, hB⟩ | ⟨hB, -⟩ <;> exact ⟨_, decode_of_unassigned hN hB⟩

/-- Settles O9: such a word does not decode, and the second line of acceptance raises. -/
theorem illegalWordRaises : Obligations.IllegalWordRaises := by
  intro s w rest hn hc hf hw
  obtain ⟨r, hd⟩ : ∃ r, decode w = .error r := by
    refine decode_error_of_illegal (hw.imp (fun hU => ?_) (fun ⟨hB, h0⟩ => ?_))
    · rw [opField_mem_opcodesN_iff, opField_mem_opcodesB_iff]
      simp only [List.mem_cons, List.not_mem_nil, or_false, not_or] at hU ⊢
      tauto
    · exact ⟨mt (opField_mem_opcodesB_iff w).1 hB, mt (immField_eq_zero_iff w).1 h0⟩
  obtain ⟨-, hlines, -⟩ := acceptanceFollowsTheFourLines Config.params s w rest hn hc
  rw [step_eq_stepWith, (hlines hf).1 r hd]
  rfl

/-! ### SEED64 (30_encoding.md rule R103) -/

/-- S after a byte has been shifted in (40_prg.md rule R140). -/
def shiftByteIn (x : Word64) (b : Byte) : Word64 := (x <<< 8) + immTo64 b

theorem shiftByteIn_toNat (x : Word64) (b : Byte) : (shiftByteIn x b).toNat = (x.toNat * 256 + b.toNat) % 2 ^ 64 := by
  have := b.isLt
  simp only [shiftByteIn, immTo64, BitVec.toNat_add, BitVec.toNat_shiftLeft, BitVec.toNat_setWidth, Nat.shiftLeft_eq]
  omega

/-- The eight bytes of a value, most significant first, push out all that S held (20_memory.md rule R69). -/
theorem foldl_shiftByteIn_seedBytes (v x : Word64) : (seedBytes v).foldl shiftByteIn x = v := by
  refine BitVec.eq_of_toNat_eq ?_
  have := v.isLt
  simp only [seedBytes, List.foldl_cons, List.foldl_nil, shiftByteIn_toNat, BitVec.extractLsb'_toNat,
    Nat.shiftRight_eq_div_pow]
  omega

theorem execWith_lds_of_idle (P : Config.Params) (b : Byte) {s : State} (h : s.phase = .idle) :
    execWith P (.lds b) s = .next (s.setS (shiftByteIn s.regS b)) :=
  execWith_of_legal P (by simp [h]) (by rw [h]; rfl)

theorem execWith_seed_of_idle (P : Config.Params) {s : State} (h : s.phase = .idle) :
    execWith P .seed s = .next (s.setX s.regS) := by
  rw [execWith_of_legal P (by simp [h]) (by rw [h]; rfl)]
  simp only [effectOf, prgSeed, BitVec.ofNat_toNat, BitVec.setWidth_eq]

/-- A command that answers `t` and puts nothing out is followed by the rest of the sequence from `t`. -/
theorem perform_command_of_quiet {P : Config.Params} {i : Instr} {es : List Event} {s t : State} (h : s.ngenWait = false)
    (he : execWith P i s = .next t) (ho : t.out = s.out) : perform P (.command i :: es) s = perform P es t := by
  rw [perform_command h he, bytesPushed_append (bs := []) (by rw [ho, List.append_nil])]
  exact Option.map_id'

/-- A run of LDS shifts its bytes into S in order, and the rest of the sequence follows. -/
theorem perform_lds_run (P : Config.Params) (bs : List Byte) (es : List Event) {s : State} (hp : s.phase = .idle)
    (hw : s.ngenWait = false) :
    perform P ((bs.map Instr.lds).map .command ++ es) s = perform P es (s.setS (bs.foldl shiftByteIn s.regS)) := by
  induction bs generalizing s with
  | nil => rfl
  | cons b bs ih =>
    exact (perform_command_of_quiet hw (execWith_lds_of_idle P b hp) (setS_out s _)).trans
      (ih (s := s.setS (shiftByteIn s.regS b)) hp hw)

/-- Settles O27: the eight LDS leave S at the value, and SEED copies it to X. -/
theorem seed64LoadsTheValue : Obligations.Seed64LoadsTheValue := by
  intro P v s hp hw
  rw [Pseudo.expand, List.map_append, perform_lds_run P _ _ hp hw, foldl_shiftByteIn_seedBytes]
  exact (perform_command_of_quiet (s := s.setS v) hw (execWith_seed_of_idle P hp) (setX_out _ _)).trans
    (congrArg _ (finish_of_not_held (s := (s.setS v).setX v) hw))

end Sys2Proof.Machine

/-! PROOFS. The generator engine (40_prg.md): one draw in arithmetic, bit by bit and as a bijection (O22 to O24), the four
commands LDS, SEED, NEXTB and NEXTP (O26, O28 to O30), the zero state (O25), and what a permutation is (O31 to O33). -/

namespace Sys2Proof.Machine

/-! ### The xor-shift steps of a draw (40_prg.md rules R122, R123, R126) -/

/-- A xor-shift step to the left: the first and the third of a draw. -/
def xorShiftLeft (k : Nat) (x : Word64) : Word64 := x ^^^ (x <<< k)

/-- A xor-shift step to the right: the second of a draw. -/
def xorShiftRight (k : Nat) (x : Word64) : Word64 := x ^^^ (x >>> k)

theorem prgStep_eq (x : Word64) : prgStep x = xorShiftLeft 27 (xorShiftRight 25 (xorShiftLeft 12 x)) := rfl

theorem xorShiftLeft_toNat (k : Nat) (x : Word64) :
    (xorShiftLeft k x).toNat = (x.toNat ^^^ (x.toNat * 2 ^ k)) % 2 ^ 64 := by
  rw [xorShiftLeft, BitVec.toNat_xor, BitVec.toNat_shiftLeft, Nat.shiftLeft_eq, Nat.xor_mod_two_pow,
    Nat.mod_eq_of_lt x.isLt]

theorem xorShiftRight_toNat (k : Nat) (x : Word64) : (xorShiftRight k x).toNat = x.toNat ^^^ (x.toNat / 2 ^ k) := by
  rw [xorShiftRight, BitVec.toNat_xor, BitVec.toNat_ushiftRight, Nat.shiftRight_eq_div_pow]

theorem xorShiftLeft_getLsbD (k : Nat) (x : Word64) {i : Nat} (hi : i < 64) :
    (xorShiftLeft k x).getLsbD i = if k ≤ i then (x.getLsbD i ^^ x.getLsbD (i - k)) else x.getLsbD i := by
  rw [xorShiftLeft, BitVec.getLsbD_xor, BitVec.getLsbD_shiftLeft]
  by_cases hk : k ≤ i
  · simp [hi, hk, Nat.not_lt.2 hk]
  · simp [hk, Nat.lt_of_not_le hk]

theorem xorShiftRight_getLsbD (k : Nat) (x : Word64) (i : Nat) :
    (xorShiftRight k x).getLsbD i = (x.getLsbD i ^^ x.getLsbD (i + k)) := by
  rw [xorShiftRight, BitVec.getLsbD_xor, BitVec.getLsbD_ushiftRight, Nat.add_comm]

/-- The bits are recovered from bit 0 upward: each from the bit of the result and the bit `k` places below it. -/
theorem xorShiftLeft_injective {k : Nat} (hk : 0 < k) : Function.Injective (xorShiftLeft k) := by
  intro x y h
  refine BitVec.eq_of_getLsbD_eq fun i => ?_
  induction i using Nat.strong_induction_on with
  | _ i ih =>
    intro hi
    have hbit := congrArg (·.getLsbD i) h
    simp only [xorShiftLeft_getLsbD k _ hi] at hbit
    by_cases hki : k ≤ i
    · rwa [if_pos hki, if_pos hki, ih (i - k) (by omega) (by omega), Bool.xor_left_inj] at hbit
    · rwa [if_neg hki, if_neg hki] at hbit

/-- The bits are recovered from bit 63 downward: each from the bit of the result and the bit `k` places above it. -/
theorem xorShiftRight_injective {k : Nat} (hk : 0 < k) : Function.Injective (xorShiftRight k) := by
  intro x y h
  have hbits : ∀ n i, 64 ≤ i + n → x.getLsbD i = y.getLsbD i := by
    intro n
    induction n with
    | zero => exact fun i hi => by rw [BitVec.getLsbD_of_ge x i hi, BitVec.getLsbD_of_ge y i hi]
    | succ n ih =>
      intro i hi
      have hbit := congrArg (·.getLsbD i) h
      simp only [xorShiftRight_getLsbD] at hbit
      rwa [ih (i + k) (by omega), Bool.xor_left_inj] at hbit
  exact BitVec.eq_of_getLsbD_eq fun i _ => hbits 64 i (Nat.le_add_left 64 i)

theorem prgStep_injective : Function.Injective prgStep :=
  (xorShiftLeft_injective (by decide)).comp
    ((xorShiftRight_injective (by decide)).comp (xorShiftLeft_injective (by decide)))

theorem prgStep_zero : prgStep 0 = 0 := by decide

theorem prgByte_zero : prgByte 0 = 0 := by decide

theorem prgByte_toNat (x : Word64) :
    (prgByte x).toNat = x.toNat * 0x2545F4914F6CDD1D % 2 ^ 64 / 2 ^ 32 % 256 := by
  rw [prgByte, BitVec.extractLsb'_toNat, BitVec.toNat_mul, Nat.shiftRight_eq_div_pow]
  rfl

theorem draw_fst (s : State) : (draw s).1 = prgByte (prgStep s.regX) := rfl

/-- A draw changes X only. -/
theorem draw_snd (s : State) : (draw s).2 = s.setX (prgStep s.regX) := rfl

/-- Settles O22: each xor-shift step in natural numbers, and the byte from the product. -/
theorem drawFollowsTheArithmetic : Obligations.DrawFollowsTheArithmetic := by
  intro s x a b c m
  have hc : (prgStep s.regX).toNat = c := by
    rw [prgStep_eq, xorShiftLeft_toNat, xorShiftRight_toNat, xorShiftLeft_toNat]
  refine ⟨?_, ?_, ?_⟩
  · rw [draw_fst, prgByte_toNat, hc]
  · rw [draw_regX, hc]
  · rw [draw_regX, draw_snd, State.setX]

/-- Settles O23: `a` and `b` are the values after the first and the second step; past bit 38 the right shift brings in
zeros. -/
theorem drawBitByBit : Obligations.DrawBitByBit := by
  refine fun x => ⟨xorShiftLeft 12 x, xorShiftRight 25 (xorShiftLeft 12 x),
    fun i hi => xorShiftLeft_getLsbD 12 x hi, fun i _ => ?_, fun i hi => xorShiftLeft_getLsbD 27 _ hi⟩
  rw [xorShiftRight_getLsbD]
  split_ifs with h
  · rfl
  · rw [BitVec.getLsbD_of_ge _ (i + 25) (by omega), Bool.xor_false]

/-- Settles O24: an injection of a finite type into itself is a bijection, and 0 is the only value a draw takes to 0. -/
theorem drawIsABijection : Obligations.DrawIsABijection := by
  refine ⟨Finite.injective_iff_bijective.1 (xorShiftLeft_injective (k := 12) (by decide)),
    Finite.injective_iff_bijective.1 (xorShiftRight_injective (k := 25) (by decide)),
    Finite.injective_iff_bijective.1 (xorShiftLeft_injective (k := 27) (by decide)),
    Finite.injective_iff_bijective.1 prgStep_injective, fun x hx h0 => hx (prgStep_injective ?_)⟩
  rw [h0, prgStep_zero]

/-! ### The commands of the generator (40_prg.md rules R140 to R143) -/

/-- A command legal in IDLE only, from its word and from what it does in IDLE (30_encoding.md rules R94, R100). -/
theorem idleCommand_of_idle (P : Config.Params) {i : Instr} {w : Word} {s t : State} (hw : encode i = w)
    (hl : ∀ p, legalIn i p = (p == .idle)) (h : s.phase = .idle → execWith P i s = .next t) :
    IdleCommand (execWith P) i w s t := by
  have hi : i ≠ .rst := by rintro rfl; cases hl .fault
  refine ⟨hw, h, execWith_of_fault P hi, fun hn hf => ?_⟩
  rw [← hw, execWith_of_not_legal P hf (by rw [hl, beq_eq_false_iff_ne]; exact hn)]

/-- What holds of every block holds of this hardware. -/
theorem idleCommand_exec {i : Instr} {w : Word} {s t : State} (h : IdleCommand (execWith Config.params) i w s t) :
    IdleCommand exec i w s t := by
  unfold IdleCommand
  rwa [exec_eq_execWith]

/-- The opcode stands in the high byte of a word, the immediate in the low one (30_encoding.md rule R90). -/
theorem mkWord_toNat (op imm : Byte) : (mkWord op imm).toNat = op.toNat * 256 + imm.toNat := by
  rw [mkWord, BitVec.toNat_append, ← Nat.shiftLeft_add_eq_or_of_lt imm.isLt, Nat.shiftLeft_eq]

theorem mkWord_eq_add (op imm : Byte) : mkWord op imm = mkWord op 0 + imm.setWidth 16 := by
  refine BitVec.eq_of_toNat_eq ?_
  have := op.isLt
  have := imm.isLt
  have h0 : (0 : Byte).toNat = 0 := rfl
  simp only [mkWord_toNat, BitVec.toNat_add, BitVec.toNat_setWidth, h0]
  omega

/-- Settles O26: shifting the byte in is the document's sum, which does not pass bit 63. -/
theorem ldsShiftsAByteIn : Obligations.LdsShiftsAByteIn := by
  refine fun b s => ⟨s.setS (shiftByteIn s.regS b),
    idleCommand_exec (idleCommand_of_idle _ (mkWord_eq_add 0x20 b) (fun _ => rfl) (execWith_lds_of_idle _ b)), rfl, ?_⟩
  have := b.isLt
  rw [setS_regS, shiftByteIn_toNat]
  omega

/-- Settles O28: `prg_seed(S)` is X <- S. -/
theorem seedCopiesS : Obligations.SeedCopiesS := fun _ =>
  idleCommand_exec (idleCommand_of_idle _ rfl (fun _ => rfl) (execWith_seed_of_idle _))

theorem putDraw_eq (s : State) :
    putDraw s = { s with regX := (draw s).2.regX, out := s.out ++ [(draw s).1] } := by
  rw [putDraw, draw_snd, setX_regX]
  rfl

theorem execWith_nextb_of_idle (P : Config.Params) {s : State} (h : s.phase = .idle) :
    execWith P .nextb s = .next (putDraw s) :=
  execWith_of_legal P (by simp [h]) (by rw [h]; rfl)

/-- Settles O29: NEXTB's effect as one record. -/
theorem nextbPushesADraw : Obligations.NextbPushesADraw := fun s =>
  idleCommand_exec (idleCommand_of_idle _ rfl (fun _ => rfl) (putDraw_eq s ▸ execWith_nextb_of_idle _))

theorem execWith_nextp_of_idle (P : Config.Params) {s : State} (h : s.phase = .idle) :
    execWith P .nextp s = .next (putPerm s) :=
  execWith_of_legal P (by simp [h]) (by rw [h]; rfl)

/-- Settles O30: NEXTP's effect as one record. -/
theorem nextpPushesAPermutation : Obligations.NextpPushesAPermutation := fun s =>
  ⟨idleCommand_exec (idleCommand_of_idle _ rfl (fun _ => rfl) (putPerm_eq s ▸ execWith_nextp_of_idle _)),
    nextPerm_length s.regX⟩

/-! ### The zero state (40_prg.md rule R125) -/

theorem setX_of_eq {s : State} {x : Word64} (h : s.regX = x) : s.setX x = s := by
  subst h; rfl

theorem draw_of_zero {s : State} (h : s.regX = 0) : draw s = (0, s) := by
  rw [draw, h, prgStep_zero, prgByte_zero, setX_of_eq h]

theorem putDraw_of_zero {s : State} (h : s.regX = 0) : putDraw s = s.push 0 := by
  rw [putDraw, draw_of_zero h]

/-- A run of NEXTB from the zero state: the state stays zero, so each appends a byte 0. -/
theorem perform_nextb_run_of_zero (P : Config.Params) (n : Nat) {s : State} (hp : s.phase = .idle)
    (hw : s.ngenWait = false) (hx : s.regX = 0) :
    perform P (List.replicate n (.command .nextb)) s
      = some (s.pushAll (List.replicate n 0), List.replicate n 0) := by
  induction n generalizing s with
  | zero =>
    rw [List.replicate_zero, perform, finish_of_not_held hw, State.pushAll, List.replicate_zero, List.append_nil]
    rfl
  | succ n ih =>
    have he : execWith P .nextb s = .next (s.push 0) := by rw [execWith_nextb_of_idle P hp, putDraw_of_zero hx]
    have hpush : (s.push 0).pushAll (List.replicate n 0) = s.pushAll (List.replicate (n + 1) 0) := by
      simp only [State.push, State.pushAll, List.append_assoc, List.replicate_succ, List.singleton_append]
    rw [List.replicate_succ, perform_command hw he, ih (s := s.push 0) hp hw hx,
      bytesPushed_append (push_out s 0), hpush]
    rfl

/-- Settles O25: a draw from zero is the byte 0 and no change, and a run of NEXTB repeats it. -/
theorem zeroStateGivesZeros : Obligations.ZeroStateGivesZeros :=
  ⟨fun _ => draw_of_zero, fun P n _ => perform_nextb_run_of_zero P n⟩

/-! ### Permutations (40_prg.md rules R130 to R136) -/

/-- From the zero state every draw takes the first entry of the pool. -/
theorem permLoop_zero (pool : List Byte) : permLoop pool.length pool 0 = (pool, 0) := by
  induction pool with
  | nil => rfl
  | cons v pool ih =>
    obtain ⟨w, hw, heq⟩ := permLoop_succ 0 (List.length_cons (a := v) (as := pool))
    have hr : (prgByte (prgStep 0)).toNat % (pool.length + 1) = 0 := by
      rw [prgStep_zero, prgByte_zero]
      exact Nat.zero_mod _
    rw [hr] at hw heq
    rw [List.length_cons, heq, prgStep_zero, removeAt, List.eraseIdx_cons_zero, ih, ← Option.some.inj hw]

theorem nextPerm_zero : nextPerm 0 = (allBytes, 0) := by
  rw [← permLoop_zero allBytes, allBytes_length]; rfl

/-- Settles O33: the first pool is the bytes in ascending order. -/
theorem permutationFromZero : Obligations.PermutationFromZero := by
  refine ⟨fun n hn => ?_, congrArg Prod.snd nextPerm_zero⟩
  rw [nextPerm_zero, allBytes, List.getElem?_map, List.getElem?_range hn, Option.map_some]

theorem nextPerm_nodup (x : Word64) : (nextPerm x).1.Nodup := (nextPerm_spec x).1.nodup_iff.2 allBytes_nodup

/-- Settles O32: a permutation is a rearrangement of the 256 bytes, which has no entry twice. -/
theorem permutationIsABijection : Obligations.PermutationIsABijection := by
  intro x v
  obtain ⟨n, hv⟩ := List.getElem?_of_mem ((nextPerm_spec x).1.mem_iff.2 (mem_allBytes v))
  have hn : n < (nextPerm x).1.length := (List.getElem?_eq_some_iff.1 hv).1
  refine ⟨n, ⟨nextPerm_length x ▸ hn, hv⟩, fun m ⟨_, hm⟩ => ?_⟩
  exact ((List.getElem?_inj hn (nextPerm_nodup x)).1 (hv.trans hm.symm)).symm

/-- The values of `pool` below `v` that are not among those put out before. -/
def leftBelow (pool out : List Byte) (v : Byte) : List Byte :=
  pool.filter (fun u => decide (u.toNat < v.toNat) && decide (u ∉ out))

/-- Of a pool in ascending order, the values below the entry at `p` are the `p` entries before it. -/
theorem leftBelow_nil_length {pool : List Byte} (hs : pool.Pairwise (· < ·)) {p : Nat} {v : Byte}
    (hv : pool[p]? = some v) : (leftBelow pool [] v).length = p := by
  induction pool generalizing p with
  | nil => cases hv
  | cons u pool ih =>
    obtain ⟨hu, hs⟩ := List.pairwise_cons.1 hs
    cases p with
    | zero =>
      obtain rfl : u = v := Option.some.inj hv
      refine List.length_eq_zero_iff.2 (List.filter_eq_nil_iff.2 fun w hw => ?_)
      have : u.toNat ≤ w.toNat := (List.mem_cons.1 hw).elim (fun e => e ▸ le_rfl) fun h => (BitVec.lt_def.1 (hu w h)).le
      simp [this]
    | succ p =>
      have huv : u.toNat < v.toNat := BitVec.lt_def.1 (hu v (List.mem_of_getElem? hv))
      have hcons : leftBelow (u :: pool) [] v = u :: leftBelow pool [] v := List.filter_cons_of_pos (by simp [huv])
      rw [hcons, List.length_cons, ih hs hv]

/-- A value put out is a value taken out of the pool. -/
theorem leftBelow_cons (pool out : List Byte) (v w : Byte) :
    leftBelow pool (w :: out) v = leftBelow (pool.filter (· != w)) out v := by
  rw [leftBelow, leftBelow, List.filter_filter]
  refine List.filter_congr fun u _ => ?_
  by_cases huw : u = w <;> simp [huw]

theorem removeAt_eq_filter {pool : List Byte} (hn : pool.Nodup) {p : Nat} {w : Byte} (hw : pool[p]? = some w) :
    removeAt pool p = pool.filter (· != w) := by
  obtain ⟨hp, rfl⟩ := List.getElem?_eq_some_iff.1 hw
  rw [removeAt, ← hn.erase_getElem p hp, hn.erase_eq_filter]

theorem allBytes_ascending : allBytes.Pairwise (· < ·) := by
  refine List.pairwise_map.2 (List.pairwise_lt_range.imp_of_mem fun {m n} hm hn hlt => ?_)
  rw [BitVec.lt_def, BitVec.toNat_ofNat, BitVec.toNat_ofNat, Nat.mod_eq_of_lt (List.mem_range.1 hm),
    Nat.mod_eq_of_lt (List.mem_range.1 hn)]
  exact hlt

/-- Entry `m` of what the loop puts out from a pool in ascending order has, among the values left, the rank that draw `m + 1`
gives: the first entry stands at the drawn place, and the pool without it is again in ascending order. -/
theorem permLoop_entry_rank {n m : Nat} {pool : List Byte} (x : Word64) (hs : pool.Pairwise (· < ·))
    (hl : pool.length = n) (hm : m < n) :
    ∃ v, (permLoop n pool x).1[m]? = some v ∧ v ∉ (permLoop n pool x).1.take m ∧
      (leftBelow pool ((permLoop n pool x).1.take m) v).length = (prgByte (prgStep^[m + 1] x)).toNat % (n - m) := by
  induction m generalizing n pool x with
  | zero =>
    obtain ⟨n, rfl⟩ := Nat.exists_eq_succ_of_ne_zero hm.ne'
    obtain ⟨w, hw, heq⟩ := permLoop_succ x hl
    rw [heq]
    exact ⟨w, rfl, List.not_mem_nil, leftBelow_nil_length hs hw⟩
  | succ m ih =>
    obtain ⟨n, rfl⟩ := Nat.exists_eq_succ_of_ne_zero (Nat.ne_zero_of_lt hm)
    obtain ⟨w, hw, heq⟩ := permLoop_succ x hl
    have hrest := removeAt_eq_filter hs.nodup hw
    have hlen := removeAt_length hl (Nat.mod_lt (prgByte (prgStep x)).toNat (Nat.succ_pos n))
    rw [hrest] at heq hlen
    obtain ⟨v, hv, hnew, hrank⟩ := ih (prgStep x) (hs.filter _) hlen (Nat.lt_of_succ_lt_succ hm)
    have hvw : v ≠ w := by
      simpa using List.of_mem_filter ((permLoop_spec n _ (prgStep x) hlen).1.mem_iff.1 (List.mem_of_getElem? hv))
    rw [heq, List.take_succ_cons]
    refine ⟨v, hv, List.not_mem_cons_of_ne_of_not_mem hvw hnew, ?_⟩
    rw [leftBelow_cons, hrank, Nat.succ_sub_succ]
    rfl

/-- Settles O31: the first pool holds all bytes in ascending order. -/
theorem permutationEntryByRank : Obligations.PermutationEntryByRank := fun x _ hn =>
  permLoop_entry_rank x allBytes_ascending allBytes_length hn

end Sys2Proof.Machine

/-! PROOFS. Key derivation (41_keyderiv.md): the commands PWCLR and PWPUSH (O16, O17), what `kdf` leaves (O34, O35), and the
passes under a digest that starts with four zero bytes (O39). The result of a message is taken from a description of its
states (`DescribesMessage`), whatever the key schedule is. -/

namespace Sys2Proof.Machine

/-! ### The password commands (41_keyderiv.md rules R160, R161) -/

theorem execWith_pwclr_of_idle (P : Config.Params) {s : State} (h : s.phase = .idle) :
    execWith P .pwclr s = .next (s.setPw s.pw 0) :=
  execWith_of_legal P (by simp [h]) (by rw [h]; rfl)

theorem execWith_pwpush_of_idle (P : Config.Params) (b : Byte) {s : State} (h : s.phase = .idle) :
    execWith P (.pwpush b) s = .next (pwPush P b s) :=
  execWith_of_legal P (by simp [h]) (by rw [h]; rfl)

/-- Settles O16: PWLEN alone is written, and a password of length 0 is the empty sequence. -/
theorem pwclrEmptiesThePassword : Obligations.PwclrEmptiesThePassword := fun s =>
  ⟨idleCommand_exec (idleCommand_of_idle _ rfl (fun _ => rfl) (execWith_pwclr_of_idle _)),
    fun h => ⟨s.setPw s.pw 0, (exec_eq_execWith _ s).trans (execWith_pwclr_of_idle _ h), rfl⟩⟩

theorem pwPush_of_room {P : Config.Params} {s : State} (h : P.pwMax ≠ some s.pwlen) (b : Byte) :
    pwPush P b s = pwAppend b s := if_neg h

theorem pwPush_of_full {P : Config.Params} {s : State} (h : P.pwMax = some s.pwlen) (b : Byte) :
    pwPush P b s = raise .passwordOverflow (natToInfo s.pwlen) s := if_pos h

theorem pwAppend_readByte (b : Byte) (s : State) (a : Nat) :
    (pwAppend b s).readByte .pw a = if a = s.pwlen then b else s.readByte .pw a := by
  simp only [State.readByte, State.space, pwAppend_pw, read?_write]
  split_ifs <;> rfl

theorem pwAppend_pwSeq (b : Byte) (s : State) : (pwAppend b s).pwSeq = s.pwSeq ++ [b] := by
  have hold : (pwAppend b s).readRun .pw s.pwlen = s.pwSeq :=
    readRun_congr fun a ha => by rw [pwAppend_readByte, if_neg ha.ne]
  have hnew : (pwAppend b s).readByte .pw s.pwlen = b := by rw [pwAppend_readByte, if_pos rfl]
  rw [← hold, State.pwSeq, pwAppend_pwlen, State.readRun, List.range_succ, List.map_append, List.map_singleton, hnew,
    State.readRun]

/-- PWPUSH into a buffer that is not full, in a block with any PW_MAX. -/
theorem idleCommand_pwpush_of_room {P : Config.Params} (b : Byte) {s : State} (h : P.pwMax ≠ some s.pwlen) :
    IdleCommand (execWith P) (.pwpush b) (0x1100 + b.setWidth 16) s (pwAppend b s) :=
  idleCommand_of_idle P (mkWord_eq_add 0x11 b) (fun _ => rfl) (pwPush_of_room h b ▸ execWith_pwpush_of_idle P b)

/-- What appending to PW does, apart from the acceptance of the command: the new length, the new sequence, the byte written
and the bytes kept. -/
theorem pwAppend_spec (b : Byte) (s : State) :
    pwAppend b s = { s with pw := (pwAppend b s).pw, pwlen := s.pwlen + 1 } ∧
    (pwAppend b s).pwSeq = s.pwSeq ++ [b] ∧ (pwAppend b s).readByte .pw s.pwlen = b ∧
    ∀ a, a ≠ s.pwlen → (pwAppend b s).readByte .pw a = s.readByte .pw a :=
  ⟨rfl, pwAppend_pwSeq b s, by rw [pwAppend_readByte, if_pos rfl], fun a ha => by rw [pwAppend_readByte, if_neg ha]⟩

/-- EINFO holds the low 16 bits of PWLEN (60_exceptions.md rule R238). -/
theorem natToInfo_eq (n : Nat) : natToInfo n = BitVec.ofNat 16 (n % 2 ^ 16) :=
  BitVec.eq_of_toNat_eq (by rw [natToInfo, BitVec.toNat_ofNat, BitVec.toNat_ofNat, Nat.mod_mod])

/-- Settles O17: PWPUSH appends where there is room, which this hardware always has, and raises where there is none. -/
theorem pwpushAppendsAByte : Obligations.PwpushAppendsAByte := by
  refine ⟨fun b s => ⟨pwAppend b s,
      idleCommand_exec (idleCommand_pwpush_of_room b (Option.some_ne_none _).symm), pwAppend_spec b s⟩,
    fun P b s h => ⟨pwAppend b s, idleCommand_pwpush_of_room b h, pwAppend_spec b s⟩, fun P b s h => ?_⟩
  rw [← natToInfo_eq]
  exact idleCommand_of_idle P (mkWord_eq_add 0x11 b) (fun _ => rfl) (pwPush_of_full h b ▸ execWith_pwpush_of_idle P b)

/-! ### What `kdf` leaves (41_keyderiv.md rules R152 to R156) -/

theorem kdfSeed_eq_seedState (P : Config.Params) (msg : List Byte) : kdfSeed P msg = seedState P msg := rfl

/-- The pattern ends at min(T, HLEN), T half of 256 plus the first draw. -/
theorem kdfEnd_eq (P : Config.Params) (msg : List Byte) :
    kdfEnd P msg = min ((256 + (prgByte (prgStep (seedState P msg))).toNat) / 2) P.hlen := by
  rw [kdfEnd, patternEnd, truncateLength, Nat.shiftRight_eq_div_pow]
  rfl

/-- A key extraction writes X, PAT and PLEN only. -/
theorem kdf_frame (P : Config.Params) (msg : List Byte) (s : State) :
    kdf P msg s = { s with regX := (kdf P msg s).regX, pat := (kdf P msg s).pat, plen := (kdf P msg s).plen } := by
  apply State.ext <;> simp

theorem kdf_readByte_pat (P : Config.Params) (msg : List Byte) (s : State) (a : Nat) :
    (kdf P msg s).readByte .pat a
      = if a < kdfEnd P msg - 4 then (P.hash msg).toList.getD (4 + a) 0 else s.readByte .pat a := by
  have hb := kdfEnd_bounds P msg
  have hlen : (P.hash msg).toList.length = P.hlen := Vector.length_toList
  obtain ⟨-, -, hpat⟩ := kdf_spec P msg s
  split_ifs with ha
  · rw [State.readByte, State.space, hpat a ha, List.getElem?_eq_getElem (by omega), Option.getD_some,
      List.getD_eq_getElem _ _ (by omega)]
  · simp only [State.readByte, State.space, kdf_pat, read?_writeBytes]
    rw [patternOf_length (by omega), if_neg (by omega)]

/-- Settles O34: X, PLEN and PAT as `kdf_spec` has them, and PAT above the pattern as it was. -/
theorem kdfExtractsSeedAndPattern : Obligations.KdfExtractsSeedAndPattern := by
  intro P msg s d seed r e t
  obtain ⟨hx, hlen, -⟩ := kdf_spec P msg s
  have he : kdfEnd P msg = e := kdfEnd_eq P msg
  rw [he] at hlen
  refine ⟨kdf_frame P msg s, hx, hlen, fun j hj => ?_, fun a ha => ?_⟩
  · rw [kdf_readByte_pat, he, if_pos hj]
  · rw [kdf_readByte_pat, he, if_neg (Nat.not_lt.2 ha)]

/-- Settles O35: T is between 128 and 255 and HLEN at least 5; the rest is arithmetic. -/
theorem patternLengthByDigestLength : Obligations.PatternLengthByDigestLength := by
  intro P msg s n t
  have hn : n = min t P.hlen - 4 := by rw [← kdfEnd_eq P msg]; exact (kdf_spec P msg s).2.1
  have hT : 128 ≤ t ∧ t ≤ 255 := by
    have := (prgByte (prgStep (seedState P msg))).isLt
    omega
  have hH := P.hlen_ge
  omega

/-! ### The result of a message (00_scope.md rule R13) -/

/-- `K is bs s` describes a message in progress: in the state `s` the commands `is` are to come before END, and the core
will put out the bytes `bs` with them. The host's actions do not change that, and each command takes its part of the bytes. -/
structure DescribesMessage (P : Config.Params) (K : List Instr → List Byte → State → Prop) : Prop where
  quiet : ∀ {is bs s}, K is bs s → s.err = .none ∧ s.ngenWait = false
  host : ∀ {is bs s a}, K is bs s → insideMessage (.host a) = true → K is bs (hostAct a s).2
  command : ∀ {i is bs s}, K (i :: is) bs s → ∃ t new rest, execWith P i s = .next t ∧ t.out = s.out ++ new ∧
    bs = new ++ rest ∧ K is rest t
  atEnd : ∀ {bs s}, K [] bs s → bs = [] ∧ (s.phase = .enc ∨ s.phase = .dec)

/-- END in ENC or DEC, where no error stands, ends the message in IDLE and puts nothing out (45_control.md rule R222). -/
theorem perform_endMsg (P : Config.Params) {s : State} (hp : s.phase = .enc ∨ s.phase = .dec) (he : s.err = .none)
    (hw : s.ngenWait = false) :
    ∃ t, perform P [.command .endMsg] s = some (t, []) ∧ t.phase = .idle ∧ t.err = .none := by
  have hd : s.phase ≠ .decn := by rcases hp with hp | hp <;> simp [hp]
  have hend : endPass s = { s with regX := 0, plen := 0, pp := 0, nlen := 0, phase := .idle } := if_neg hd
  have hexec : execWith P .endMsg s = .next (endPass s) :=
    execWith_of_legal P (by rcases hp with hp | hp <;> simp [hp]) (by rcases hp with hp | hp <;> rw [hp] <;> rfl)
  refine ⟨endPass s, ?_, by rw [hend], by rw [hend, he]⟩
  rw [perform_command_of_quiet hw hexec (endPass_out s), perform, finish_of_not_held (by rw [hend, hw])]
  rfl

theorem perform_host (P : Config.Params) (a : HostAction) (es : List Event) (s : State) :
    perform P (.host a :: es) s = perform P es (hostAct a s).2 := rfl

/-- The events between a start command and END, and END: the described bytes are put out, and the message ends well. -/
theorem DescribesMessage.perform_to_end {P : Config.Params} {K : List Instr → List Byte → State → Prop}
    (hK : DescribesMessage P K) {body : List Event} {bs : List Byte} {s : State} (hb : body.all insideMessage = true)
    (h : K (commandsOf body) bs s) :
    ∃ t, perform P (body ++ [.command .endMsg]) s = some (t, bs) ∧ t.phase = .idle ∧ t.err = .none := by
  induction body generalizing bs s with
  | nil =>
    obtain ⟨rfl, hp⟩ := hK.atEnd h
    obtain ⟨he, hw⟩ := hK.quiet h
    exact perform_endMsg P hp he hw
  | cons e body ih =>
    rw [List.all_cons, Bool.and_eq_true] at hb
    obtain ⟨hin, hrest⟩ := hb
    cases e with
    | host a => exact ih hrest (hK.host h hin)
    | command i =>
      obtain ⟨u, new, rest, hexec, hout, rfl, hu⟩ := hK.command h
      obtain ⟨t, hrun, ht⟩ := ih hrest hu
      refine ⟨t, ?_, ht⟩
      rw [List.cons_append, perform_command (hK.quiet h).2 hexec, hrun, bytesPushed_append hout]
      rfl

/-- A start command that puts out `pre` and leaves a state in which the events of the message are described to put out
`bs`. -/
theorem DescribesMessage.messageResult {P : Config.Params} {K : List Instr → List Byte → State → Prop}
    (hK : DescribesMessage P K) {start : Instr} {body : List Event} {pre bs : List Byte} {s u : State}
    (hs : startsMessage start = true) (hw : s.ngenWait = false) (hexec : execWith P start s = .next u)
    (hout : u.out = s.out ++ pre) (hb : body.all insideMessage = true) (h : K (commandsOf body) bs u) :
    messageResult P start body s = some (pre ++ bs) := by
  obtain ⟨t, hrun, ht⟩ := hK.perform_to_end hb h
  have hall : perform P (.command start :: body ++ [.command .endMsg]) s = some (t, pre ++ bs) := by
    rw [List.cons_append, perform_command hw hexec, hrun, bytesPushed_append hout]
    rfl
  rw [Machine.messageResult, hs, hb, hall]
  exact if_pos ht

/-! ### A digest that starts with four zero bytes (41_keyderiv.md rule R158) -/

/-- X is 0 and every table of GRID is the identity. -/
structure CopiesBytes (s : State) : Prop where
  regX : s.regX = 0
  grid : ∀ t b : Byte, gridAt t b s = b

theorem iterate_prgStep_zero (n : Nat) : prgStep^[n] 0 = 0 := Function.iterate_fixed prgStep_zero n

theorem derive_regX_of_zero {P : Config.Params} {msg : List Byte} (h : seedState P msg = 0) (s : State) :
    (derive P msg s).regX = 0 := by
  rw [(derive_spec P msg s).1, kdfSeed_eq_seedState, h, iterate_prgStep_zero]

theorem derive_readByte_grid_of_zero {P : Config.Params} {msg : List Byte} (h : seedState P msg = 0) (s : State) {k : Nat}
    (hk : k < 256) (n : Byte) : (derive P msg s).readByte .grid (256 * k + n.toNat) = n := by
  have hn := n.isLt
  obtain ⟨-, -, -, hgrid⟩ := derive_spec P msg s
  have hmod : (256 * k + n.toNat) % 256 = n.toNat := by omega
  have hentry : (derive P msg s).grid.read? (256 * k + n.toNat) = some n := by
    rw [hgrid _ (by omega), kdfSeed_eq_seedState, h, prgStep_zero, tableSeed, iterate_prgStep_zero, hmod,
      permutationFromZero.1 _ hn, BitVec.ofNat_toNat, BitVec.setWidth_eq]
  rw [State.readByte, State.space, hentry, Option.getD_some]

theorem copiesBytes_derive {P : Config.Params} {msg : List Byte} (h : seedState P msg = 0) (s : State) :
    CopiesBytes (derive P msg s) :=
  ⟨derive_regX_of_zero h s, fun t b => derive_readByte_grid_of_zero h s t.isLt b⟩

theorem CopiesBytes.congr {s u : State} (h : CopiesBytes s) (hg : u.grid = s.grid) (hx : u.regX = 0) : CopiesBytes u :=
  ⟨hx, fun t b => (gridAt_congr hg t b).trans (h.grid t b)⟩

section
variable {s : State} (h : CopiesBytes s)
include h

/-- A draw is 0 and leaves X at 0, and nothing of a pass writes GRID. -/
theorem CopiesBytes.of_oneDrawOn {u : State} (hd : OneDrawOn s u) : CopiesBytes u := by
  obtain ⟨hx, -, -, hg⟩ := hd
  exact h.congr hg (by rw [hx, h.regX, prgStep_zero])

theorem CopiesBytes.tableSelect_fst : (tableSelect s).1 = s.readByte .pat s.pp.toNat := by
  rw [Machine.tableSelect_fst, h.regX, prgStep_zero, prgByte_zero]
  exact BitVec.add_zero _

theorem CopiesBytes.encByte_fst (b : Byte) : (encByte b s).1 = b := by
  rw [Machine.encByte_fst, h.grid]

/-- The one entry of an identity table that holds `b` is entry `b`. -/
theorem CopiesBytes.decByte_fst (b : Byte) : (decByte b s).1 = some b := by
  rw [Machine.decByte_fst]
  cases hi : gridIndexOf (tableSelect s).1 b s with
  | none => exact absurd (h.grid _ b) (gridIndexOf_none hi b)
  | some j => rw [← h.grid (tableSelect s).1 j, gridIndexOf_some hi]

theorem CopiesBytes.putEnc_eq (b : Byte) : putEnc b s = (tableSelect s).2.push b := by
  rw [putEnc, h.encByte_fst, encByte]

theorem CopiesBytes.decipher_eq (P : Config.Params) (hp : s.phase ≠ .decn) (b : Byte) :
    decipher P b s = (tableSelect s).2.push b := by
  rw [decipher, if_neg hp, putDec]
  simp only [h.decByte_fst]
  rfl

theorem CopiesBytes.tableSelect_push (b : Byte) : CopiesBytes ((tableSelect s).2.push b) :=
  h.of_oneDrawOn (by simp [OneDrawOn])

end

theorem CopiesBytes.putEncAll_copies {s : State} (h : CopiesBytes s) (bs : List Byte) :
    (putEncAll bs s).out = s.out ++ bs ∧ (putEncAll bs s).regX = 0 := by
  induction bs generalizing s with
  | nil => exact ⟨(List.append_nil _).symm, h.regX⟩
  | cons b bs ih =>
    rw [putEncAll, h.putEnc_eq]
    obtain ⟨hout, hx⟩ := ih (h.tableSelect_push b)
    refine ⟨?_, hx⟩
    rw [hout, push_out, tableSelect_out, List.append_assoc, List.singleton_append]

/-- A pass in phase `p` that copies bytes: the commands to come are `mk` of the bytes it will put out. -/
structure CopyingPass (mk : Byte → Instr) (p : Phase) (is : List Instr) (bs : List Byte) (s : State) : Prop where
  commands : is = bs.map mk
  phase : s.phase = p
  err : s.err = .none
  notHeld : s.ngenWait = false
  copies : CopiesBytes s

/-- The host's actions but the reset input write OUT, the command port and the source only. -/
theorem CopyingPass.hostAct {mk : Byte → Instr} {p : Phase} {is : List Instr} {bs : List Byte} {s : State}
    (h : CopyingPass mk p is bs s) {a : HostAction} (ha : insideMessage (.host a) = true) :
    CopyingPass mk p is bs (hostAct a s).2 := by
  cases a with
  | assertReset => exact absurd ha (by decide)
  | _ => exact ⟨h.commands, h.phase, h.err, h.notHeld, h.copies.congr rfl h.copies.regX⟩

/-- A pass whose commands each put out their byte. -/
theorem describesMessage_copyingPass {P : Config.Params} {mk : Byte → Instr} {p : Phase} (hp : p = .enc ∨ p = .dec)
    (hmk : ∀ b s, s.phase = p → CopiesBytes s → execWith P (mk b) s = .next ((tableSelect s).2.push b)) :
    DescribesMessage P (CopyingPass mk p) where
  quiet := fun h => ⟨h.err, h.notHeld⟩
  host := fun h => h.hostAct
  command := fun {i is bs s} h => by
    obtain ⟨b, rest, rfl, rfl, rfl⟩ := List.map_eq_cons_iff.1 h.commands.symm
    refine ⟨_, [b], rest, hmk b s h.phase h.copies, by rw [push_out, tableSelect_out], rfl, rfl, ?_, ?_, ?_,
      h.copies.tableSelect_push b⟩
    · rw [push_phase, tableSelect_phase, h.phase]
    · rw [push_err, tableSelect_err, h.err]
    · rw [push_ngenWait, tableSelect_ngenWait, h.notHeld]
  atEnd := fun h => ⟨List.map_eq_nil_iff.1 h.commands.symm, h.phase ▸ hp⟩

theorem execWith_spe_of_idle (P : Config.Params) {s : State} (h : s.phase = .idle) :
    execWith P .spe s = .next (startPass P .enc s) :=
  execWith_of_legal P (by simp [h]) (by rw [h]; rfl)

theorem execWith_spd_of_idle (P : Config.Params) {s : State} (h : s.phase = .idle) :
    execWith P .spd s = .next (startPass P .dec s) :=
  execWith_of_legal P (by simp [h]) (by rw [h]; rfl)

/-- The state a start command leaves under a seed of 0. -/
theorem copyingPass_startPass {P : Config.Params} {s : State} (hz : seedState P s.pwSeq = 0) (he : s.err = .none)
    (hw : s.ngenWait = false) (mk : Byte → Instr) (p : Phase) (data : List Byte) :
    CopyingPass mk p (data.map mk) data (startPass P p s) where
  commands := rfl
  phase := startPass_phase P p s
  err := (startPass_err P p s).trans he
  notHeld := (startPass_ngenWait P p s).trans hw
  copies := (copiesBytes_derive hz s).congr (startPass_grid P p s) ((startPass_regX P p s).trans (derive_regX_of_zero hz s))

/-- The whole message: a start command, one command for each byte and END. -/
theorem messageResult_startPass {P : Config.Params} {s : State} (hz : seedState P s.pwSeq = 0) (he : s.err = .none)
    (hw : s.ngenWait = false) {start : Instr} {mk : Byte → Instr} {p : Phase} (hK : DescribesMessage P (CopyingPass mk p))
    (hs : startsMessage start = true) (hstart : execWith P start s = .next (startPass P p s))
    {data : List Byte} {body : List Event} (hb : body.all insideMessage = true) (hc : commandsOf body = data.map mk) :
    messageResult P start body s = some data :=
  hK.messageResult (pre := []) hs hw hstart (by rw [startPass_out, List.append_nil]) hb
    (hc ▸ copyingPass_startPass hz he hw mk p data)

theorem describesMessage_encb (P : Config.Params) : DescribesMessage P (CopyingPass .encb .enc) :=
  describesMessage_copyingPass (.inl rfl) fun b s hp h => by
    rw [execWith_of_legal P (by simp [hp]) (by rw [hp]; rfl), effectOf, h.putEnc_eq]

theorem describesMessage_decb (P : Config.Params) : DescribesMessage P (CopyingPass .decb .dec) :=
  describesMessage_copyingPass (.inr rfl) fun b s hp h => by
    rw [execWith_of_legal P (by simp [hp]) (by rw [hp]; rfl), effectOf, h.decipher_eq P (by simp [hp])]

/-- Settles O39: a derivation from the seed 0 leaves a state that copies bytes, one byte keeps it so, and a message does by
its description as a copying pass. -/
theorem zeroSeedCopiesBytes : Obligations.ZeroSeedCopiesBytes := by
  intro P msg s hz
  have hdraw : prgByte (prgStep (seedState P msg)) = 0 := by rw [hz, prgStep_zero, prgByte_zero]
  have hcopy := copiesBytes_derive hz s
  refine ⟨hdraw, by rw [hdraw]; rfl, hcopy.regX, fun k n hk => derive_readByte_grid_of_zero hz s hk n,
    fun u b hg hx => ?_, fun bs => ?_, ?_⟩
  · have hu := hcopy.congr hg hx
    exact ⟨by rw [draw_of_zero hx], hu.tableSelect_fst, hu.encByte_fst b, hu.decByte_fst b,
      by rw [encByte_regX, hx, prgStep_zero], by rw [decByte_regX, hx, prgStep_zero]⟩
  · have hrun := hcopy.putEncAll_copies bs
    rwa [derive_out] at hrun
  · rintro rfl hp he hw data body hb
    exact ⟨messageResult_startPass hz he hw (describesMessage_encb P) rfl (execWith_spe_of_idle P hp) hb,
      messageResult_startPass hz he hw (describesMessage_decb P) rfl (execWith_spd_of_idle P hp) hb⟩

end Sys2Proof.Machine

/-! PROOFS. The permutation-table builder (42_gridbuilder.md): what `grid_build` writes and leaves unchanged (O36), that each
of its tables is a bijection (O37), and the key schedule of a derivation in closed form (O38). -/

namespace Sys2Proof.Machine

/-! ### The tables `grid_build` writes (42_gridbuilder.md rules R171, R174) -/

theorem setGrid_frame (s : State) (m : Memory) (x : Word64) :
    s.setGrid m x = { s with grid := (s.setGrid m x).grid, regX := (s.setGrid m x).regX } := rfl

/-- Building the grid writes GRID and X only. It is said of any grid and X first, so that nothing evaluates the loop. -/
theorem gridBuild_frame (s : State) :
    gridBuild s = { s with grid := (gridBuild s).grid, regX := (gridBuild s).regX } :=
  setGrid_frame s _ _

theorem gridBuild_read?_entry (s : State) {k n : Nat} (hk : k < 256) (hn : n < 256) :
    (gridBuild s).grid.read? (256 * k + n) = (nextPerm (tableSeed s.regX k)).1[n]? := by
  have hdiv : (256 * k + n) / 256 = k := by omega
  have hmod : (256 * k + n) % 256 = n := by omega
  rw [(gridBuild_spec s).2 _ (by omega), hdiv, hmod]

/-- Building the grid keeps what stands above the 65536 entries of GRID. -/
theorem gridBuild_grid_above (s : State) {a : Nat} (h : 65536 ≤ a) :
    (gridBuild s).readByte .grid a = s.readByte .grid a := by
  simp only [State.readByte, State.space, gridBuild_grid]
  rw [(gridLoop_spec 256 0 _).2 a, if_neg (by omega)]

/-- Every entry of a built grid is written, so reading it as a byte says the same as the entry of the permutation. -/
theorem gridBuild_readByte_eq_iff (s : State) {k n : Nat} (hk : k < 256) (hn : n < 256) (v : Byte) :
    (gridBuild s).readByte .grid (256 * k + n) = v ↔ (nextPerm (tableSeed s.regX k)).1[n]? = some v := by
  have hlt : n < (nextPerm (tableSeed s.regX k)).1.length := nextPerm_length _ ▸ hn
  rw [State.readByte, State.space, gridBuild_read?_entry s hk hn, List.getElem?_eq_getElem hlt, Option.getD_some,
    Option.some_inj]

/-- Settles O36: entries, X and frame of the grid loop. -/
theorem gridBuildWritesTheTables : Obligations.GridBuildWritesTheTables := fun s =>
  ⟨gridBuild_frame s, (gridBuild_spec s).1, fun _ _ => gridBuild_read?_entry s, fun _ => gridBuild_grid_above s⟩

/-- Settles O37: table `k` is one permutation, and a permutation is a bijection (O32). -/
theorem gridTablesAreBijections : Obligations.GridTablesAreBijections := by
  intro s k hk v
  have hsame (n : Nat) : (n < 256 ∧ (gridBuild s).readByte .grid (256 * k + n) = v) ↔
      n < 256 ∧ (nextPerm (tableSeed s.regX k)).1[n]? = some v :=
    and_congr_right fun hn => gridBuild_readByte_eq_iff s hk hn v
  exact (existsUnique_congr hsame).2 (permutationIsABijection (tableSeed s.regX k) v)

/-! ### The key schedule of a derivation (42_gridbuilder.md rules R172, R173) -/

/-- The pattern of a message is the digest from offset 4 to where `kdf` ends it. -/
theorem kdfEnd_sub_eq_patternLen (P : Config.Params) (msg : List Byte) : kdfEnd P msg - 4 = patternLen P msg := by
  rw [kdfEnd_eq, patternLen]

/-- `kdf` makes one draw before the tables are drawn. -/
theorem tableSeed_prgStep (x : Word64) (k : Nat) : tableSeed (prgStep x) k = prgStep^[1 + 256 * k] x := by
  rw [tableSeed, Nat.add_comm, Function.iterate_succ_apply]

/-- A derivation leaves the key schedule of its message, whatever the state was. -/
theorem derive_keyScheduleOf (P : Config.Params) (msg : List Byte) (s : State) :
    KeyScheduleOf P msg (derive P msg s) := by
  obtain ⟨hx, hlen, hpat, -⟩ := derive_spec P msg s
  rw [kdfEnd_sub_eq_patternLen] at hlen hpat
  refine ⟨hx, hlen, derive_pp P msg s, hpat, fun k n hk hn => ?_⟩
  rw [derive_grid_eq, gridBuild_read?_entry _ hk hn, (kdf_spec P msg s).1, tableSeed_prgStep, kdfSeed_eq_seedState]

/-- Settles O38: the key schedule in closed form; that the pattern is not empty is part of the schedule being live. -/
theorem deriveMakesTheKeySchedule : Obligations.DeriveMakesTheKeySchedule := fun P msg s =>
  ⟨by rw [derive, State.setPp], derive_keyScheduleOf P msg s, (derive_live P msg s).plen.1, derive_only P msg s⟩

end Sys2Proof.Machine

/-! PROOFS. The cipher (43_cipher.md): the table selection (O42), the commands SPE, SPD, ENCB and DECB (O40, O41, O43, O44),
that DecodeError is unreachable (O54), and the inversion of one byte (O45) and of a whole pass (O46). -/

namespace Sys2Proof.Machine

/-! ### The start commands (43_cipher.md rules R190, R191) -/

theorem startPass_eq (P : Config.Params) (p : Phase) (s : State) :
    startPass P p s = { derive P s.pwSeq s with phase := p } := by
  rw [startPass, State.setPhase]

theorem idleCommand_spe (P : Config.Params) (s : State) :
    IdleCommand (execWith P) .spe 0x3000 s { derive P s.pwSeq s with phase := .enc } :=
  idleCommand_of_idle P rfl (fun _ => rfl) (startPass_eq P .enc s ▸ execWith_spe_of_idle P)

theorem idleCommand_spd (P : Config.Params) (s : State) :
    IdleCommand (execWith P) .spd 0x3100 s { derive P s.pwSeq s with phase := .dec } :=
  idleCommand_of_idle P rfl (fun _ => rfl) (startPass_eq P .dec s ▸ execWith_spd_of_idle P)

/-- Settles O40: the state SPE leaves is a derivation's from the password, in ENC. -/
theorem speStartsAnEncryptPass : Obligations.SpeStartsAnEncryptPass :=
  ⟨fun s => ⟨derive Config.params s.pwSeq s, idleCommand_exec (idleCommand_spe _ s), derive_keyScheduleOf _ _ s,
      derive_plen_params _ s, derive_only _ _ s⟩,
    fun P s => ⟨derive P s.pwSeq s, idleCommand_spe P s, derive_keyScheduleOf _ _ s, derive_only _ _ s⟩⟩

/-- Settles O41: the derivation is the one of SPE, and the phase is DEC. -/
theorem spdStartsADecryptPass : Obligations.SpdStartsADecryptPass :=
  ⟨fun s => ⟨derive Config.params s.pwSeq s, idleCommand_exec (idleCommand_spd _ s), idleCommand_exec (idleCommand_spe _ s),
      derive_keyScheduleOf _ _ s, derive_only _ _ s⟩,
    fun P s => ⟨derive P s.pwSeq s, idleCommand_spd P s, idleCommand_spe P s, derive_keyScheduleOf _ _ s,
      derive_only _ _ s⟩⟩

/-! ### The table selection (43_cipher.md rule R181) -/

theorem ppNext_of_last {pp plen : Byte} (h : pp.toNat + 1 = plen.toNat) : ppNext pp plen = 0 := if_pos h

theorem ppNext_of_not_last {pp plen : Byte} (h : pp.toNat + 1 ≠ plen.toNat) : ppNext pp plen = pp + 1 := if_neg h

/-- A table selection changes X and PP only. -/
theorem tableSelect_snd (s : State) :
    (tableSelect s).2 = { s with regX := prgStep s.regX, pp := ppNext s.pp s.plen } := by
  apply State.ext <;> simp

theorem nextPp_eq (s : State) : nextPp s = ppNext s.pp s.plen := rfl

/-- Settles O42: the sum modulo 256 is that of two bytes, and PP moves on as its register does. -/
theorem tableSelectDrawsAndAdds : Obligations.TableSelectDrawsAndAdds := by
  refine fun s => ⟨?_, ?_, fun h => ?_, fun h => ?_, fun h => ?_⟩
  · rw [tableSelect_fst, BitVec.toNat_add]
  · rw [tableSelect_snd]
  · rw [tableSelect_pp, ppNext_of_last h]
  · rw [tableSelect_pp, ppNext_of_not_last h]
  · rw [tableSelect_pp, ppNext_eq_mod h]

/-- The table the next byte goes through is the one the selection answers. -/
theorem nextTable_eq (s : State) : nextTable s = (tableSelect s).1 := by
  refine BitVec.eq_of_toNat_eq ?_
  rw [tableSelect_fst, nextTable, BitVec.toNat_ofNat, BitVec.toNat_add]

theorem readByte_nextTable (s : State) (b : Byte) :
    s.readByte .grid (256 * (nextTable s).toNat + b.toNat) = gridAt (tableSelect s).1 b s := by
  rw [nextTable_eq, gridAt, gridAddr]

/-! ### Enciphering a byte (43_cipher.md rule R192) -/

theorem execWith_encb_of_enc (P : Config.Params) (b : Byte) {s : State} (h : s.phase = .enc) :
    execWith P (.encb b) s = .next (putEnc b s) :=
  execWith_of_legal P (by simp [h]) (by rw [h]; rfl)

/-- Settles O43: enciphering in ENC as one record, and the acceptance in the other phases. -/
theorem encbPushesTheTableEntry : Obligations.EncbPushesTheTableEntry := by
  have hword (b : Byte) : encode (.encb b) = 0x4000 + b.setWidth 16 := mkWord_eq_add 0x40 b
  refine fun b s => ⟨hword b, fun h => ?_, fun h => ?_, fun hn hf => ?_⟩ <;> rw [exec_eq_execWith]
  · rw [execWith_encb_of_enc _ b h, putEnc_eq, readByte_nextTable, nextPp_eq]
  · exact execWith_of_fault _ (by simp) h
  · have hl : legalIn (.encb b) s.phase = false := beq_eq_false_iff_ne.2 hn
    rw [execWith_of_not_legal _ hf hl, hword]

/-! ### Deciphering a byte (43_cipher.md rules R183, R193) -/

/-- The inverse lookup searches from index 0 upward, so it answers the lowest index that holds the byte. -/
theorem gridIndexOf_of_lowest {t b j : Byte} {s : State} (hj : gridAt t j s = b)
    (hlow : ∀ i : Byte, i.toNat < j.toNat → gridAt t i s ≠ b) : gridIndexOf t b s = some j := by
  cases hk : gridIndexOf t b s with
  | none => exact absurd hj (gridIndexOf_none hk j)
  | some k =>
    obtain ⟨-, before, after, hall, hbefore⟩ := List.find?_eq_some_iff_append.1 hk
    have hasc := allBytes_ascending
    have hmem := mem_allBytes j
    rw [hall] at hasc hmem
    rcases List.mem_append.1 hmem with hmem | hmem
    · exact absurd (hbefore j hmem) (by simp [hj])
    · rcases List.mem_cons.1 hmem with rfl | hmem
      · rfl
      · have hkj : k < j := (List.pairwise_cons.1 (List.pairwise_append.1 hasc).2.1).1 j hmem
        exact absurd (gridIndexOf_some hk) (hlow k (BitVec.lt_def.1 hkj))

/-- With no entry that holds the byte the inverse lookup answers none. -/
theorem gridIndexOf_of_absent {t b : Byte} {s : State} (h : ∀ j : Byte, gridAt t j s ≠ b) : gridIndexOf t b s = none := by
  cases hk : gridIndexOf t b s with
  | none => rfl
  | some k => exact absurd (gridIndexOf_some hk) (h k)

theorem putDec_of_found {b j : Byte} {s : State} (h : (decByte b s).1 = some j) :
    putDec b s = (tableSelect s).2.push j := by
  rw [putDec]
  simp only [h]
  rfl

/-- Fault entry clears X and PP, so nothing is left of a table selection before it (60_exceptions.md rule R240). -/
theorem raise_tableSelect (e : Err) (w : Word) (s : State) : raise e w (tableSelect s).2 = raise e w s := by
  rw [tableSelect_snd]; rfl

theorem putDec_of_absent {b : Byte} {s : State} (h : (decByte b s).1 = none) :
    putDec b s = raise .decodeError (byteToInfo b) s := by
  rw [putDec]
  simp only [h]
  exact raise_tableSelect _ _ s

theorem execWith_decb_of_dec (P : Config.Params) (b : Byte) {s : State} (h : s.phase = .dec) :
    execWith P (.decb b) s = .next (putDec b s) := by
  rw [execWith_of_legal P (by simp [h]) (by rw [h]; rfl), effectOf, decipher, if_neg (by simp [h])]

/-- Settles O44: the lookup finds the lowest index or nothing, and the acceptance in the other phases. -/
theorem decbPushesTheIndex : Obligations.DecbPushesTheIndex := by
  have hword (b : Byte) : encode (.decb b) = 0x4100 + b.setWidth 16 := mkWord_eq_add 0x41 b
  refine fun b s => ⟨hword b, fun h j hj hlow => ?_, fun h habsent => ?_, fun h => ?_, fun h => ?_⟩ <;>
    rw [exec_eq_execWith]
  · simp only [readByte_nextTable] at hj hlow
    have hfound : (decByte b s).1 = some j := (decByte_fst b s).trans (gridIndexOf_of_lowest hj hlow)
    rw [execWith_decb_of_dec _ b h, putDec_of_found hfound, tableSelect_snd, nextPp_eq, State.push]
  · simp only [readByte_nextTable] at habsent
    have hnone : (decByte b s).1 = none := (decByte_fst b s).trans (gridIndexOf_of_absent habsent)
    rw [execWith_decb_of_dec _ b h, putDec_of_absent hnone, byteToInfo]
  · exact execWith_of_fault _ (by simp) h
  · rw [execWith_of_not_legal _ (by rcases h with h | h <;> simp [h]) (by rcases h with h | h <;> rw [h] <;> rfl), hword]

/-! ### DecodeError is unreachable (43_cipher.md rule R185) -/

/-- On a live key schedule DECB leaves ERR as it is, and its phase, or enters DEC. -/
theorem ScheduleLive.decipher_raises_nothing {s : State} (h : ScheduleLive s) (P : Config.Params) (b : Byte) :
    (decipher P b s).err = s.err ∧ ((decipher P b s).phase = s.phase ∨ (decipher P b s).phase = .dec) := by
  obtain ⟨j, ⟨-, e⟩ | ⟨-, -, e⟩ | ⟨-, e⟩⟩ := h.decipher_cases P b <;> rw [e]
  · exact ⟨by rw [push_err, decByte_err], .inl (by rw [push_phase, decByte_phase])⟩
  · exact ⟨by rw [nonceAppend_err, decByte_err], .inl (by rw [nonceAppend_phase, decByte_phase])⟩
  · exact ⟨by rw [rederive_err, nonceAppend_err, decByte_err], .inr (rederive_phase _ _ _)⟩

/-- The invariant of a block and DECB of a block with any other parameters, of which this hardware is one. -/
theorem State.Inv.decb_raises_no_decodeError {P Q : Config.Params} {b : Byte} {s t : State} (h : s.Inv P)
    (he : execWith Q (.decb b) s = .next t) :
    t.err ≠ .decodeError ∧ (s.phase = .decn ∨ s.phase = .dec → t.phase ≠ .fault ∧ t.err = .none) := by
  rcases execWith_next_cases he with ⟨hr, -⟩ | ⟨-, hf, rfl⟩ | ⟨-, -, hl, rfl⟩ | ⟨-, hf, hl, rfl⟩
  · cases hr
  · exact ⟨h.errReach.1, fun hp => by simp [hf] at hp⟩
  · refine ⟨by rw [raise_err]; decide, fun hp => ?_⟩
    rcases hp with hp | hp <;> rw [hp] at hl <;> cases hl
  · have hlive := h.schedule (live_of_legalIn_decb hl)
    obtain ⟨herr, hphase⟩ := hlive.decipher_raises_nothing Q b
    have hnone : (decipher Q b s).err = .none := herr.trans (h.errFault.2 hf)
    have hgoes : (decipher Q b s).phase ≠ .fault := by
      rcases hphase with hp | hp <;> rw [hp]
      · exact hf
      · decide
    exact ⟨by rw [effectOf, hnone]; decide, fun _ => ⟨hgoes, hnone⟩⟩

/-- Settles O54, by what DECB can do: discard, IllegalCommand, or its effect on a live key schedule. -/
theorem decodeErrorIsUnreachable : Obligations.DecodeErrorIsUnreachable := by
  intro P b s t h he
  rcases he with he | he
  · exact h.decb_raises_no_decodeError he
  · exact h.decb_raises_no_decodeError (exec_eq_execWith _ s ▸ he)

/-! ### Two blocks in lockstep (43_cipher.md rule R184) -/

/-- `s` holds the live key schedule of `e`: the same X, PP, PLEN and pattern, and the same tables. What PAT and GRID hold
beyond them may differ. -/
structure Lockstep (e s : State) : Prop where
  live : ScheduleLive e
  regX : s.regX = e.regX
  pp : s.pp = e.pp
  plen : s.plen = e.plen
  pattern : ∀ a, a < e.plen.toNat → s.readByte .pat a = e.readByte .pat a
  grid : ∀ t b, gridAt t b s = gridAt t b e

theorem Lockstep.refl {e : State} (h : ScheduleLive e) : Lockstep e e :=
  ⟨h, rfl, rfl, rfl, fun _ _ => rfl, fun _ _ => rfl⟩

section
variable {e s : State} (h : Lockstep e s)
include h

/-- A state that differs outside the key schedule is in lockstep too. -/
theorem Lockstep.congr {t : State} (hx : t.regX = s.regX) (hpp : t.pp = s.pp) (hl : t.plen = s.plen) (hp : t.pat = s.pat)
    (hg : t.grid = s.grid) : Lockstep e t where
  live := h.live
  regX := hx.trans h.regX
  pp := hpp.trans h.pp
  plen := hl.trans h.plen
  pattern := fun a ha => (readByte_congr (sp := .pat) hp a).trans (h.pattern a ha)
  grid := fun t b => (gridAt_congr hg t b).trans (h.grid t b)

theorem Lockstep.tableSelect_fst : (tableSelect s).1 = (tableSelect e).1 := by
  rw [Machine.tableSelect_fst, Machine.tableSelect_fst, h.regX, h.pp, h.pattern _ h.live.pp]

theorem Lockstep.encByte_fst (b : Byte) : (encByte b s).1 = (encByte b e).1 := by
  rw [Machine.encByte_fst, Machine.encByte_fst, h.tableSelect_fst, h.grid]

/-- Deciphering in `s` what `e` enciphers: both select the same table, and the inverse lookup undoes the direct one. -/
theorem Lockstep.decByte_encByte (b : Byte) : (decByte (encByte b e).1 s).1 = some b := by
  rw [Machine.decByte_fst, Machine.encByte_fst, h.tableSelect_fst, ← h.live.gridIndexOf_gridAt (tableSelect e).1 b]
  simp only [gridIndexOf, h.grid]

/-- A table selection in both keeps them in lockstep, on a schedule that is still live. -/
theorem Lockstep.tableSelect : Lockstep (tableSelect e).2 (tableSelect s).2 := by
  rw [tableSelect_snd, tableSelect_snd]
  exact {
    live := h.live.congr rfl rfl rfl h.live.ppNext_lt
    regX := congrArg prgStep h.regX
    pp := congrArg₂ ppNext h.pp h.plen
    plen := h.plen
    pattern := h.pattern
    grid := h.grid }

end

/-- Settles O45: blocks that agree in the key schedule are in lockstep, and a byte keeps each of the five fields equal. -/
theorem lockstepInversion : Obligations.LockstepInversion := by
  intro s1 s2 b hlive hx hpp hl hp hg
  have h : Lockstep s1 s2 := (Lockstep.refl hlive).congr hx hpp hl hp hg
  refine ⟨h.decByte_encByte b, ?_, ?_, ?_, ?_, ?_, h.tableSelect.live⟩
  · rw [decByte_regX, encByte_regX, hx]
  · rw [decByte_pp, encByte_pp, hpp, hl]
  · rw [decByte_plen, encByte_plen, hl]
  · rw [decByte_pat, encByte_pat, hp]
  · rw [decByte_grid, encByte_grid, hg]

/-! ### Whole passes (43_cipher.md rules R180, R188) -/

/-- The bytes of a pass from `e` on, each with the byte it is enciphered to. -/
def cipherPairs : List Byte → State → List (Byte × Byte)
  | [], _ => []
  | b :: bs, e => (b, (encByte b e).1) :: cipherPairs bs (encByte b e).2

theorem cipherPairs_fst (bs : List Byte) (e : State) : (cipherPairs bs e).map Prod.fst = bs := by
  induction bs generalizing e with
  | nil => rfl
  | cons b bs ih => rw [cipherPairs, List.map_cons, ih]

theorem cipherPairs_length (bs : List Byte) (e : State) : (cipherPairs bs e).length = bs.length := by
  rw [← List.length_map (f := Prod.fst), cipherPairs_fst]

/-- A block in phase `p`, without an error, in lockstep with `e`. -/
structure PassState (p : Phase) (e s : State) : Prop where
  phase : s.phase = p
  err : s.err = .none
  notHeld : s.ngenWait = false
  lockstep : Lockstep e s

/-- A pass in lockstep with an enciphering of `bs` from `e`: for each byte the command `mk` of one half of its pair is to
come, and puts out the other. Enciphering takes the first half, deciphering the second. -/
def CipherPass (mk : Byte → Instr) (takes puts : Byte × Byte → Byte) (p : Phase) (is : List Instr) (out : List Byte)
    (s : State) : Prop :=
  ∃ e bs, PassState p e s ∧ is = ((cipherPairs bs e).map takes).map mk ∧ out = (cipherPairs bs e).map puts

/-- The host's actions but the reset input write OUT, the command port and the source only. -/
theorem PassState.hostAct {p : Phase} {e s : State} (h : PassState p e s) {a : HostAction}
    (ha : insideMessage (.host a) = true) : PassState p e (hostAct a s).2 := by
  cases a with
  | assertReset => exact absurd ha (by decide)
  | _ => exact ⟨h.phase, h.err, h.notHeld, h.lockstep.congr rfl rfl rfl rfl rfl⟩

theorem PassState.tableSelect_push {p : Phase} {e s : State} (h : PassState p e s) (c : Byte) :
    PassState p (tableSelect e).2 ((tableSelect s).2.push c) where
  phase := by rw [push_phase, tableSelect_phase, h.phase]
  err := by rw [push_err, tableSelect_err, h.err]
  notHeld := by rw [push_ngenWait, tableSelect_ngenWait, h.notHeld]
  lockstep := h.lockstep.tableSelect.congr rfl rfl rfl rfl rfl

/-- A pass is described byte by byte when its command takes one half of the next pair and puts the other out. -/
theorem describesMessage_cipherPass {P : Config.Params} {mk : Byte → Instr} {takes puts : Byte × Byte → Byte} {p : Phase}
    (hp : p = .enc ∨ p = .dec)
    (hmk : ∀ b e s, PassState p e s →
      execWith P (mk (takes (b, (encByte b e).1))) s = .next ((tableSelect s).2.push (puts (b, (encByte b e).1)))) :
    DescribesMessage P (CipherPass mk takes puts p) where
  quiet := fun ⟨_, _, h, _⟩ => ⟨h.err, h.notHeld⟩
  host := fun ⟨e, bs, h, hk⟩ ha => ⟨e, bs, h.hostAct ha, hk⟩
  command := fun {i is out s} ⟨e, bs, h, his, hout⟩ => by
    cases bs with
    | nil => cases his
    | cons b bs =>
      obtain ⟨rfl, rfl⟩ := List.cons_eq_cons.1 his
      exact ⟨_, [puts (b, (encByte b e).1)], (cipherPairs bs (encByte b e).2).map puts, hmk b e s h,
        by rw [push_out, tableSelect_out], hout, (encByte b e).2, bs, h.tableSelect_push _, rfl, rfl⟩
  atEnd := fun {out s} ⟨e, bs, h, his, hout⟩ => by
    have hnil : cipherPairs bs e = [] := List.map_eq_nil_iff.1 (List.map_eq_nil_iff.1 his.symm)
    exact ⟨by rw [hout, hnil, List.map_nil], h.phase ▸ hp⟩

theorem describesMessage_encryptPass (P : Config.Params) :
    DescribesMessage P (CipherPass .encb Prod.fst Prod.snd .enc) :=
  describesMessage_cipherPass (.inl rfl) fun b e s h => by
    rw [execWith_encb_of_enc P b h.phase, putEnc, h.lockstep.encByte_fst, encByte]

theorem describesMessage_decryptPass (P : Config.Params) :
    DescribesMessage P (CipherPass .decb Prod.snd Prod.fst .dec) :=
  describesMessage_cipherPass (.inr rfl) fun b e s h => by
    rw [execWith_decb_of_dec P _ h.phase, putDec_of_found (h.lockstep.decByte_encByte b)]

theorem gridAddr_lt (t b : Byte) : gridAddr t.toNat b.toNat < 65536 := by
  have := t.isLt
  have := b.isLt
  rw [gridAddr]
  omega

/-- Two derivations from one message are in lockstep, whatever the states before (42_gridbuilder.md rule R172). -/
theorem lockstep_derive (P : Config.Params) (msg : List Byte) (e s : State) :
    Lockstep (derive P msg e) (derive P msg s) := by
  obtain ⟨hex, hel, hep, heg⟩ := derive_spec P msg e
  obtain ⟨hsx, hsl, hsp, hsg⟩ := derive_spec P msg s
  refine ⟨derive_live P msg e, hsx.trans hex.symm, (derive_pp P msg s).trans (derive_pp P msg e).symm,
    BitVec.eq_of_toNat_eq (hsl.trans hel.symm), fun a ha => ?_, fun t b => ?_⟩
  · rw [hel] at ha
    simp only [State.readByte, State.space, hsp a ha, hep a ha]
  · have haddr := gridAddr_lt t b
    simp only [gridAt, State.readByte, State.space, hsg _ haddr, heg _ haddr]

theorem passState_startPass {P : Config.Params} {e s : State} (p : Phase) (hpw : e.pwSeq = s.pwSeq) (he : s.err = .none)
    (hw : s.ngenWait = false) : PassState p (derive P e.pwSeq e) (startPass P p s) where
  phase := startPass_phase P p s
  err := (startPass_err P p s).trans he
  notHeld := (startPass_ngenWait P p s).trans hw
  lockstep := hpw ▸ (lockstep_derive P s.pwSeq e s).congr (startPass_regX P p s)
    ((startPass_pp P p s).trans (derive_pp P s.pwSeq s).symm) (startPass_plen P p s) (startPass_pat P p s)
    (startPass_grid P p s)

/-- Settles O46: both passes are in lockstep with the derivation in `s1`, one taking the bytes and putting their enciphered
bytes out, the other the reverse. -/
theorem passRoundTrip : Obligations.PassRoundTrip := by
  intro P s1 s2 data body1 hp1 he1 hw1 hp2 he2 hw2 hpw hb1 hc1
  refine ⟨(cipherPairs data (derive P s1.pwSeq s1)).map Prod.snd, ?_, ?_, fun body2 hb2 hc2 => ?_⟩
  · exact (describesMessage_encryptPass P).messageResult (pre := []) rfl hw1 (execWith_spe_of_idle P hp1)
      (by rw [startPass_out, List.append_nil]) hb1
      ⟨_, data, passState_startPass .enc rfl he1 hw1, by rw [hc1, cipherPairs_fst], rfl⟩
  · rw [List.length_map, cipherPairs_length]
  · exact (describesMessage_decryptPass P).messageResult (pre := []) rfl hw2 (execWith_spd_of_idle P hp2)
      (by rw [startPass_out, List.append_nil]) hb2
      ⟨_, data, passState_startPass .dec hpw he2 hw2, hc2, (cipherPairs_fst data _).symm⟩

end Sys2Proof.Machine

/-! PROOFS. The nonce and the messages (44_nonce_message.md): loading a nonce (O18, O19, O20), the nonce pass and the
re-derivation of ENCM (O47), DECM and the nonce pass of DECB (O48, O49), and the round trip of a message (O50). -/

namespace Sys2Proof.Machine

/-! ### Loading the nonce (44_nonce_message.md rules R200 to R202) -/

/-- A command legal in IDLE is performed there. -/
theorem execWith_of_idle (P : Config.Params) {i : Instr} {s : State} (hl : legalIn i .idle = true) (h : s.phase = .idle) :
    execWith P i s = .next (effectOf P i s) :=
  execWith_of_legal P (by simp [h]) (by rw [h, hl])

/-- A command legal in IDLE only has its effect there. -/
theorem idleCommand_effectOf (P : Config.Params) {i : Instr} {w : Word} (hw : encode i = w)
    (hl : ∀ p, legalIn i p = (p == .idle)) (s : State) : IdleCommand (execWith P) i w s (effectOf P i s) :=
  idleCommand_of_idle P hw hl (execWith_of_idle P (hl .idle))

/-- Settles O18: NLEN alone is written. -/
theorem nclrEmptiesTheNonce : Obligations.NclrEmptiesTheNonce := fun s =>
  idleCommand_exec (idleCommand_effectOf Config.params (i := .nclr) rfl (fun _ => rfl) s)

theorem noncePush_of_room {s : State} (h : s.nlen.toNat < 128) (b : Byte) : noncePush b s = nonceAppend b s := if_pos h

theorem noncePush_of_full {s : State} (h : 128 ≤ s.nlen.toNat) (b : Byte) : noncePush b s = s.setNlen 129 :=
  if_neg (Nat.not_lt.2 h)

theorem nonceAppend_readByte (b : Byte) (s : State) (a : Nat) :
    (nonceAppend b s).readByte .nonce a = if a = s.nlen.toNat then b else s.readByte .nonce a := by
  simp only [State.readByte, State.space, nonceAppend_nonce, read?_write]
  split_ifs <;> rfl

/-- One nonce byte more is one byte more at the end of the run. -/
theorem nonceAppend_readRun (b : Byte) (s : State) :
    (nonceAppend b s).readRun .nonce (s.nlen.toNat + 1) = s.readRun .nonce s.nlen.toNat ++ [b] := by
  have hold : (nonceAppend b s).readRun .nonce s.nlen.toNat = s.readRun .nonce s.nlen.toNat :=
    readRun_congr fun a ha => by rw [nonceAppend_readByte, if_neg ha.ne]
  have hnew : (nonceAppend b s).readByte .nonce s.nlen.toNat = b := by rw [nonceAppend_readByte, if_pos rfl]
  rw [← hold, State.readRun, List.range_succ, List.map_append, List.map_singleton, hnew, State.readRun]

/-- Settles O19, by whether there is room for the byte. -/
theorem npushAppendsOrSaturates : Obligations.NpushAppendsOrSaturates := by
  refine fun b s => ⟨noncePush b s,
    idleCommand_exec (idleCommand_effectOf _ (i := .npush b) (mkWord_eq_add 0x13 b) (fun _ => rfl) s), fun h => ?_, fun h => ?_⟩
  · rw [noncePush_of_room h]
    exact ⟨rfl, by rw [nonceAppend_nlen, nlen_succ h], by rw [nonceAppend_readByte, if_pos rfl],
      fun a ha => by rw [nonceAppend_readByte, if_neg ha]⟩
  · rw [noncePush_of_full h, State.setNlen]

/-- Settles O20: a source that delivers gives the 128 bytes at once. -/
theorem ngenFillsTheNonce : Obligations.NgenFillsTheNonce := by
  refine fun s hp hr => ⟨nonceDraw s, (exec_eq_execWith _ s).trans (execWith_ngen_of_idle _ hp), ?_, fun i hi => ?_,
    fun a ha => ?_⟩
  · rw [nonceDraw_of_on hr]
  · rw [nonceDraw_readByte hr, if_pos hi]
  · rw [nonceDraw_readByte hr, if_neg (Nat.not_lt.2 ha)]

/-! ### ENCM (44_nonce_message.md rules R204, R205) -/

theorem encMessage_short {P : Config.Params} {s : State} (h : s.nlen.toNat ≠ 128) :
    encMessage P s = raise .invalidNonceLength (byteToInfo s.nlen) s := if_neg h

/-- A pass that enciphers moves X and PP and writes OUT. -/
theorem putEncAll_frame {bs : List Byte} {s : State} (h : s.pp.toNat < s.plen.toNat) :
    putEncAll bs s =
      { s with regX := (putEncAll bs s).regX, pp := (putEncAll bs s).pp, out := (putEncAll bs s).out } := by
  rw [putEncAll_spec bs s h]

/-- What the nonce pass puts out: byte `i` of NONCE through the table that the pattern byte at `i` modulo PLEN and draw
`i + 1` select. -/
theorem putEncAll_nonceSeq_out {k : State} (hk : ScheduleLive k) (hpp : k.pp = 0) :
    (putEncAll k.nonceSeq k).out = k.out ++ (List.range 128).map (fun i =>
      k.readByte .grid
        (256 * ((k.readByte .pat (i % k.plen.toNat)).toNat + (prgByte (prgStep^[i + 1] k.regX)).toNat) % 65536
          + (k.readByte .nonce i).toNat)) := by
  have hpp0 : k.pp.toNat = 0 := by rw [hpp]; rfl
  rw [putEncAll_spec _ k hk.pp, nonceSeq_length]
  refine congrArg (k.out ++ ·) (List.map_congr_left fun i hi => ?_)
  rw [hpp0, Nat.zero_add, nonceSeq_getD (List.mem_range.1 hi), gridAt, gridAddr_add]

/-- A derivation to `k` and a pass from `k` to `u` keep the password and the nonce. -/
theorem OnlySchedule.pwSeq_nonceSeq {s k u : State} (hk : OnlySchedule s k)
    (hu : u = { k with regX := u.regX, pp := u.pp, out := u.out }) : u.pwSeq ++ u.nonceSeq = s.pwSeq ++ s.nonceSeq :=
  congrArg₂ _ (pwSeq_congr (by rw [hu, hk.fields]) (by rw [hu, hk.fields])) (nonceSeq_congr (by rw [hu, hk.fields]))

/-- A key schedule is five fields. -/
theorem KeyScheduleOf.setOut {P : Config.Params} {msg : List Byte} {d : State} (h : KeyScheduleOf P msg d)
    (bytes : List Byte) : KeyScheduleOf P msg { d with out := bytes } :=
  ⟨h.regX, h.plen, h.pp, h.pattern, h.tables⟩

/-- A derivation to `k`, a pass from `k` to `u`, and a derivation to `d`: but for OUT nothing changed save the key
schedule. -/
theorem OnlySchedule.onlyTwoSchedules {s k u d : State} (hk : OnlySchedule s k)
    (hu : u = { k with regX := u.regX, pp := u.pp, out := u.out }) (hd : OnlySchedule u d) :
    OnlyTwoSchedules s k { d with out := s.out } := by
  have hpat (a : Nat) : u.readByte .pat a = k.readByte .pat a := readByte_congr (by rw [hu]; rfl) a
  have hgrid (a : Nat) : u.readByte .grid a = k.readByte .grid a := readByte_congr (by rw [hu]; rfl) a
  refine ⟨?_, fun a ha _ => (hd.pat a ha).trans (hpat a), fun a ha => ?_, fun a ha => ?_⟩
  · rw [hd.fields, hu, hk.fields]
  · exact ((hd.pat a (le_of_max_le_right ha)).trans (hpat a)).trans (hk.pat a (le_of_max_le_left ha))
  · exact ((hd.grid a ha).trans (hgrid a)).trans (hk.grid a ha)

/-- With both patterns of one length nothing of the first is left above the second. -/
theorem OnlyTwoSchedules.onlySchedule {s k t : State} (h : OnlyTwoSchedules s k t) (hl : k.plen = t.plen) :
    OnlySchedule s t :=
  ⟨h.fields, fun a ha => h.pat a (by rw [hl, max_self]; exact ha), h.grid⟩

/-- Writing to OUT the bytes it holds undoes any write to it before. -/
theorem setOut_setOut_eq {d : State} {now : List Byte} (h : d.out = now) (before : List Byte) (p : Phase) :
    ({ { d with out := before } with out := now, phase := p } : State) = { d with phase := p } := by
  rw [← h]

theorem rederive_eq (P : Config.Params) (p : Phase) (s : State) :
    rederive P p s = { derive P (s.pwSeq ++ s.nonceSeq) s with phase := p } := by
  rw [rederive, State.setPhase]

/-- The nonce pass from `k` on and the re-derivation that follows it, whatever `k` was derived from. -/
theorem rederive_putEncAll_spec (P : Config.Params) {s k : State} (hk : OnlySchedule s k) (hlive : ScheduleLive k) :
    ∃ t,
    rederive P .enc (putEncAll k.nonceSeq k) = { t with out := (putEncAll k.nonceSeq k).out, phase := .enc } ∧
    KeyScheduleOf P (s.pwSeq ++ s.nonceSeq) t ∧ OnlyTwoSchedules s k t := by
  have hu := putEncAll_frame (bs := k.nonceSeq) hlive.pp
  generalize putEncAll k.nonceSeq k = u at hu ⊢
  rw [rederive_eq, hk.pwSeq_nonceSeq hu]
  exact ⟨{ derive P (s.pwSeq ++ s.nonceSeq) u with out := s.out }, (setOut_setOut_eq (derive_out _ _ u) _ _).symm,
    (derive_keyScheduleOf P _ u).setOut _, hk.onlyTwoSchedules hu (derive_only P _ u)⟩

/-- ENCM with a full nonce, in a block with any parameters. -/
theorem execWith_encm_spec (P : Config.Params) {s : State} (hp : s.phase = .idle) (hn : s.nlen.toNat = 128) :
    ∃ k t, KeyScheduleOf P s.pwSeq k ∧
      execWith P .encm s = .next { t with
        out := s.out ++ (List.range 128).map (fun i =>
          k.readByte .grid
            (256 * ((k.readByte .pat (i % k.plen.toNat)).toNat + (prgByte (prgStep^[i + 1] k.regX)).toNat) % 65536
              + (s.readByte .nonce i).toNat)),
        phase := .enc } ∧
      KeyScheduleOf P (s.pwSeq ++ s.nonceSeq) t ∧ OnlyTwoSchedules s k t := by
  have hexec := execWith_of_idle P (i := .encm) rfl hp
  have hlive := derive_live P s.pwSeq s
  have hsched := derive_keyScheduleOf P s.pwSeq s
  have honly := derive_only P s.pwSeq s
  rw [effectOf, encMessage_long hn] at hexec
  generalize derive P s.pwSeq s = k at hexec hlive hsched honly
  have hnonce : k.nonce = s.nonce := by rw [honly.fields]
  have hout : k.out = s.out := by rw [honly.fields]
  have hread (i : Nat) : k.readByte .nonce i = s.readByte .nonce i := readByte_congr (sp := .nonce) hnonce i
  obtain ⟨t, ht, hsched', honly'⟩ := rederive_putEncAll_spec P honly hlive
  rw [putEncAll_nonceSeq_out hlive hsched.pp] at ht
  simp only [nonceSeq_congr hnonce, hout, hread] at ht
  exact ⟨k, t, hsched, hexec.trans (congrArg _ ht), hsched', honly'⟩

/-- On this hardware every key schedule has a pattern of 60 bytes (41_keyderiv.md rule R156). -/
theorem KeyScheduleOf.plen_params {msg : List Byte} {t : State} (h : KeyScheduleOf Config.params msg t) :
    t.plen.toNat = 60 := by
  rw [h.plen, ← kdfEnd_sub_eq_patternLen, kdfEnd_params]

theorem execWith_encm_of_short (P : Config.Params) {s : State} (hp : s.phase = .idle) (hn : s.nlen.toNat ≠ 128) :
    execWith P .encm s = .next (raise .invalidNonceLength (s.nlen.setWidth 16) s) := by
  rw [execWith_of_idle P rfl hp, effectOf, encMessage_short hn, byteToInfo]

theorem execWith_encm_of_not_idle (P : Config.Params) {s : State} (hi : s.phase ≠ .idle) (hf : s.phase ≠ .fault) :
    execWith P .encm s = .next (raise .illegalCommand 0x3200 s) :=
  execWith_of_not_legal P hf (beq_eq_false_iff_ne.2 hi)

/-- Settles O47: the general case, and on this hardware with both patterns 60 long. -/
theorem encmEnciphersTheNonceAndRederives : Obligations.EncmEnciphersTheNonceAndRederives := by
  refine ⟨rfl, fun s => ?_, fun P s => ⟨execWith_encm_of_short P, execWith_encm_spec P,
    execWith_of_fault P (by decide), execWith_encm_of_not_idle P⟩⟩
  rw [exec_eq_execWith]
  refine ⟨execWith_encm_of_short _, fun hp hn => ?_, execWith_of_fault _ (by decide), execWith_encm_of_not_idle _⟩
  obtain ⟨k, t, hk, hexec, ht, honly⟩ := execWith_encm_spec Config.params hp hn
  rw [hk.plen_params] at hexec
  exact ⟨k, t, hk, hexec, ht,
    honly.onlySchedule (BitVec.eq_of_toNat_eq (hk.plen_params.trans ht.plen_params.symm))⟩

/-! ### DECM and the nonce pass of DECB (44_nonce_message.md rules R206, R207) -/

/-- Said of any state, so that nothing evaluates the derivation. -/
theorem setPhase_setNlen_eq (t : State) (p : Phase) (n : Byte) :
    (t.setPhase p).setNlen n = { t with nlen := n, phase := p } := rfl

theorem decMessage_eq (P : Config.Params) (s : State) :
    decMessage P s = { derive P s.pwSeq s with nlen := 0, phase := .decn } := by
  rw [decMessage, startPass, setPhase_setNlen_eq]

theorem decMessage_nlen (P : Config.Params) (s : State) : (decMessage P s).nlen.toNat = 0 := by
  rw [decMessage, setNlen_nlen]
  rfl

theorem decMessage_pwSeq (P : Config.Params) (s : State) : (decMessage P s).pwSeq = s.pwSeq :=
  pwSeq_congr (by rw [decMessage, setNlen_pw, startPass_pw]) (by rw [decMessage, setNlen_pwlen, startPass_pwlen])

theorem idleCommand_decm (P : Config.Params) (s : State) :
    IdleCommand (execWith P) .decm 0x3300 s { derive P s.pwSeq s with nlen := 0, phase := .decn } :=
  decMessage_eq P s ▸ idleCommand_effectOf P rfl (fun _ => rfl) s

/-- Settles O48: the state DECM leaves is a derivation's from the password, in DECN and with NLEN 0. -/
theorem decmStartsTheNoncePass : Obligations.DecmStartsTheNoncePass :=
  ⟨fun s => ⟨derive Config.params s.pwSeq s, idleCommand_exec (idleCommand_decm _ s), derive_keyScheduleOf _ _ s,
      derive_only _ _ s⟩,
    fun P s => ⟨derive P s.pwSeq s, idleCommand_decm P s, derive_keyScheduleOf _ _ s, derive_only _ _ s⟩⟩

/-- The state in which a table has been selected and the byte found in it stands in NONCE. -/
def nonceKept (j : Byte) (s : State) : State := nonceAppend j (tableSelect s).2

theorem nonceKept_eq (j : Byte) (s : State) :
    nonceKept j s = { s with
      regX := prgStep s.regX, pp := nextPp s, nonce := (nonceKept j s).nonce, nlen := s.nlen + 1 } := by
  rw [nonceKept, tableSelect_snd]
  rfl

theorem nonceKept_nlen {s : State} (j : Byte) (h : s.nlen.toNat < 128) :
    (nonceKept j s).nlen.toNat = s.nlen.toNat + 1 := by
  rw [nonceKept_eq, nlen_succ h]

theorem nonceKept_pwSeq (j : Byte) (s : State) : (nonceKept j s).pwSeq = s.pwSeq :=
  pwSeq_congr (by rw [nonceKept_eq]) (by rw [nonceKept_eq])

theorem nonceKept_readByte (j : Byte) (s : State) (a : Nat) :
    (nonceKept j s).readByte .nonce a = if a = s.nlen.toNat then j else s.readByte .nonce a := by
  rw [nonceKept, nonceAppend_readByte, tableSelect_nlen, readByte_congr (sp := .nonce) (tableSelect_nonce s)]

theorem nonceKept_readRun (j : Byte) (s : State) :
    (nonceKept j s).readRun .nonce (s.nlen.toNat + 1) = s.readRun .nonce s.nlen.toNat ++ [j] := by
  have hrun := nonceAppend_readRun j (tableSelect s).2
  rw [tableSelect_nlen] at hrun
  rw [nonceKept, hrun, readRun_congr fun a _ => readByte_congr (sp := .nonce) (tableSelect_nonce s) a]

theorem execWith_decb_of_decn (P : Config.Params) (b : Byte) {s : State} (h : s.phase = .decn) :
    execWith P (.decb b) s = .next (nonceDec P b s) := by
  rw [execWith_of_legal P (by simp [h]) (by rw [h]; rfl), effectOf, decipher, if_pos h]

section
variable {b j : Byte} {s : State} (P : Config.Params) (hp : s.phase = .decn) (hj : (decByte b s).1 = some j)
include hp hj

/-- A nonce byte that is not the 128th. -/
theorem execWith_decb_of_more (hn : s.nlen.toNat < 127) : execWith P (.decb b) s = .next (nonceKept j s) := by
  have hlen := nonceKept_nlen (s := s) j (by omega)
  have hmore : ¬ (nonceKept j s).nlen.toNat = Config.nonceLen := by
    rw [hlen, Config.nonceLen]; omega
  rw [execWith_decb_of_decn P b hp, nonceDec]
  simp only [hj]
  exact congrArg _ (if_neg hmore)

/-- The 128th nonce byte. -/
theorem execWith_decb_of_last (hn : s.nlen.toNat = 127) :
    execWith P (.decb b) s = .next (rederive P .dec (nonceKept j s)) := by
  have hlen := nonceKept_nlen (s := s) j (by omega)
  have hlast : (nonceKept j s).nlen.toNat = Config.nonceLen := by rw [hlen, hn]
  rw [execWith_decb_of_decn P b hp, nonceDec]
  simp only [hj]
  exact congrArg _ (if_pos hlast)

end

theorem execWith_decb_of_absent (P : Config.Params) {b : Byte} {s : State} (hp : s.phase = .decn)
    (hj : (decByte b s).1 = none) : execWith P (.decb b) s = .next (raise .decodeError (b.setWidth 16) s) := by
  rw [execWith_decb_of_decn P b hp, nonceDec]
  simp only [hj]
  exact congrArg _ (raise_tableSelect _ _ s)

/-- The re-derivation of the 128th nonce byte, in a block with any parameters. -/
theorem execWith_decb_of_last_spec (P : Config.Params) {b j : Byte} {s : State} (hp : s.phase = .decn)
    (hj : (decByte b s).1 = some j) (hn : s.nlen.toNat = 127) :
    ∃ t, execWith P (.decb b) s = .next { t with phase := .dec } ∧
      KeyScheduleOf P (s.pwSeq ++ (nonceKept j s).nonceSeq) t ∧ OnlySchedule (nonceKept j s) t := by
  refine ⟨derive P (s.pwSeq ++ (nonceKept j s).nonceSeq) (nonceKept j s), ?_, derive_keyScheduleOf _ _ _, derive_only _ _ _⟩
  rw [execWith_decb_of_last P hp hj hn, rederive_eq, nonceKept_pwSeq]

/-- Settles O49: the lookup finds the lowest index or nothing, and the byte is the 128th or not. -/
theorem decbCollectsTheNonce : Obligations.DecbCollectsTheNonce := by
  intro b s hp hlt
  simp only [readByte_nextTable, exec_eq_execWith]
  refine ⟨fun j hj hlow => ?_, fun habsent => ?_⟩
  · have hfound : (decByte b s).1 = some j := (decByte_fst b s).trans (gridIndexOf_of_lowest hj hlow)
    exact ⟨nonceKept j s, nonceKept_eq j s, by rw [nonceKept_readByte, if_pos rfl],
      fun a ha => by rw [nonceKept_readByte, if_neg ha],
      fun hn => ⟨execWith_decb_of_more _ hp hfound hn, fun P => execWith_decb_of_more P hp hfound hn⟩,
      fun hn => ⟨execWith_decb_of_last_spec _ hp hfound hn, fun P => execWith_decb_of_last_spec P hp hfound hn⟩⟩
  · have hnone : (decByte b s).1 = none := (decByte_fst b s).trans (gridIndexOf_of_absent habsent)
    exact ⟨execWith_decb_of_absent _ hp hnone, fun P => execWith_decb_of_absent P hp hnone⟩

/-! ### The round trip of a message (44_nonce_message.md rules R205, R210) -/

/-- A run of bytes enciphered in lockstep with `e` puts out the second half of each pair. -/
theorem Lockstep.putEncAll_out {e s : State} (h : Lockstep e s) (bs : List Byte) :
    (putEncAll bs s).out = s.out ++ (cipherPairs bs e).map Prod.snd := by
  induction bs generalizing e s with
  | nil => exact (List.append_nil _).symm
  | cons b bs ih =>
    have hnext : Lockstep (encByte b e).2 (putEnc b s) := h.tableSelect.congr rfl rfl rfl rfl rfl
    rw [putEncAll, ih hnext, putEnc_out, h.encByte_fst, cipherPairs, List.map_cons, List.append_assoc,
      List.singleton_append]

/-- ENCM puts out the nonce enciphered as in a pass from the password's key schedule. -/
theorem encMessage_out {P : Config.Params} {s : State} (hn : s.nlen.toNat = 128) :
    (encMessage P s).out = s.out ++ (cipherPairs s.nonceSeq (derive P s.pwSeq s)).map Prod.snd := by
  rw [encMessage_long hn, rederive_out, (Lockstep.refl (derive_live P s.pwSeq s)).putEncAll_out, derive_out]

/-- A re-derivation from the message of `d` starts a pass in lockstep with `d`. -/
theorem passState_rederive {P : Config.Params} {msg : List Byte} {d s : State} (p : Phase)
    (hd : ∀ u, Lockstep d (derive P msg u)) (hmsg : s.pwSeq ++ s.nonceSeq = msg) (he : s.err = .none)
    (hw : s.ngenWait = false) : PassState p d (rederive P p s) where
  phase := rederive_phase P p s
  err := (rederive_err P p s).trans he
  notHeld := (rederive_ngenWait P p s).trans hw
  lockstep := (hmsg ▸ hd s).congr (rederive_regX P p s)
    ((rederive_pp P p s).trans (derive_pp P (s.pwSeq ++ s.nonceSeq) s).symm) (rederive_plen P p s) (rederive_pat P p s)
    (rederive_grid P p s)

/-- A block in DECN, in lockstep with `e`: the nonce bytes `ns` are to come, at least one, and with the password and the
nonce bytes that have come they make up `msg`, the password followed by the nonce. -/
structure NonceToCome (msg : List Byte) (e : State) (ns : List Byte) (s : State) : Prop where
  pass : PassState .decn e s
  pending : ns ≠ []
  count : s.nlen.toNat + ns.length = 128
  message : s.pwSeq ++ (s.readRun .nonce s.nlen.toNat ++ ns) = msg

/-- The host's actions but the reset input write OUT, the command port and the source only. -/
theorem NonceToCome.hostAct {msg : List Byte} {e : State} {ns : List Byte} {s : State} (h : NonceToCome msg e ns s)
    {a : HostAction} (ha : insideMessage (.host a) = true) : NonceToCome msg e ns (hostAct a s).2 := by
  cases a with
  | assertReset => exact absurd ha (by decide)
  | _ => exact ⟨h.pass.hostAct ha, h.pending, h.count, h.message⟩

/-- A nonce byte that is not the last: one byte fewer is to come. -/
theorem NonceToCome.more {msg : List Byte} {e : State} {b : Byte} {ns : List Byte} {s : State}
    (h : NonceToCome msg e (b :: ns) s) (hns : ns ≠ []) : NonceToCome msg (encByte b e).2 ns (nonceKept b s) := by
  have hcount := h.count
  rw [List.length_cons] at hcount
  have hlen := nonceKept_nlen (s := s) b (by omega)
  refine ⟨⟨?_, ?_, ?_, h.pass.lockstep.tableSelect.congr rfl rfl rfl rfl rfl⟩, hns, by omega, ?_⟩
  · rw [nonceKept_eq, h.pass.phase]
  · rw [nonceKept_eq, h.pass.err]
  · rw [nonceKept_eq, h.pass.notHeld]
  · rw [hlen, nonceKept_pwSeq, nonceKept_readRun, List.append_assoc, List.singleton_append, h.message]

/-- The last nonce byte completes the message. -/
theorem NonceToCome.last {msg : List Byte} {e : State} {b : Byte} {s : State} (h : NonceToCome msg e [b] s) :
    s.nlen.toNat = 127 ∧ (nonceKept b s).pwSeq ++ (nonceKept b s).nonceSeq = msg := by
  have hn : s.nlen.toNat = 127 := Nat.succ.inj h.count
  have hrun := nonceKept_readRun b s
  have hmsg := h.message
  rw [← hrun, hn] at hmsg
  exact ⟨hn, nonceKept_pwSeq b s ▸ hmsg⟩

/-- A message in decryption, where `d` holds the key schedule of password and nonce: in DECN the enciphered nonce bytes
`ns` and then the enciphered `data` are to come, in DEC it is a pass. -/
def DecryptMessage (msg data : List Byte) (d : State) (is : List Instr) (out : List Byte) (s : State) : Prop :=
  CipherPass .decb Prod.snd Prod.fst .dec is out s ∨
  ∃ e ns, NonceToCome msg e ns s ∧
    is = ((cipherPairs ns e).map Prod.snd ++ (cipherPairs data d).map Prod.snd).map .decb ∧ out = data

/-- A nonce byte puts nothing out, and the last one begins the pass over the data. -/
theorem NonceToCome.decb {P : Config.Params} {msg data : List Byte} {d e : State} {b : Byte} {ns : List Byte} {s : State}
    (hd : ∀ u, Lockstep d (derive P msg u)) (h : NonceToCome msg e (b :: ns) s) :
    ∃ t, execWith P (.decb (encByte b e).1) s = .next t ∧ t.out = s.out ∧ DecryptMessage msg data d
      (((cipherPairs ns (encByte b e).2).map Prod.snd ++ (cipherPairs data d).map Prod.snd).map .decb) data t := by
  have hfound := h.pass.lockstep.decByte_encByte b
  have hout : (nonceKept b s).out = s.out := by rw [nonceKept_eq]
  cases ns with
  | nil =>
    obtain ⟨hn, hmsg⟩ := h.last
    have hpass : PassState .dec d (rederive P .dec (nonceKept b s)) :=
      passState_rederive .dec hd hmsg (by rw [nonceKept_eq, h.pass.err]) (by rw [nonceKept_eq, h.pass.notHeld])
    exact ⟨_, execWith_decb_of_last P h.pass.phase hfound hn, (rederive_out _ _ _).trans hout,
      .inl ⟨d, data, hpass, rfl, (cipherPairs_fst data d).symm⟩⟩
  | cons c cs =>
    have hcount := h.count
    rw [List.length_cons, List.length_cons] at hcount
    exact ⟨_, execWith_decb_of_more P h.pass.phase hfound (by omega), hout,
      .inr ⟨_, _, h.more (List.cons_ne_nil c cs), rfl, rfl⟩⟩

theorem describesMessage_decryptMessage {P : Config.Params} {msg data : List Byte} {d : State}
    (hd : ∀ u, Lockstep d (derive P msg u)) : DescribesMessage P (DecryptMessage msg data d) where
  quiet := by
    rintro is out s (h | ⟨e, ns, h, -⟩)
    · exact (describesMessage_decryptPass P).quiet h
    · exact ⟨h.pass.err, h.pass.notHeld⟩
  host := by
    rintro is out s a (h | ⟨e, ns, h, his⟩) ha
    · exact .inl ((describesMessage_decryptPass P).host h ha)
    · exact .inr ⟨e, ns, h.hostAct ha, his⟩
  command := by
    rintro i is out s (h | ⟨e, ns, h, his, rfl⟩)
    · obtain ⟨t, new, rest, hexec, hout, hsplit, hrest⟩ := (describesMessage_decryptPass P).command h
      exact ⟨t, new, rest, hexec, hout, hsplit, .inl hrest⟩
    · cases ns with
      | nil => exact absurd rfl h.pending
      | cons b ns =>
        obtain ⟨rfl, rfl⟩ := List.cons_eq_cons.1 his
        obtain ⟨t, hexec, hout, ht⟩ := h.decb (P := P) (data := out) hd
        exact ⟨t, [], out, hexec, by rw [hout, List.append_nil], rfl, ht⟩
  atEnd := by
    rintro out s (h | ⟨e, ns, h, his, -⟩)
    · exact (describesMessage_decryptPass P).atEnd h
    · cases ns with
      | nil => exact absurd rfl h.pending
      | cons b ns => cases his

/-- ENCM with a full nonce leaves a pass over the data, in lockstep with any derivation from password and nonce. -/
theorem passState_encMessage {P : Config.Params} {s d : State} (hn : s.nlen.toNat = 128) (he : s.err = .none)
    (hw : s.ngenWait = false) (hd : ∀ u, Lockstep d (derive P (s.pwSeq ++ s.nonceSeq) u)) :
    PassState .enc d (encMessage P s) := by
  have hk := derive_only P s.pwSeq s
  have hu := putEncAll_frame (bs := s.nonceSeq) (derive_live P s.pwSeq s).pp
  rw [encMessage_long hn]
  generalize derive P s.pwSeq s = k at hk hu ⊢
  generalize putEncAll s.nonceSeq k = u at hu ⊢
  exact passState_rederive .enc hd (hk.pwSeq_nonceSeq hu) (by rw [hu, hk.fields, he]) (by rw [hu, hk.fields, hw])

/-- DECM leaves the whole nonce to come, in lockstep with any derivation from the same password. -/
theorem nonceToCome_decMessage {P : Config.Params} {e s : State} (hpw : e.pwSeq = s.pwSeq) (he : s.err = .none)
    (hw : s.ngenWait = false) {nonce : List Byte} (hn : nonce.length = 128) :
    NonceToCome (e.pwSeq ++ nonce) (derive P e.pwSeq e) nonce (decMessage P s) where
  pass :=
    have h := passState_startPass (P := P) .decn hpw he hw
    ⟨(setNlen_phase _ _).trans h.phase, (setNlen_err _ _).trans h.err, (setNlen_ngenWait _ _).trans h.notHeld,
      h.lockstep.congr (setNlen_regX _ _) (setNlen_pp _ _) (setNlen_plen _ _) (setNlen_pat _ _) (setNlen_grid _ _)⟩
  pending := List.ne_nil_of_length_pos (by omega)
  count := by rw [decMessage_nlen, hn, Nat.zero_add]
  message := by
    rw [decMessage_nlen, decMessage_pwSeq, hpw, State.readRun, List.range_zero, List.map_nil, List.nil_append]

/-- Settles O50: the first message puts out the nonce and the data, each enciphered under its own key schedule, and the
second recovers the nonce, with it the key schedule of the data, and so the data. -/
theorem messageRoundTrip : Obligations.MessageRoundTrip := by
  intro P s1 s2 data body1 hp1 he1 hw1 hn1 hp2 he2 hw2 hpw hb1 hc1
  have hd := lockstep_derive P (s1.pwSeq ++ s1.nonceSeq) s1
  generalize derive P (s1.pwSeq ++ s1.nonceSeq) s1 = d at hd
  refine ⟨(cipherPairs s1.nonceSeq (derive P s1.pwSeq s1)).map Prod.snd ++ (cipherPairs data d).map Prod.snd,
    ?_, ?_, fun body2 hb2 hc2 => ?_⟩
  · exact (describesMessage_encryptPass P).messageResult rfl hw1 (execWith_of_idle P (i := .encm) rfl hp1)
      (encMessage_out hn1) hb1 ⟨d, data, passState_encMessage hn1 he1 hw1 hd, by rw [hc1, cipherPairs_fst], rfl⟩
  · rw [List.length_append, List.length_map, List.length_map, cipherPairs_length, cipherPairs_length, nonceSeq_length,
      Nat.add_comm]
  · exact (describesMessage_decryptMessage hd).messageResult (pre := []) rfl hw2
      (execWith_of_idle P (i := .decm) rfl hp2) (by rw [effectOf, decMessage_out, List.append_nil]) hb2
      (.inr ⟨_, _, nonceToCome_decMessage hpw he2 hw2 (nonceSeq_length s1), hc2, rfl⟩)

end Sys2Proof.Machine

/-! PROOFS. The control commands (45_control.md): RST (O14) and END (O15). -/

namespace Sys2Proof.Machine

/-! ### RST (45_control.md rule R221) -/

/-- RST's opcode with an immediate is the word of no command (30_encoding.md rule R91). -/
theorem decode_rst_imm_ne_zero {imm : Byte} (h : imm ≠ 0) : ∃ r, decode (0x0100 + imm.setWidth 16) = .error r := by
  have hword : mkWord 0x01 imm = 0x0100 + imm.setWidth 16 := mkWord_eq_add 0x01 imm
  rw [← hword]
  have hN : opField (mkWord 0x01 imm) ∈ opcodesN := by rw [Laws.FieldsOfWord.opField_mkWord]; decide
  exact ⟨_, decode_of_imm_ne_zero hN (by rwa [Laws.FieldsOfWord.immField_mkWord])⟩

/-- Settles O14: RST and the reset input are the one operation `resetBlock`, and its opcode with an immediate does not
decode. -/
theorem rstResetsTheBlock : Obligations.RstResetsTheBlock := by
  refine ⟨rfl, fun s => ⟨resetBlock s, (exec_eq_execWith _ s).trans (execWith_rst _ s), resetBlock_regX s, resetBlock_regS s,
    resetBlock_pwlen s, resetBlock_nlen s, resetBlock_plen s, resetBlock_pp s, resetBlock_phase s, resetBlock_err s,
    resetBlock_einfo s, resetBlock_out s, ?_, rfl⟩, fun imm rest s h0 hn hc => ?_⟩
  · rw [State.pwSeq, resetBlock_pwlen, State.readRun, List.range_zero, List.map_nil]
  · obtain ⟨r, hd⟩ := decode_rst_imm_ne_zero h0
    have hstep : step s = .next (illegalWord (0x0100 + imm.setWidth 16) { s with cmdIn := rest }) :=
      stepVia_illegal hn hc hd
    exact ⟨fun hf => hstep.trans (congrArg _ (illegalWord_of_fault hf)),
      fun hf => hstep.trans (congrArg _ (illegalWord_of_not_fault hf))⟩

/-! ### END (45_control.md rule R222) -/

theorem endPass_of_decn {s : State} (h : s.phase = .decn) :
    endPass s = raise .truncatedCiphertext (s.nlen.setWidth 16) s := if_pos h

theorem endPass_of_not_decn {s : State} (h : s.phase ≠ .decn) :
    endPass s = { s with regX := 0, plen := 0, pp := 0, nlen := 0, phase := .idle } := if_neg h

/-- END is performed in the three phases it is legal in. -/
theorem exec_endMsg_of_legal {s : State} (hp : s.phase = .enc ∨ s.phase = .decn ∨ s.phase = .dec) :
    exec .endMsg s = .next (endPass s) := by
  obtain ⟨-, hlegal, -⟩ := legalPhasesOfTheMap s.phase 0
  have hf : s.phase ≠ .fault := fun hf => by simp [hf] at hp
  rw [exec_eq_execWith, execWith_of_legal _ hf (hlegal.2 hp), effectOf]

/-- Settles O15, by the phase: performed in ENC, DEC and DECN, illegal in IDLE, discarded in FAULT. -/
theorem endEndsThePass : Obligations.EndEndsThePass := by
  refine ⟨rfl, fun s => ⟨fun hp => ?_, fun hp => ?_, fun hp => ?_, fun hp => ?_⟩⟩
  · rw [exec_endMsg_of_legal (hp.imp_right .inr), endPass_of_not_decn fun hd => by simp [hd] at hp]
  · rw [exec_endMsg_of_legal (.inr (.inl hp)), endPass_of_decn hp]
  · exact (exec_eq_execWith _ s).trans (execWith_of_not_legal _ (by simp [hp]) (by rw [hp]; rfl))
  · exact (exec_eq_execWith _ s).trans (execWith_of_fault _ (by decide) hp)

end Sys2Proof.Machine

/-! PROOFS. Errors and FAULT (60_exceptions.md): what fault entry writes (O10), that only RST leaves FAULT (O11), that every
command and every step answers a next state (O12), and which command raises which error, for which reason (O55). -/

namespace Sys2Proof.Machine

/-! ### Fault entry and the way out (60_exceptions.md rules R240, R243) -/

/-- Settles O10: fault entry is one record update, and the status port reads three of its fields. -/
theorem faultEntryWrites : Obligations.FaultEntryWrites := fun _ _ _ => ⟨rfl, rfl⟩

theorem rst_of_leaves_fault {P : Config.Params} {i : Instr} {s t : State} (h : execWith P i s = .next t)
    (hs : s.phase = .fault) (ht : t.phase ≠ .fault) : i = .rst ∧ t.phase = .idle := by
  rcases execWith_next_cases h with ⟨hi, rfl⟩ | ⟨-, -, rfl⟩ | ⟨-, hf, -, -⟩ | ⟨-, hf, -, -⟩
  · exact ⟨hi, resetBlock_phase s⟩
  · exact absurd hs ht
  · exact absurd hs hf
  · exact absurd hs hf

/-- Settles O11: in FAULT a command is RST or is discarded. -/
theorem onlyResetLeavesFault : Obligations.OnlyResetLeavesFault := by
  intro P i s t h
  rcases h with h | h
  · exact rst_of_leaves_fault h
  · exact rst_of_leaves_fault (exec_eq_execWith i s ▸ h)

/-! ### Nothing stops the machine (60_exceptions.md rule R245) -/

theorem execWith_answers_next (P : Config.Params) (i : Instr) (s : State) : ∃ t, execWith P i s = .next t := by
  by_cases hi : i = .rst
  · exact ⟨resetBlock s, hi ▸ execWith_rst P s⟩
  · exact ⟨_, execWith_eq_accept P hi s⟩

/-- A step adds nothing that could stop the machine to how the commands are performed. -/
theorem stepVia_answers_next {ex : Instr → State → Host.Outcome State Fault Refusal} (h : ∀ i s, ∃ t, ex i s = .next t)
    (s : State) : ∃ t, stepVia ex s = .next t := by
  rw [stepVia]
  cases fetch s with
  | resume => exact ⟨_, rfl⟩
  | wait => exact ⟨_, rfl⟩
  | command i => exact h i (takeWord s)
  | illegal w => exact ⟨_, rfl⟩

/-- Settles O12: this hardware is a block with parameters, RST answers the reset state and acceptance always a next state. -/
theorem execAndStepAnswerANextState : Obligations.ExecAndStepAnswerANextState := by
  have hexec (i : Instr) (s : State) : ∃ t, exec i s = .next t := exec_eq_execWith i s ▸ execWith_answers_next _ i s
  exact ⟨hexec, stepVia_answers_next hexec,
    fun P => ⟨execWith_answers_next P, stepVia_answers_next (execWith_answers_next P)⟩⟩

/-! ### Why a command faults (60_exceptions.md rules R231, R237 to R239)

For each of the four effects that can raise: when it ends in FAULT, the condition under which it raises holds. -/

theorem decMessage_phase (P : Config.Params) (s : State) : (decMessage P s).phase = .decn := by
  rw [decMessage, setNlen_phase, startPass_phase]

section
variable {P : Config.Params} {b : Byte} {s : State}

theorem endPass_fault (h : (endPass s).phase = .fault) : s.phase = .decn := by
  by_contra hn
  rw [endPass_of_not_decn hn] at h
  cases h

theorem encMessage_fault (h : (encMessage P s).phase = .fault) : s.nlen.toNat ≠ 128 := by
  intro hn
  rw [encMessage_long hn, rederive_phase] at h
  cases h

theorem decipher_of_absent (h : (decByte b s).1 = none) : decipher P b s = raise .decodeError (byteToInfo b) s := by
  rw [decipher]
  split_ifs
  · rw [nonceDec]
    simp only [h]
    exact raise_tableSelect _ _ s
  · exact putDec_of_absent h

theorem nonceDec_phase_of_found {j : Byte} (h : (decByte b s).1 = some j) :
    (nonceDec P b s).phase = s.phase ∨ (nonceDec P b s).phase = .dec := by
  rw [nonceDec]
  simp only [h]
  split_ifs
  · exact .inr (rederive_phase _ _ _)
  · exact .inl (by rw [nonceAppend_phase, decByte_phase])

variable (hf : s.phase ≠ .fault)
include hf

theorem pwPush_fault (h : (pwPush P b s).phase = .fault) : P.pwMax = some s.pwlen := by
  by_contra hn
  rw [pwPush_of_room hn, pwAppend_phase] at h
  exact hf h

theorem decipher_fault (h : (decipher P b s).phase = .fault) : (decByte b s).1 = none := by
  cases hd : (decByte b s).1 with
  | none => rfl
  | some j =>
    rw [decipher] at h
    split_ifs at h
    · rcases nonceDec_phase_of_found (P := P) hd with hp | hp <;> rw [hp] at h
      · exact absurd h hf
      · cases h
    · rw [putDec_of_found hd, push_phase, tableSelect_phase] at h
      exact absurd h hf

theorem noncePush_not_fault : (noncePush b s).phase ≠ .fault := by
  rw [noncePush]
  split_ifs
  · rwa [nonceAppend_phase]
  · rwa [setNlen_phase]

theorem nonceDraw_not_fault : (nonceDraw s).phase ≠ .fault := by
  cases hr : s.rngOn with
  | true => rwa [nonceDraw_of_on hr]
  | false => rwa [nonceDraw_of_off hr]

/-- Only the effects of ENCM, END, DECB and PWPUSH can enter FAULT, each for the one reason its rule names. -/
theorem effectOf_fault_cases {i : Instr} (h : (effectOf P i s).phase = .fault) :
    (i = .encm ∧ s.nlen.toNat ≠ 128) ∨ (i = .endMsg ∧ s.phase = .decn) ∨
    (∃ b, i = .decb b ∧ (decByte b s).1 = none) ∨ (∃ b, i = .pwpush b ∧ P.pwMax = some s.pwlen) := by
  cases i with
  | encm => exact .inl ⟨rfl, encMessage_fault h⟩
  | endMsg => exact .inr (.inl ⟨rfl, endPass_fault h⟩)
  | decb b => exact .inr (.inr (.inl ⟨b, rfl, decipher_fault hf h⟩))
  | pwpush b => exact .inr (.inr (.inr ⟨b, rfl, pwPush_fault hf h⟩))
  | npush b => exact absurd h (noncePush_not_fault hf)
  | ngen => exact absurd h (nonceDraw_not_fault hf)
  | pwclr => exact absurd ((setPw_phase _ _ _).symm.trans h) hf
  | nclr => exact absurd ((setNlen_phase _ _).symm.trans h) hf
  | lds b => exact absurd ((loadSeedByte_phase _ _).symm.trans h) hf
  | seed => exact absurd ((prgSeed_phase _ _).symm.trans h) hf
  | nextb => exact absurd ((putDraw_phase _).symm.trans h) hf
  | nextp => exact absurd ((putPerm_phase _).symm.trans h) hf
  | encb b => exact absurd ((putEnc_phase _ _).symm.trans h) hf
  | rst => exact absurd ((resetBlock_phase _).symm.trans h) (by decide)
  | spe => exact absurd ((startPass_phase _ _ _).symm.trans h) (by decide)
  | spd => exact absurd ((startPass_phase _ _ _).symm.trans h) (by decide)
  | decm => exact absurd ((decMessage_phase P s).symm.trans h) (by decide)

end

/-- Where the inverse lookup answers none, no entry of the selected table is the byte (43_cipher.md rule R183). -/
theorem readByte_nextTable_ne_of_absent {b : Byte} {s : State} (h : (decByte b s).1 = none) (j : Byte) :
    s.readByte .grid (256 * (nextTable s).toNat + j.toNat) ≠ b := by
  rw [readByte_nextTable]
  exact gridIndexOf_none ((decByte_fst b s).symm.trans h) j

/-- Settles O55: a command that enters FAULT was out of its legal phases, or its effect is one of the four that raise; this
hardware has no PW_MAX, so PasswordOverflow is never raised there. -/
theorem errorsComeFromTheirCommands : Obligations.ErrorsComeFromTheirCommands := by
  refine (and_iff_left_of_imp fun hall i s t hf he ht => ?_).2 fun P i s t hf he ht => ?_
  · rcases hall Config.params i s t hf (exec_eq_execWith i s ▸ he) ht with h | h | h | h | ⟨-, -, hmax, -⟩
    · exact .inl h
    · exact .inr (.inl h)
    · exact .inr (.inr (.inl h))
    · exact .inr (.inr (.inr h))
    · cases hmax
  · rcases execWith_next_cases he with ⟨-, rfl⟩ | ⟨-, hfault, -⟩ | ⟨-, -, hl, rfl⟩ | ⟨-, -, hl, rfl⟩
    · rw [resetBlock_phase] at ht; cases ht
    · exact absurd hfault hf
    · exact .inr (.inr (.inr (.inl ⟨raise_err _ _ s, hl, raise_einfo _ _ s⟩)))
    · rcases effectOf_fault_cases hf ht with ⟨rfl, hn⟩ | ⟨rfl, hp⟩ | ⟨b, rfl, hd⟩ | ⟨b, rfl, hm⟩
      · rw [effectOf, encMessage_short hn]
        exact .inl ⟨raise_err _ _ s, rfl, eq_of_beq hl, hn, raise_einfo _ _ s⟩
      · rw [effectOf, endPass_of_decn hp]
        exact .inr (.inl ⟨raise_err _ _ s, rfl, hp, raise_einfo _ _ s⟩)
      · rw [effectOf, decipher_of_absent hd]
        have hp : s.phase = .decn ∨ s.phase = .dec := ((Bool.or_eq_true _ _).mp hl).imp eq_of_beq eq_of_beq
        exact .inr (.inr (.inl ⟨raise_err _ _ s, hp, b, rfl, raise_einfo _ _ s, readByte_nextTable_ne_of_absent hd⟩))
      · rw [effectOf, pwPush_of_full hm, natToInfo_eq]
        exact .inr (.inr (.inr (.inr ⟨raise_err _ _ s, eq_of_beq hl, hm, ⟨b, rfl⟩, raise_einfo _ _ s⟩)))

end Sys2Proof.Machine

/-! PROOFS. What a command may overwrite while a message is going on (70_reset_and_hazards.md rule R281, O57): PW, PWLEN and S
are written in IDLE and by RST only, and of the commands that are legal outside IDLE only DECB, in DECN, writes NONCE. -/

namespace Sys2Proof.Machine

/-- PW, PWLEN and S are in `t` as they were in `s`. -/
def PasswordAndSeedKept (s t : State) : Prop :=
  t.pw = s.pw ∧ t.pwlen = s.pwlen ∧ t.regS = s.regS

/-- PW, PWLEN, S and NONCE are in `t` as they were in `s`. -/
def BuffersKept (s t : State) : Prop :=
  PasswordAndSeedKept s t ∧ t.nonce = s.nonce

theorem Phase.live_of_ne {p : Phase} (hi : p ≠ .idle) (hf : p ≠ .fault) : p.live = true := by
  cases p with
  | idle => exact absurd rfl hi
  | fault => exact absurd rfl hf
  | _ => rfl

/-! ### What each effect keeps -/

theorem BuffersKept.refl (s : State) : BuffersKept s s := ⟨⟨rfl, rfl, rfl⟩, rfl⟩

theorem buffersKept_raise (e : Err) (info : Word) (s : State) : BuffersKept s (raise e info s) :=
  ⟨⟨raise_pw e info s, raise_pwlen e info s, raise_regS e info s⟩, raise_nonce e info s⟩

theorem buffersKept_endPass (s : State) : BuffersKept s (endPass s) := by
  by_cases hp : s.phase = .decn
  · rw [endPass_of_decn hp]; exact buffersKept_raise _ _ s
  · rw [endPass_of_not_decn hp]; exact ⟨⟨rfl, rfl, rfl⟩, rfl⟩

theorem buffersKept_putEnc (b : Byte) (s : State) : BuffersKept s (putEnc b s) :=
  ⟨⟨putEnc_pw b s, putEnc_pwlen b s, putEnc_regS b s⟩, putEnc_nonce b s⟩

theorem passwordAndSeedKept_decipher (P : Config.Params) (b : Byte) (s : State) :
    PasswordAndSeedKept s (decipher P b s) := by
  rcases decipher_cases P b s with h | ⟨-, j, h⟩ | ⟨-, j, h⟩ | ⟨-, j, h⟩ <;> rw [h] <;> simp [PasswordAndSeedKept]

/-- Outside DECN a DECB puts its byte out or raises, and keeps none in NONCE (43_cipher.md rule R193). -/
theorem decipher_nonce_of_not_decn {s : State} (hp : s.phase ≠ .decn) (P : Config.Params) (b : Byte) :
    (decipher P b s).nonce = s.nonce := by
  rcases decipher_cases P b s with h | ⟨-, j, h⟩ | ⟨hd, -⟩ | ⟨hd, -⟩
  · rw [h, raise_nonce, decByte_nonce]
  · rw [h, push_nonce, decByte_nonce]
  · exact absurd hd hp
  · exact absurd hd hp

/-! ### A command outside IDLE -/

/-- Outside IDLE a command other than RST keeps the buffers, unless it is a DECB in DECN, which keeps the password and S. -/
theorem execWith_buffers_of_not_idle {P : Config.Params} {i : Instr} {s t : State} (hs : s.phase ≠ .idle) (hi : i ≠ .rst)
    (h : execWith P i s = .next t) :
    BuffersKept s t ∨ (PasswordAndSeedKept s t ∧ s.phase = .decn ∧ ∃ b, i = .decb b) := by
  rcases execWith_next_cases h with ⟨hr, -⟩ | ⟨-, -, rfl⟩ | ⟨-, -, -, rfl⟩ | ⟨-, hf, hleg, rfl⟩
  · exact absurd hr hi
  · exact .inl (.refl _)
  · exact .inl (buffersKept_raise _ _ s)
  · rcases legalIn_live (Phase.live_of_ne hs hf) hleg with hr | rfl | ⟨b, rfl⟩ | ⟨b, rfl⟩
    · exact absurd hr hi
    · exact .inl (buffersKept_endPass s)
    · exact .inl (buffersKept_putEnc b s)
    · have hpw := passwordAndSeedKept_decipher P b s
      by_cases hp : s.phase = .decn
      · exact .inr ⟨hpw, hp, b, rfl⟩
      · exact .inl ⟨hpw, decipher_nonce_of_not_decn hp P b⟩

/-- Settles O57: outside IDLE a command is discarded or raises, or is END, ENCB or DECB, and of these only DECB in DECN
writes a buffer. -/
theorem buffersAreFixedDuringAMessage : Obligations.BuffersAreFixedDuringAMessage := by
  intro P i s t hs hi h
  have hkept : BuffersKept s t ∨ (PasswordAndSeedKept s t ∧ s.phase = .decn ∧ ∃ b, i = .decb b) := by
    rcases h with h | h
    · exact execWith_buffers_of_not_idle hs hi h
    · exact execWith_buffers_of_not_idle hs hi (exec_eq_execWith i s ▸ h)
  rcases hkept with ⟨⟨hpw, hlen, hS⟩, hnonce⟩ | ⟨⟨hpw, hlen, hS⟩, hdecb⟩
  · exact ⟨hpw, hlen, hS, .inl hnonce⟩
  · exact ⟨hpw, hlen, hS, .inr hdecb⟩

end Sys2Proof.Machine
